-- ==== Sys2Proof/Word.lean ====
section
/-! DEFINITION. The word types of the ECDSA core: bus words, bytes, 512-bit registers and window offsets. -/

namespace Sys2Proof

/-- One byte of a byte string or of BUF (R13). -/
abbrev Byte := BitVec 8

/-- One bus word, and one command word (R51, R70). -/
abbrev Word := BitVec 32

/-- The contents of one scalar, curve or coordinate register (R30, R32, R34). -/
abbrev Reg := BitVec 512

/-- An offset in the 0x2000-byte register window (R53): thirteen bits reach all of it and nothing else. -/
abbrev Offset := BitVec 13

end Sys2Proof
end

