-- ==== Sys2Proof/Syntax.lean ====
section
/-! DEFINITION. The commands of the core (R72): one constructor per row of spec/opcode_table.json. -/

namespace Sys2Proof

/-- A scalar register S0 to S15 named by a command field (R71). -/
abbrev SReg := Fin 16

/-- A point register PT0 to PT15 named by a command field (R71). -/
abbrev PReg := Fin 16

/-- The modulus a MOD command selects by its M bit: `.p` for M = 0, `.n` for M = 1 (R95). -/
inductive Modulus where
  | p
  | n
deriving DecidableEq, Repr

/-- The curve presets CURVE_SEL may name (R91): ids 0 and 1, the only legal ones (R73 (e)). -/
inductive Preset where
  | secp256r1
  | secp256k1
deriving DecidableEq, Repr

/-- A command, with its operands in the order of R75 (destination first). -/
inductive Instr where
  /-- NOP (R90). -/
  | nop
  /-- CURVE_SEL id (R91). -/
  | curveSel (id : Preset)
  /-- MODADD.x Sd, Sa, Sb (R96). -/
  | modadd (d a b : SReg) (m : Modulus)
  /-- MODSUB.x Sd, Sa, Sb (R97). -/
  | modsub (d a b : SReg) (m : Modulus)
  /-- MODMUL.x Sd, Sa, Sb (R98). -/
  | modmul (d a b : SReg) (m : Modulus)
  /-- MODINV.x Sd, Sa (R99). -/
  | modinv (d a : SReg) (m : Modulus)
  /-- PADD PTd, PTa, PTb (R105). -/
  | padd (d a b : PReg)
  /-- PDBL PTd, PTa (R106). -/
  | pdbl (d a : PReg)
  /-- PSMUL PTd, PTa, Sk (R107). -/
  | psmul (d a : PReg) (k : SReg)
  /-- PBMUL PTd, Sk (R108). -/
  | pbmul (d : PReg) (k : SReg)
  /-- SCHK Sa (R114). -/
  | schk (a : SReg)
  /-- PCHK PTa (R115). -/
  | pchk (a : PReg)
  /-- PKCHK PTa (R116). -/
  | pkchk (a : PReg)
  /-- RSAMPLE Sd (R118). -/
  | rsample (d : SReg)
  /-- DERIVE PTd, Skey (R120). -/
  | derive (d : PReg) (key : SReg)
  /-- SIGN Sr, Ss, Sh, Skey (R123). -/
  | sign (r s h key : SReg)
  /-- VERIFY Sh, Sr, Ss, PTq (R125). -/
  | verify (h r s : SReg) (q : PReg)
  /-- PENC PTa (R127). -/
  | penc (a : PReg)
  /-- PDEC PTd (R128). -/
  | pdec (d : PReg)
  /-- PCOMP PTa (R129). -/
  | pcomp (a : PReg)
  /-- PDECOMP PTd (R131). -/
  | pdecomp (d : PReg)
deriving DecidableEq, Repr

/-- The pseudo-command KEYGEN Sd (R76). -/
abbrev Instr.keygen (d : SReg) : Instr := .rsample d

/-- The pseudo-command SKCHK Sa (R76). -/
abbrev Instr.skchk (a : SReg) : Instr := .schk a

/-- The pseudo-command MODSQR.x Sd, Sa (R76). -/
abbrev Instr.modsqr (d a : SReg) (m : Modulus) : Instr := .modmul d a a m

end Sys2Proof
end

