-- ==== Sys2Proof/WellFormed.lean ====
section
/-! DEFINITION. The legality conditions of R73 that the types of Instr do not already carry: there is one, SIGN's
two destinations must differ (R73 (f), R74). -/

namespace Sys2Proof

/-- The command is one the core executes: every field is legal (R73). Register indices, the preset id and
the modulus are legal by their types, so SIGN's `FA != FB` is the one check left. -/
def Instr.wellFormed : Instr → Bool
  | .nop => true
  | .curveSel _ => true
  | .modadd _ _ _ _ => true
  | .modsub _ _ _ _ => true
  | .modmul _ _ _ _ => true
  | .modinv _ _ _ => true
  | .padd _ _ _ => true
  | .pdbl _ _ => true
  | .psmul _ _ _ => true
  | .pbmul _ _ => true
  | .schk _ => true
  | .pchk _ => true
  | .pkchk _ => true
  | .rsample _ => true
  | .derive _ _ => true
  | .sign r s _ _ => r != s
  | .verify _ _ _ _ => true
  | .penc _ => true
  | .pdec _ => true
  | .pcomp _ => true
  | .pdecomp _ => true

/-- `wellFormed` as a proposition. -/
abbrev Instr.WellFormed (i : Instr) : Prop := i.wellFormed = true

end Sys2Proof
end

