-- ==== Sys2Proof/Decode.lean ====
section
/-! DEFINITION. The command word (R70 to R74): its fields, the total decoder, the encoder, and the assembler text of R75. -/

namespace Sys2Proof

/-- Why a command word is illegal: the clauses (a) to (f) of R73. -/
inductive Illegal where
  /-- (a) OP is not one of the 21 opcodes of R72. -/
  | reservedOpcode
  /-- (b) RSV, bits [7:1], is not zero. -/
  | reservedBits
  /-- (c) a field that R72 marks 0 is not zero. -/
  | unusedField
  /-- (d) M = 1 in a command that is not a MOD command. -/
  | modulusBit
  /-- (e) CURVE_SEL with a preset id of 2 or more. -/
  | presetId
  /-- (f) SIGN with FA = FB. -/
  | sameDestination
deriving DecidableEq, Repr

/-- OP, bits [31:24] (R70). -/
def opField (w : Word) : BitVec 8 := w.extractLsb' 24 8

/-- FA, bits [23:20] (R70). -/
def faField (w : Word) : Fin 16 := (w.extractLsb' 20 4).toFin

/-- FB, bits [19:16] (R70). -/
def fbField (w : Word) : Fin 16 := (w.extractLsb' 16 4).toFin

/-- FC, bits [15:12] (R70). -/
def fcField (w : Word) : Fin 16 := (w.extractLsb' 12 4).toFin

/-- FD, bits [11:8] (R70). -/
def fdField (w : Word) : Fin 16 := (w.extractLsb' 8 4).toFin

/-- RSV, bits [7:1] (R70). -/
def rsvField (w : Word) : BitVec 7 := w.extractLsb' 1 7

/-- M, bit [0] (R70). -/
def mField (w : Word) : Bool := w.getLsbD 0

/-- The modulus the M bit selects (R95). -/
def modulusOf : Bool → Modulus
  | false => .p
  | true => .n

/-- The M bit that selects a modulus (R95). -/
def modulusBit : Modulus → Bool
  | .p => false
  | .n => true

/-- The preset CURVE_SEL's FA selects, legal for 0 and 1 only (R71, R73 (e)). -/
def presetOf (fa : Fin 16) : Except Illegal Preset :=
  if fa = 0 then .ok .secp256r1
  else if fa = 1 then .ok .secp256k1
  else .error .presetId

/-- The preset's id, FA of CURVE_SEL (R91). -/
def presetId : Preset → Fin 16
  | .secp256r1 => 0
  | .secp256k1 => 1

/-- Accept `i` when every field R72 marks 0 is zero (R73 (c)). -/
def whenUnused (unused : List (Fin 16)) (i : Instr) : Except Illegal Instr :=
  if unused.all (· == 0) then .ok i else .error .unusedField

/-- Accept `i` when moreover M is zero, as in every command but the MOD commands (R73 (c), (d)). -/
def whenPlain (m : Bool) (unused : List (Fin 16)) (i : Instr) : Except Illegal Instr :=
  if m then .error .modulusBit else whenUnused unused i

/-- The opcode map of R72 on the fields of a word whose RSV bits are zero. -/
def decodeFields (op : BitVec 8) (fa fb fc fd : Fin 16) (m : Bool) : Except Illegal Instr :=
  match op.toNat with
  | 0x00 => whenPlain m [fa, fb, fc, fd] .nop
  | 0x01 =>
    match presetOf fa with
    | .error e => .error e
    | .ok id => whenPlain m [fb, fc, fd] (.curveSel id)
  | 0x10 => whenUnused [fd] (.modadd fa fb fc (modulusOf m))
  | 0x11 => whenUnused [fd] (.modsub fa fb fc (modulusOf m))
  | 0x12 => whenUnused [fd] (.modmul fa fb fc (modulusOf m))
  | 0x13 => whenUnused [fc, fd] (.modinv fa fb (modulusOf m))
  | 0x20 => whenPlain m [fd] (.padd fa fb fc)
  | 0x21 => whenPlain m [fc, fd] (.pdbl fa fb)
  | 0x22 => whenPlain m [fd] (.psmul fa fb fc)
  | 0x23 => whenPlain m [fc, fd] (.pbmul fa fb)
  | 0x30 => whenPlain m [fa, fc, fd] (.schk fb)
  | 0x31 => whenPlain m [fa, fc, fd] (.pchk fb)
  | 0x32 => whenPlain m [fa, fc, fd] (.pkchk fb)
  | 0x40 => whenPlain m [fb, fc, fd] (.rsample fa)
  | 0x41 => whenPlain m [fc, fd] (.derive fa fb)
  | 0x42 => if fa = fb then .error .sameDestination else whenPlain m [] (.sign fa fb fc fd)
  | 0x43 => whenPlain m [] (.verify fa fb fc fd)
  | 0x50 => whenPlain m [fa, fc, fd] (.penc fb)
  | 0x51 => whenPlain m [fb, fc, fd] (.pdec fa)
  | 0x52 => whenPlain m [fa, fc, fd] (.pcomp fb)
  | 0x53 => whenPlain m [fb, fc, fd] (.pdecomp fa)
  | _ => .error .reservedOpcode

/-- The decoder: total on all 2^32 words, rejecting by name (R73, R74). -/
def decode (w : Word) : Except Illegal Instr :=
  if rsvField w ≠ 0#7 then .error .reservedBits
  else decodeFields (opField w) (faField w) (fbField w) (fcField w) (fdField w) (mField w)

/-- The word `OP<<24 | FA<<20 | FB<<16 | FC<<12 | FD<<8 | M` of R70, its fields laid side by side. -/
def wordOf (op : BitVec 8) (fa fb fc fd : Fin 16) (m : Bool) : Word :=
  op ++ (BitVec.ofFin fa : BitVec 4) ++ (BitVec.ofFin fb : BitVec 4) ++ (BitVec.ofFin fc : BitVec 4)
    ++ (BitVec.ofFin fd : BitVec 4) ++ 0#7 ++ BitVec.ofBool m

/-- The encoder (R70 to R72): a field the row marks 0 is encoded 0. -/
def encode : Instr → Word
  | .nop => wordOf 0x00 0 0 0 0 false
  | .curveSel id => wordOf 0x01 (presetId id) 0 0 0 false
  | .modadd d a b m => wordOf 0x10 d a b 0 (modulusBit m)
  | .modsub d a b m => wordOf 0x11 d a b 0 (modulusBit m)
  | .modmul d a b m => wordOf 0x12 d a b 0 (modulusBit m)
  | .modinv d a m => wordOf 0x13 d a 0 0 (modulusBit m)
  | .padd d a b => wordOf 0x20 d a b 0 false
  | .pdbl d a => wordOf 0x21 d a 0 0 false
  | .psmul d a k => wordOf 0x22 d a k 0 false
  | .pbmul d k => wordOf 0x23 d k 0 0 false
  | .schk a => wordOf 0x30 0 a 0 0 false
  | .pchk a => wordOf 0x31 0 a 0 0 false
  | .pkchk a => wordOf 0x32 0 a 0 0 false
  | .rsample d => wordOf 0x40 d 0 0 0 false
  | .derive d key => wordOf 0x41 d key 0 0 false
  | .sign r s h key => wordOf 0x42 r s h key false
  | .verify h r s q => wordOf 0x43 h r s q false
  | .penc a => wordOf 0x50 0 a 0 0 false
  | .pdec d => wordOf 0x51 d 0 0 0 false
  | .pcomp a => wordOf 0x52 0 a 0 0 false
  | .pdecomp d => wordOf 0x53 d 0 0 0 false

/-- The instruction the decoder reads from a row's bits, numbered as spec/opcode_table.json numbers them
(the one 32-bit command word; bits above `nbits` are zero). -/
def decodeTableWord (nbits w : Nat) : Option Instr :=
  match decode (BitVec.ofNat 32 (w % 2 ^ nbits)) with
  | .ok i => some i
  | .error _ => none

/-- The text of a register operand (R75). -/
def asmReg (kind : String) (i : Fin 16) : String := kind ++ toString i.val

/-- The modulus suffix of a MOD mnemonic (R75). -/
def asmSuffix : Modulus → String
  | .p => ".P"
  | .n => ".N"

/-- The preset name CURVE_SEL takes (R75). -/
def asmPreset : Preset → String
  | .secp256r1 => "secp256r1"
  | .secp256k1 => "secp256k1"

/-- The assembler line of a command (R75): mnemonic, then the operands, destination first. -/
def asmLine (mnemonic : String) (operands : List String) : String :=
  if operands.isEmpty then mnemonic else mnemonic ++ " " ++ ", ".intercalate operands

/-- The assembler text of a command (R75). -/
def assemblerText : Instr → String
  | .nop => asmLine "NOP" []
  | .curveSel id => asmLine "CURVE_SEL" [asmPreset id]
  | .modadd d a b m => asmLine ("MODADD" ++ asmSuffix m) [asmReg "S" d, asmReg "S" a, asmReg "S" b]
  | .modsub d a b m => asmLine ("MODSUB" ++ asmSuffix m) [asmReg "S" d, asmReg "S" a, asmReg "S" b]
  | .modmul d a b m => asmLine ("MODMUL" ++ asmSuffix m) [asmReg "S" d, asmReg "S" a, asmReg "S" b]
  | .modinv d a m => asmLine ("MODINV" ++ asmSuffix m) [asmReg "S" d, asmReg "S" a]
  | .padd d a b => asmLine "PADD" [asmReg "PT" d, asmReg "PT" a, asmReg "PT" b]
  | .pdbl d a => asmLine "PDBL" [asmReg "PT" d, asmReg "PT" a]
  | .psmul d a k => asmLine "PSMUL" [asmReg "PT" d, asmReg "PT" a, asmReg "S" k]
  | .pbmul d k => asmLine "PBMUL" [asmReg "PT" d, asmReg "S" k]
  | .schk a => asmLine "SCHK" [asmReg "S" a]
  | .pchk a => asmLine "PCHK" [asmReg "PT" a]
  | .pkchk a => asmLine "PKCHK" [asmReg "PT" a]
  | .rsample d => asmLine "RSAMPLE" [asmReg "S" d]
  | .derive d key => asmLine "DERIVE" [asmReg "PT" d, asmReg "S" key]
  | .sign r s h key => asmLine "SIGN" [asmReg "S" r, asmReg "S" s, asmReg "S" h, asmReg "S" key]
  | .verify h r s q => asmLine "VERIFY" [asmReg "S" h, asmReg "S" r, asmReg "S" s, asmReg "PT" q]
  | .penc a => asmLine "PENC" [asmReg "PT" a]
  | .pdec d => asmLine "PDEC" [asmReg "PT" d]
  | .pcomp a => asmLine "PCOMP" [asmReg "PT" a]
  | .pdecomp d => asmLine "PDECOMP" [asmReg "PT" d]

end Sys2Proof
end

