-- ==== Sys2Proof/Config.lean ====
section
/-! DEFINITION. The implementation parameters of R8: the sizes the hardware fixes, and BASE, which the platform fixes. -/

namespace Sys2Proof.Config

/-- WINDOW_BYTES (R8). -/
abbrev windowBytes : Nat := 0x2000

/-- REG_BYTES (R8): width in bytes of a scalar, curve or coordinate register. -/
abbrev regBytes : Nat := 64

/-- MAX_CW (R8): the largest coordinate_width the core accepts. -/
abbrev maxCw : Nat := 64

/-- NS (R8): number of scalar registers. -/
abbrev numScalars : Nat := 16

/-- NP (R8): number of point registers. -/
abbrev numPoints : Nat := 16

/-- BUF_BYTES (R8): size of the byte buffer. -/
abbrev bufBytes : Nat := 128

/-- The open part of BASE (R8): which 0x2000-byte block of the platform's address space holds the window.
It has no body: nothing can be proved about where the platform puts the core (log entry 3). -/
opaque baseBlock : Nat

/-- BASE (R8), a multiple of 0x2000. -/
def base : Nat := windowBytes * baseBlock

/-- The effective bus address of a window offset, BASE + off (R61). -/
def busAddress (off : Offset) : Nat := base + off.toNat

/-- The window offset a bus address selects, or none for an address outside the window, which never
reaches the core (R54: the platform decodes it). -/
def offsetOf (addr : Nat) : Option Offset :=
  if base ≤ addr ∧ addr < base + windowBytes then some (BitVec.ofNat 13 (addr - base)) else none

end Sys2Proof.Config
end

