-- ==== Sys2Proof/Machine/State.lean ====
section
/-! DEFINITION. The state of the ECDSA core as plain data (10_state.md R20 to R41), with the events that reach it and
the response of its bus port, and the state after reset. -/

namespace Sys2Proof.Machine

/-- BUF as a list of (index, byte) pairs in canonical form: indices strictly rising, no entry equal to 0,
which is what an unlisted byte reads as (its reset content, R41). -/
abbrev Memory := List Host.Cell

/-- The canonical form of BUF, whose indices are below BUF_BYTES = 128 (R36). -/
abbrev Memory.wf (m : Memory) : Prop :=
  m.Pairwise (fun c d => c.1 < d.1) ∧ ∀ c ∈ m, c.1 < Config.bufBytes ∧ c.2 ≠ 0#8

/-- The kinds of error a command can complete with (R134). -/
inductive ErrorKind where
  /-- Code 1. -/
  | invalidKey
  /-- Code 2. -/
  | arithmetic
  /-- Code 3. -/
  | encoding
  /-- Code 4. -/
  | decoding
  /-- Code 5. -/
  | randomSource
  /-- Code 6. -/
  | illegalCommand
  /-- Code 7. -/
  | curveConfig
  /-- Code 8. -/
  | unsupportedCurve
deriving DecidableEq, Repr

/-- An answer on the random-number port: one byte, or a failure indication (R39). -/
inductive RngAnswer where
  | byte (v : BitVec 8)
  | failure
deriving DecidableEq, Repr

/-- The hidden progress of the command in flight (R38, R154). -/
inductive Progress where
  /-- Accepted; nothing evaluated yet. -/
  | ready
  /-- A port request is raised; `drawn` are the bytes of the partial random draw, first byte first. -/
  | waiting (drawn : List (BitVec 8))
  /-- The request has been answered; the engine has not used the answer yet. -/
  | answered (drawn : List (BitVec 8)) (answer : RngAnswer)
deriving DecidableEq, Repr

/-- The engine state (R38): IDLE, or BUSY with the word latched in CMD. -/
inductive Engine where
  | idle
  | busy (p : Progress)
deriving DecidableEq, Repr

/-- One point register: TAG.INF, X and Y (R34). -/
structure PointReg where
  inf : Bool
  x : BitVec 512
  y : BitVec 512
deriving DecidableEq, Repr

/-- The seven curve registers: CURVE_CW (R29) and CURVE_P to CURVE_GY (R30). -/
structure CurveRegs where
  cw : BitVec 8
  p : BitVec 512
  n : BitVec 512
  a : BitVec 512
  b : BitVec 512
  gx : BitVec 512
  gy : BitVec 512
deriving DecidableEq, Repr

/-- The width of a host access (R51): only `w32` is performed. -/
inductive AccessWidth where
  | w8
  | w16
  | w32
  | w64
  | burst
deriving DecidableEq, Repr

/-- What can happen next at the core (log entry 1): an access of the host, an answer of the random source,
a level on the reset input, or a turn of the engine. -/
inductive Event where
  /-- The host reads at an offset of the window. -/
  | read (off : BitVec 13) (width : AccessWidth)
  /-- The host writes `v` at an offset of the window. -/
  | write (off : BitVec 13) (width : AccessWidth) (v : BitVec 32)
  /-- The random source answers the request that is raised. -/
  | rng (answer : RngAnswer)
  /-- The random source answers a request that a reset has withdrawn, whatever the engine does by then (R149,
  log entry 20). -/
  | rngWithdrawn (answer : RngAnswer)
  /-- The platform drives the reset input to a level (R149). -/
  | rst (level : Bool)
  /-- The engine takes its turn (R154). -/
  | engine
deriving DecidableEq, Repr

/-- What the bus port answers to an access (R51). -/
inductive BusResponse where
  /-- A read that returns a word. -/
  | data (v : BitVec 32)
  /-- A write that was taken: performed, ignored or dropped as the rules say. -/
  | ack
  /-- The bus error response; a read returns no data. -/
  | busError
deriving DecidableEq, Repr

/-- The state of the core. BUSY, RNGWAIT, IRQ, the port request and `irq` are views of these fields
(Machine/Flags.lean); ID and VERSION are constants (R27). -/
structure State where
  /-- CMD, the last accepted command word (R23); while BUSY, the word in flight. -/
  cmd : BitVec 32
  /-- The engine state and the hidden progress (R38). -/
  engine : Engine
  /-- STATUS.DONE (R24). -/
  done : Bool
  /-- STATUS.ERR (R24). -/
  err : Bool
  /-- STATUS.RESULT (R24, R37). -/
  result : Bool
  /-- STATUS.CMDOVR (R24, R156). -/
  cmdovr : Bool
  /-- STATUS.WBUSY (R24, R157). -/
  wbusy : Bool
  /-- ERRCODE[3:0] (R25). -/
  errcode : BitVec 4
  /-- IRQ_EN.DONE_IE (R26). -/
  irqEn : Bool
  /-- BUFLEN[7:0] (R28). -/
  buflen : BitVec 8
  /-- CURVE_CW and the six curve parameter registers (R29, R30). -/
  curve : CurveRegs
  /-- S0 to S15 (R32). -/
  sreg : Vector (BitVec 512) 16
  /-- PT0 to PT15 (R34). -/
  pt : Vector PointReg 16
  /-- BUF (R36). -/
  buf : Memory
  /-- The level of the reset input (R149). -/
  rst : Bool
  /-- The model's own: the events that reach the core, oldest first (log entry 1). -/
  inputs : List Event
  /-- The model's own: the bus port's answer in the last step, none if it was no access (log entry 5). -/
  response : Option BusResponse
deriving DecidableEq, Repr

/-- The ways a step can stop the machine: there is none. An error of a command is a completion with a code
(R134, R135, R138), and a bad access is answered with a bus error response (R51). Safe. -/
inductive Fault : Type
deriving DecidableEq, Repr

/-- The ways a step can be refused. -/
inductive Refusal where
  /-- Raised by an arm of exec for a command that has no meaning yet; no arm raises it. Safe. -/
  | notModelled (mnemonic : String)
deriving DecidableEq, Repr

/-- The state after reset (R41, R149, R150), with the reset input released and no event pending. -/
def State.reset : State where
  cmd := 0
  engine := .idle
  done := false
  err := false
  result := false
  cmdovr := false
  wbusy := false
  errcode := 0
  irqEn := false
  buflen := 0
  curve := { cw := 0, p := 0, n := 0, a := 0, b := 0, gx := 0, gy := 0 }
  sreg := Vector.replicate 16 0
  pt := Vector.replicate 16 { inf := false, x := 0, y := 0 }
  buf := []
  rst := false
  inputs := []
  response := none

end Sys2Proof.Machine
end

