-- ==== Sys2Proof/Machine/Ops.lean ====
section
/-! DEFINITION. The named operations over the registers and BUF, and the two ends of a command (R133 to R136):
accept, completion without error, completion with an error (the one way an error is taken), and the port request. -/

namespace Sys2Proof.Machine

/-- A point value: INF or AFF(x, y) with integers x, y (R14). -/
inductive Point where
  | inf
  | aff (x y : Nat)
deriving DecidableEq, Repr

/-- One write of a command to a destination its rule names (R135). -/
inductive Write where
  /-- `S[d] <- v`. -/
  | scalar (d : SReg) (v : Nat)
  /-- `PT[d] <- pt`. -/
  | point (d : PReg) (pt : Point)
  /-- `BUF[0 .. L-1] <- bytes ; BUFLEN <- L`. -/
  | buffer (bytes : List Byte)
  /-- The seven curve registers (CURVE_SEL). -/
  | curve (c : CurveRegs)
deriving DecidableEq, Repr

/-- How one evaluation of the engine ends (R16, R133): normally with writes W and a boolean b, by `raise E`,
or at a request for a random byte that follows the bytes `drawn`. -/
inductive Effect where
  | ok (writes : List Write) (result : Bool)
  | error (e : ErrorKind)
  | wait (drawn : List Byte)
deriving DecidableEq, Repr

/-! ### BUF -/

/-- Put byte `v` at index `a`, keeping the list canonical: writing 0 removes the entry. -/
def Memory.write : Memory → Nat → Byte → Memory
  | [], a, v => if v = 0#8 then [] else [(a, v)]
  | (b, w) :: rest, a, v =>
    if a < b then (if v = 0#8 then (b, w) :: rest else (a, v) :: (b, w) :: rest)
    else if a = b then (if v = 0#8 then rest else (a, v) :: rest)
    else (b, w) :: Memory.write rest a v

/-- Byte `a` of BUF; an unlisted byte reads 0, its reset content (R41). -/
def Memory.read : Memory → Nat → Byte
  | [], _ => 0#8
  | (b, w) :: rest, a => if a = b then w else Memory.read rest a

/-- Write a byte string from index `a` on. -/
def Memory.writeBytes : Memory → Nat → List Byte → Memory
  | m, _, [] => m
  | m, a, v :: vs => Memory.writeBytes (Memory.write m a v) (a + 1) vs

/-- The bytes at indices `a` to `a + len - 1`. -/
def Memory.readBytes (m : Memory) (a : Nat) : Nat → List Byte
  | 0 => []
  | len + 1 => Memory.read m a :: Memory.readBytes m (a + 1) len

/-! ### Registers -/

/-- `S[i]` as an integer (R15, R32). -/
def State.readS (s : State) (i : SReg) : Nat := (s.sreg.get i).toNat

/-- `S[i] <- v` (R15), v narrowed to the 512-bit register. -/
def State.writeS (s : State) (i : SReg) (v : Nat) : State :=
  { s with sreg := s.sreg.set i.val (BitVec.ofNat 512 v) }

/-- The point value a point register holds: INF when TAG.INF = 1, whatever X and Y are (R34). -/
def pointOf (r : PointReg) : Point :=
  if r.inf then .inf else .aff r.x.toNat r.y.toNat

/-- The contents a written point value leaves: all three fields, with X = Y = 0 for INF (R35). -/
def pointRegOf : Point → PointReg
  | .inf => { inf := true, x := 0, y := 0 }
  | .aff x y => { inf := false, x := BitVec.ofNat 512 x, y := BitVec.ofNat 512 y }

/-- `PT[i]` as a point value (R34). -/
def State.readPT (s : State) (i : PReg) : Point := pointOf (s.pt.get i)

/-- `PT[i] <- pt` (R35). -/
def State.writePT (s : State) (i : PReg) (pt : Point) : State :=
  { s with pt := s.pt.set i.val (pointRegOf pt) }

/-! ### Accept, request, completion -/

/-- Apply one write (R135). -/
def applyWrite (s : State) : Write → State
  | .scalar d v => s.writeS d v
  | .point d pt => s.writePT d pt
  | .buffer bytes =>
    { s with buf := Memory.writeBytes s.buf 0 bytes, buflen := BitVec.ofNat 8 bytes.length }
  | .curve c => { s with curve := c }

/-- Apply every write of W in turn. -/
def applyWrites (ws : List Write) (s : State) : State := ws.foldl applyWrite s

/-- `accept(w)` up to the evaluation (R133). -/
def accept (w : Word) (s : State) : State :=
  { s with cmd := w, engine := .busy .ready, done := false, err := false, result := false, errcode := 0 }

/-- ERRCODE's value for an error kind (R134). -/
def ErrorKind.code : ErrorKind → BitVec 4
  | .invalidKey => 1
  | .arithmetic => 2
  | .encoding => 3
  | .decoding => 4
  | .randomSource => 5
  | .illegalCommand => 6
  | .curveConfig => 7
  | .unsupportedCurve => 8

/-- `complete_ok(W, b)` (R135): every write of W, RESULT, and the completion bits, in one step. -/
def completeOk (ws : List Write) (b : Bool) (s : State) : State :=
  { applyWrites ws s with engine := .idle, done := true, err := false, result := b, errcode := 0 }

/-- `complete_error(E)` (R135): the one way an error is taken; no write of W happens. -/
def completeError (e : ErrorKind) (s : State) : State :=
  { s with engine := .idle, done := true, err := true, result := false, errcode := e.code }

/-- Raise the request for the next random byte and wait (R39, R154). -/
def raiseRequest (drawn : List Byte) (s : State) : State :=
  { s with engine := .busy (.waiting drawn) }

/-- Carry out how an evaluation ended (R133). -/
def commit (e : Effect) (s : State) : State :=
  match e with
  | .ok ws b => completeOk ws b s
  | .error e => completeError e s
  | .wait drawn => raiseRequest drawn s

end Sys2Proof.Machine
end

