-- ==== Sys2Proof/Machine/Flags.lean ====
section
/-! DEFINITION. The STATUS bits (R24): the views of the engine, the word a read returns, write-1-to-clear, and the outputs
irq (R40, R140) and the random-number port request (R39). -/

namespace Sys2Proof.Machine

/-- STATUS.BUSY: the engine is not IDLE (R24, R38). -/
def State.busy (s : State) : Bool :=
  match s.engine with
  | .idle => false
  | .busy _ => true

/-- STATUS.RNGWAIT: the engine waits on the random-number port (R24, R39). -/
def State.rngwait (s : State) : Bool :=
  match s.engine with
  | .busy (.waiting _) => true
  | _ => false

/-- The random-number port request (R39): raised exactly while the engine waits (R163). -/
def State.rngRequest (s : State) : Bool := s.rngwait

/-- STATUS.IRQ, `DONE AND IRQ_EN.DONE_IE` at all times (R24). -/
def State.irqBit (s : State) : Bool := s.done && s.irqEn

/-- The `irq` output (R40, R140). -/
def State.irq (s : State) : Bool := s.irqBit

/-- One bit at a place of a bus word. -/
def bitAt (b : Bool) (i : Nat) : Word := (BitVec.ofBool b).setWidth 32 <<< i

/-- The word a read of STATUS returns (R24); bits [31:8] are 0. -/
def State.statusWord (s : State) : Word :=
  bitAt s.busy 0 ||| bitAt s.done 1 ||| bitAt s.err 2 ||| bitAt s.result 3 ||| bitAt s.cmdovr 4
    ||| bitAt s.wbusy 5 ||| bitAt s.rngwait 6 ||| bitAt s.irqBit 7

/-- A host write to STATUS: a 1 clears DONE, ERR, CMDOVR or WBUSY; the other bits are read-only (R24). -/
def State.writeStatus (s : State) (v : Word) : State :=
  { s with
    done := s.done && !v.getLsbD 1
    err := s.err && !v.getLsbD 2
    cmdovr := s.cmdovr && !v.getLsbD 4
    wbusy := s.wbusy && !v.getLsbD 5 }

end Sys2Proof.Machine
end

