-- ==== Sys2Proof/Machine/Operands.lean ====
section
/-! DEFINITION. What commands read: the curve parameters, curve_ok (R31), the modulus of a MOD command (R95), the
generator, byte strings and their big-endian values (R13), and the frame's checks of curve_ok (R133). -/

namespace Sys2Proof.Machine

/-- `CW` (R9, R15). -/
def State.cw (s : State) : Nat := s.curve.cw.toNat
/-- `C.p` (R15). -/
def State.p (s : State) : Nat := s.curve.p.toNat
/-- `C.n` (R15). -/
def State.n (s : State) : Nat := s.curve.n.toNat
/-- `C.a` (R15). -/
def State.a (s : State) : Nat := s.curve.a.toNat
/-- `C.b` (R15). -/
def State.b (s : State) : Nat := s.curve.b.toNat

/-- `G = AFF(C.gx, C.gy)` (R15). -/
def State.generator (s : State) : Point := .aff s.curve.gx.toNat s.curve.gy.toNat

/-- `curve_ok` (R31). -/
def State.curveOk (s : State) : Bool :=
  decide (1 ≤ s.cw) && decide (s.cw ≤ Config.maxCw) && decide (2 ≤ s.p) && decide (s.p < 2 ^ (8 * s.cw))
    && decide (2 ≤ s.n)

/-- The modulus a MOD command's M bit selects (R95). -/
def State.modulus (s : State) : Modulus → Nat
  | .p => s.p
  | .n => s.n

/-- `BE(B)`, the big-endian value of a byte string (R13). -/
def bytesValue (bs : List Byte) : Nat := bs.foldl (fun acc v => acc * 256 + v.toNat) 0

/-- `BE_N(v)`, the N-byte big-endian string of `v` (R13). -/
def bytesOf : Nat → Nat → List Byte
  | 0, _ => []
  | len + 1, v => bytesOf len (v / 256) ++ [BitVec.ofNat 8 v]

/-- The frame of a constructive command: curve_ok first, then its evaluation (R31, R133, R137). -/
def constructive (s : State) (e : Effect) : Effect :=
  if s.curveOk then e else .error .curveConfig

/-- The frame of a validation command: RESULT = 0 without error when curve_ok is false (R31, R133). -/
def predicate (s : State) (b : Bool) : Effect :=
  if s.curveOk then .ok [] b else .ok [] false

/-- How an evaluation that writes one value, or raises, ends (R133). -/
def writing {α : Type} (w : α → Write) : Except ErrorKind α → Effect
  | .ok v => .ok [w v] false
  | .error e => .error e

/-- The progress of the command in flight (R38); an idle engine has made none (log entry 13). -/
def State.progress (s : State) : Progress :=
  match s.engine with
  | .idle => .ready
  | .busy p => p

end Sys2Proof.Machine
end

