-- ==== Sys2Proof/Machine/Bus.lean ====
section
/-! DEFINITION. The register window as the host sees it (10_state.md R21 to R36, 20_memory.md), with the rules for a BUSY
engine (R156 to R158), the bus port (R51), the random-number port (R39, R163), the reset input (R149) and the host's
notation (R77). -/

namespace Sys2Proof.Machine

/-- The six curve parameter registers (R30). -/
inductive CurveName where
  | p
  | n
  | a
  | b
  | gx
  | gy
deriving DecidableEq, Repr

/-- What an aligned offset names in the window (R21); `k` counts the words of a register or of BUF. -/
inductive Target where
  | id
  | version
  | cmd
  | status
  | errcode
  | irqEn
  | buflen
  | curveCw
  | curve (name : CurveName) (k : Fin 16)
  | scalar (i : SReg) (k : Fin 16)
  | buf (k : Fin 32)
  | pointX (i : PReg) (k : Fin 16)
  | pointY (i : PReg) (k : Fin 16)
  | pointTag (i : PReg)
  | reserved
deriving DecidableEq, Repr

/-- The curve register in block `j` of 64 bytes from 0x0100 on (R21). -/
def curveBlock : Nat → CurveName
  | 0 => .p
  | 1 => .n
  | 2 => .a
  | 3 => .b
  | 4 => .gx
  | _ => .gy

/-- The word of a point register's 0x100 bytes (R34). -/
def pointTarget (i : PReg) (within : Nat) : Target :=
  if within < 0x40 then .pointX i (Fin.ofNat 16 (within / 4))
  else if within < 0x80 then .pointY i (Fin.ofNat 16 (within / 4 - 16))
  else if within = 0x80 then .pointTag i
  else .reserved

/-- The control and status registers (R21). -/
def controlTarget (off : Nat) : Target :=
  match off with
  | 0x00 => .id
  | 0x04 => .version
  | 0x08 => .cmd
  | 0x0C => .status
  | 0x10 => .errcode
  | 0x14 => .irqEn
  | 0x18 => .buflen
  | 0x1C => .curveCw
  | _ => .reserved

/-- The register window map of R21, for an offset that is a multiple of 4. -/
def target (off : Nat) : Target :=
  if off < 0x0100 then controlTarget off
  else if off < 0x0280 then .curve (curveBlock ((off - 0x0100) / 0x40)) (Fin.ofNat 16 (off % 0x40 / 4))
  else if off < 0x0400 then .reserved
  else if off < 0x0800 then .scalar (Fin.ofNat 16 ((off - 0x0400) / 0x40)) (Fin.ofNat 16 (off % 0x40 / 4))
  else if off < 0x0880 then .buf (Fin.ofNat 32 ((off - 0x0800) / 4))
  else if off < 0x1000 then .reserved
  else pointTarget (Fin.ofNat 16 ((off - 0x1000) / 0x100)) (off % 0x100)

/-- The target is one of the offsets from 0x0018 up, which are held while BUSY (R157, R158). -/
def Target.held : Target → Bool
  | .id | .version | .cmd | .status | .errcode | .irqEn => false
  | .buflen | .curveCw | .curve _ _ | .scalar _ _ | .buf _ => true
  | .pointX _ _ | .pointY _ _ | .pointTag _ | .reserved => true

/-- Where word `k` of a 512-bit register stands in it: word 0 is the most significant (R33). -/
def wordShift (k : Fin 16) : Nat := 32 * (15 - k.val)

/-- Word `k` of a 512-bit register (R33). -/
def getWord (r : Reg) (k : Fin 16) : Word := r.extractLsb' (wordShift k) 32

/-- A register with word `k` replaced and every other byte kept (R33). -/
def putWord (r : Reg) (k : Fin 16) (v : Word) : Reg :=
  (r &&& ~~~((BitVec.allOnes 32).setWidth 512 <<< wordShift k)) ||| (v.setWidth 512 <<< wordShift k)

/-- The word of BUF at 0x0800 + 4k: BUF[4k] in bits [31:24] down to BUF[4k+3] in bits [7:0] (R36). -/
def getBufWord (m : Memory) (k : Fin 32) : Word :=
  Memory.read m (4 * k.val) ++ Memory.read m (4 * k.val + 1) ++ Memory.read m (4 * k.val + 2)
    ++ Memory.read m (4 * k.val + 3)

/-- BUF with the four bytes of that word replaced (R36). -/
def putBufWord (m : Memory) (k : Fin 32) (v : Word) : Memory :=
  Memory.writeBytes m (4 * k.val)
    [v.extractLsb' 24 8, v.extractLsb' 16 8, v.extractLsb' 8 8, v.extractLsb' 0 8]

/-- A curve parameter register (R30). -/
def CurveRegs.get (c : CurveRegs) : CurveName → Reg
  | .p => c.p
  | .n => c.n
  | .a => c.a
  | .b => c.b
  | .gx => c.gx
  | .gy => c.gy

/-- The curve registers with one replaced (R30). -/
def CurveRegs.put (c : CurveRegs) (name : CurveName) (v : Reg) : CurveRegs :=
  match name with
  | .p => { c with p := v }
  | .n => { c with n := v }
  | .a => { c with a := v }
  | .b => { c with b := v }
  | .gx => { c with gx := v }
  | .gy => { c with gy := v }

/-- ID (R27): the ASCII bytes of "ECDS". -/
def idWord : Word := 0x45434453

/-- VERSION (R27). -/
def versionWord : Word := 0x00000001

/-- The word a register shows when it may be read (R22 to R36). -/
def State.readTarget (s : State) : Target → Word
  | .id => idWord
  | .version => versionWord
  | .cmd => s.cmd
  | .status => s.statusWord
  | .errcode => s.errcode.setWidth 32
  | .irqEn => bitAt s.irqEn 0
  | .buflen => s.buflen.setWidth 32
  | .curveCw => s.curve.cw.setWidth 32
  | .curve name k => getWord (s.curve.get name) k
  | .scalar i k => getWord (s.sreg.get i) k
  | .buf k => getBufWord s.buf k
  | .pointX i k => getWord (s.pt.get i).x k
  | .pointY i k => getWord (s.pt.get i).y k
  | .pointTag i => bitAt (s.pt.get i).inf 0
  | .reserved => 0

/-- The write of an operand register by the host, the engine being IDLE (R28 to R36); reserved bits and
offsets are ignored (R22). -/
def State.writeOperand (s : State) (t : Target) (v : Word) : State :=
  match t with
  | .buflen => { s with buflen := v.extractLsb' 0 8 }
  | .curveCw => { s with curve := { s.curve with cw := v.extractLsb' 0 8 } }
  | .curve name k => { s with curve := s.curve.put name (putWord (s.curve.get name) k v) }
  | .scalar i k => { s with sreg := s.sreg.set i.val (putWord (s.sreg.get i) k v) }
  | .buf k => { s with buf := putBufWord s.buf k v }
  | .pointX i k => { s with pt := s.pt.set i.val { s.pt.get i with x := putWord (s.pt.get i).x k v } }
  | .pointY i k => { s with pt := s.pt.set i.val { s.pt.get i with y := putWord (s.pt.get i).y k v } }
  | .pointTag i => { s with pt := s.pt.set i.val { s.pt.get i with inf := v.getLsbD 0 } }
  | .id | .version | .cmd | .status | .errcode | .irqEn | .reserved => s

/-- A 32-bit read of the window: while BUSY every held offset reads 0 (R158). -/
def State.readWindow (s : State) (off : Nat) : Word :=
  if s.busy && (target off).held then 0 else s.readTarget (target off)

/-- A write to a held offset while BUSY: dropped, with WBUSY set unless the offset is reserved (R157). -/
def State.dropWrite (s : State) (t : Target) : State :=
  if t = .reserved then s else { s with wbusy := true }

/-- A write to CMD: accepted when IDLE (R133), else dropped with CMDOVR set (R156). -/
def State.writeCmd (s : State) (v : Word) : State :=
  if s.busy then { s with cmdovr := true } else accept v s

/-- A 32-bit write of the window (R22 to R36, R156, R157). -/
def State.writeWindow (s : State) (off : Nat) (v : Word) : State :=
  match target off with
  | .id | .version | .errcode => s
  | .cmd => s.writeCmd v
  | .status => s.writeStatus v
  | .irqEn => { s with irqEn := v.getLsbD 0 }
  | t => if s.busy then s.dropWrite t else s.writeOperand t v

/-- The access is one the core performs: 32 bits at a multiple of 4 (R51). -/
def legalAccess (off : Offset) (width : AccessWidth) : Bool :=
  decide (width = .w32) && decide (off.toNat % 4 = 0)

/-- A host access: `perform` when the core performs it, else a bus error response and no other effect, at any
level of the reset input (R51, log entries 4 and 6). -/
def hostAccess (off : Offset) (width : AccessWidth) (perform : State → State) (s : State) : State :=
  if legalAccess off width then perform s else { s with response := some .busError }

/-- A performed read (R158): while rst is asserted it returns 0 (R149). -/
def performRead (off : Offset) (s : State) : State :=
  { s with response := some (.data (if s.rst then 0 else s.readWindow off.toNat)) }

/-- A performed write (R156, R157): while rst is asserted it has no effect (R149). The answer `ack` is log
entry 5. -/
def performWrite (off : Offset) (v : Word) (s : State) : State :=
  if s.rst then { s with response := some .ack } else { s.writeWindow off.toNat v with response := some .ack }

/-- A host read (R51, R149, R158). -/
def hostRead (off : Offset) (width : AccessWidth) (s : State) : State :=
  hostAccess off width (performRead off) s

/-- A host write (R51, R149, R156, R157). -/
def hostWrite (off : Offset) (width : AccessWidth) (v : Word) (s : State) : State :=
  hostAccess off width (performWrite off v) s

/-- An answer to a request that a reset has withdrawn is ignored (R149), also when a later command has raised a
request by then. The spec gives requests no identity: that the event says which request it answers is the model's
choice (log entry 20). -/
def rngWithdrawnAnswer (_ : RngAnswer) (s : State) : State := s

/-- An answer of the random source to the request that is raised (R39, R163): taken by the command that waits for
it, and ignored when none is raised (log entry 8). An answer to a withdrawn request is `rngWithdrawnAnswer`'s, never
this one's (log entry 20). -/
def rngAnswer (answer : RngAnswer) (s : State) : State :=
  match s.engine with
  | .busy (.waiting drawn) => { s with engine := .busy (.answered drawn answer) }
  | _ => s

/-- The reset input driven to a level (R149): while it is asserted and on its release every piece of state of
the core takes its reset value; the events still to come stay. -/
def driveReset (level : Bool) (s : State) : State :=
  if level || s.rst then { State.reset with rst := level, inputs := s.inputs } else s

/-! ### Host notation (R77) -/

/-- `wr OFF, V`. -/
def hostWr (off : Offset) (v : Word) : Event := .write off .w32 v

/-- `rd OFF`. -/
def hostRd (off : Offset) : Event := .read off .w32

/-- The writes of words `k` to 15 of `w512`. -/
def hostW512From (off : Offset) (v : Reg) : Nat → Nat → List Event
  | _, 0 => []
  | k, more + 1 =>
    hostWr (off + BitVec.ofNat 13 (4 * k)) (getWord v (Fin.ofNat 16 k)) :: hostW512From off v (k + 1) more

/-- `w512 OFF, V`: sixteen word writes, the most significant word first. -/
def hostW512 (off : Offset) (v : Reg) : List Event := hostW512From off v 0 16

/-- `issue CMDTEXT`. -/
def hostIssue (i : Instr) : Event := hostWr 0x0008 (encode i)

end Sys2Proof.Machine
end

