-- ==== Sys2Proof/Machine/Modular.lean ====
section
/-! DEFINITION. The modular units (R94) and the commands MODADD, MODSUB, MODMUL and MODINV (R96 to R99). -/

namespace Sys2Proof.Machine

/-- `addm(u, v, m) = (u + v) mod m` (R94). -/
def addm (u v m : Nat) : Nat := (u + v) % m

/-- `subm(u, v, m) = (u - v) mod m`, floor modulo (R94, R11). -/
def subm (u v m : Nat) : Nat := (((u : Int) - (v : Int)) % (m : Int)).toNat

/-- `mulm(u, v, m) = (u * v) mod m` (R94). -/
def mulm (u v m : Nat) : Nat := (u * v) % m

/-- The extended Euclidean algorithm (R12): remainders `r0`, `r1` and the factors `t0`, `t1` of the argument
they are congruent to; each turn lowers `r1`, so `r1` turns are enough. -/
def euclid : Nat → Nat → Nat → Int → Int → Int
  | 0, _, _, t0, _ => t0
  | fuel + 1, r0, r1, t0, t1 =>
    if r1 = 0 then t0 else euclid fuel r1 (r0 % r1) t1 (t0 - (r0 / r1 : Nat) * t1)

/-- `inv(a, m)` for `gcd(a mod m, m) = 1`: the x in [1, m) with (a * x) mod m = 1 (R12). -/
def inverse (a m : Nat) : Nat := (euclid m m (a % m) 0 1 % (m : Int)).toNat

/-- `invm(u, m)`: fails with ArithmeticError when gcd(u mod m, m) is not 1 (R94, R99). -/
def invm (u m : Nat) : Except ErrorKind Nat :=
  if Nat.gcd (u % m) m ≠ 1 then .error .arithmetic else .ok (inverse u m)

/-- MODADD.x Sd, Sa, Sb (R96). -/
def execModadd (d a b : SReg) (m : Modulus) (s : State) : Host.Outcome State Fault Refusal :=
  .next (commit (constructive s (.ok [.scalar d (addm (s.readS a) (s.readS b) (s.modulus m))] false)) s)

/-- MODSUB.x Sd, Sa, Sb (R97). -/
def execModsub (d a b : SReg) (m : Modulus) (s : State) : Host.Outcome State Fault Refusal :=
  .next (commit (constructive s (.ok [.scalar d (subm (s.readS a) (s.readS b) (s.modulus m))] false)) s)

/-- MODMUL.x Sd, Sa, Sb (R98). -/
def execModmul (d a b : SReg) (m : Modulus) (s : State) : Host.Outcome State Fault Refusal :=
  .next (commit (constructive s (.ok [.scalar d (mulm (s.readS a) (s.readS b) (s.modulus m))] false)) s)

/-- MODINV.x Sd, Sa (R99). -/
def execModinv (d a : SReg) (m : Modulus) (s : State) : Host.Outcome State Fault Refusal :=
  .next (commit (constructive s (writing (.scalar d) (invm (s.readS a) (s.modulus m)))) s)

end Sys2Proof.Machine
end

