-- ==== Sys2Proof/Machine/Curve.lean ====
section
/-! DEFINITION. The point units padd, pdbl and psmul (R101 to R104) and the commands PADD, PDBL, PSMUL and PBMUL
(R105 to R108). -/

namespace Sys2Proof.Machine

/-- `bitlen(v)`, the least L with v < 2^L (R10). -/
def bitlen (v : Nat) : Nat := if v = 0 then 0 else Nat.log2 v + 1

/-- `pdbl(P)`, the tangent-line doubling law for the field prime `p` and coefficient `a` (R103). -/
def pdbl (p a : Nat) : Point → Except ErrorKind Point
  | .inf => .ok .inf
  | .aff x y =>
    let x1 := x % p
    let y1 := y % p
    if y1 = 0 then .ok .inf
    else
      match invm (addm y1 y1 p) p with
      | .error e => .error e
      | .ok i =>
        let lam := mulm (addm (mulm 3 (mulm x1 x1 p) p) a p) i p
        let x3 := subm (mulm lam lam p) (addm x1 x1 p) p
        let y3 := subm (mulm lam (subm x1 x3 p) p) y1 p
        .ok (.aff x3 y3)

/-- `padd(P, Q)`, the group law (R102). -/
def padd (p a : Nat) : Point → Point → Except ErrorKind Point
  | .inf, q => .ok q
  | .aff x y, .inf => .ok (.aff x y)
  | .aff px py, .aff qx qy =>
    let x1 := px % p
    let y1 := py % p
    let x2 := qx % p
    let y2 := qy % p
    if x1 = x2 ∧ y1 = subm 0 y2 p then .ok .inf
    else if x1 = x2 ∧ y1 = y2 then pdbl p a (.aff x1 y1)
    else
      match invm (subm x2 x1 p) p with
      | .error e => .error e
      | .ok i =>
        let lam := mulm (subm y2 y1 p) i p
        let x3 := subm (subm (mulm lam lam p) x1 p) x2 p
        let y3 := subm (mulm lam (subm x1 x3 p) p) y1 p
        .ok (.aff x3 y3)

/-- One turn of double-and-add for a bit of k (R104). -/
def psmulBit (p a : Nat) (base : Point) (bit : Bool) (acc : Point) : Except ErrorKind Point :=
  match pdbl p a acc with
  | .error e => .error e
  | .ok acc => if bit then padd p a acc base else .ok acc

/-- The loop of R104 over bits `i - 1` down to 0 of k. -/
def psmulLoop (p a : Nat) (base : Point) (k : Nat) : Nat → Point → Except ErrorKind Point
  | 0, acc => .ok acc
  | i + 1, acc =>
    match psmulBit p a base (k.testBit i) acc with
    | .error e => .error e
    | .ok acc => psmulLoop p a base k i acc

/-- `psmul(P, k)`, the double-and-add scalar multiplier (R104). -/
def psmul (p a : Nat) (base : Point) (k : Nat) : Except ErrorKind Point :=
  psmulLoop p a base k (bitlen k) .inf

/-- PADD PTd, PTa, PTb (R105). -/
def execPadd (d a b : PReg) (s : State) : Host.Outcome State Fault Refusal :=
  .next (commit (constructive s (writing (.point d) (padd s.p s.a (s.readPT a) (s.readPT b)))) s)

/-- PDBL PTd, PTa (R106). -/
def execPdbl (d a : PReg) (s : State) : Host.Outcome State Fault Refusal :=
  .next (commit (constructive s (writing (.point d) (pdbl s.p s.a (s.readPT a)))) s)

/-- PSMUL PTd, PTa, Sk (R107). -/
def execPsmul (d a : PReg) (k : SReg) (s : State) : Host.Outcome State Fault Refusal :=
  .next (commit (constructive s (writing (.point d) (psmul s.p s.a (s.readPT a) (s.readS k)))) s)

/-- PBMUL PTd, Sk (R108). -/
def execPbmul (d : PReg) (k : SReg) (s : State) : Host.Outcome State Fault Refusal :=
  .next (commit (constructive s (writing (.point d) (psmul s.p s.a s.generator (s.readS k)))) s)

end Sys2Proof.Machine
end

