-- ==== Sys2Proof/Machine/Validation.lean ====
section
/-! DEFINITION. The predicates of R111 to R113, the validation commands SCHK, PCHK and PKCHK (R114 to R116), the
rejection sampler (R117) and RSAMPLE (R118). -/

namespace Sys2Proof.Machine

/-- `valid_scalar(s)`: 0 < s < C.n (R111). -/
def State.validScalar (s : State) (v : Nat) : Bool := decide (0 < v) && decide (v < s.n)

/-- `on_curve(P)`: false for INF, else a congruence on the full integers (R112). -/
def State.onCurve (s : State) : Point → Bool
  | .inf => false
  | .aff x y =>
    decide (((y * y : Nat) - (x * x * x + s.a * x + s.b : Nat) : Int) % (s.p : Int) = 0)

/-- `pk_valid(P)` (R113). -/
def State.pkValid (s : State) : Point → Bool
  | .inf => false
  | .aff x y => decide (x < s.p) && decide (y < s.p) && s.onCurve (.aff x y)

/-- SCHK Sa (R114). -/
def execSchk (a : SReg) (s : State) : Host.Outcome State Fault Refusal :=
  .next (commit (predicate s (s.validScalar (s.readS a))) s)

/-- PCHK PTa (R115). -/
def execPchk (a : PReg) (s : State) : Host.Outcome State Fault Refusal :=
  .next (commit (predicate s (s.onCurve (s.readPT a))) s)

/-- PKCHK PTa (R116). -/
def execPkchk (a : PReg) (s : State) : Host.Outcome State Fault Refusal :=
  .next (commit (predicate s (s.pkValid (s.readPT a))) s)

/-- Where rsample stands when the engine takes a turn (R117): it needs the byte after `drawn`, it has a valid
scalar, or the port failed. -/
inductive Draw where
  | need (drawn : List Byte)
  | got (k : Nat)
  | failed
deriving DecidableEq, Repr

/-- rsample (R117), advanced by the port's answer: CW bytes, the first most significant; a draw that is no
valid scalar is discarded and CW fresh bytes are drawn. -/
def State.rsample (s : State) : Draw :=
  match s.progress with
  | .ready => .need []
  | .waiting drawn => .need drawn
  | .answered _ .failure => .failed
  | .answered drawn (.byte v) =>
    let draw := drawn ++ [v]
    if draw.length < s.cw then .need draw
    else if s.validScalar (bytesValue draw) then .got (bytesValue draw)
    else .need []

/-- RSAMPLE Sd (R118), one turn of the engine up to the next port request or completion. -/
def execRsample (d : SReg) (s : State) : Host.Outcome State Fault Refusal :=
  .next (commit (constructive s
    (match s.rsample with
     | .need drawn => .wait drawn
     | .got k => .ok [.scalar d k] false
     | .failed => .error .randomSource)) s)

end Sys2Proof.Machine
end

