-- ==== Sys2Proof/Machine/Codec.lean ====
section
/-! DEFINITION. The point codec: PENC (R127), PDEC (R128), PCOMP (R129) and PDECOMP (R131) with sqrtp (R130). -/

namespace Sys2Proof.Machine

/-- `base ^ e mod m` by squaring, over bits `i - 1` down to 0 of e. -/
def powModLoop (base e m : Nat) : Nat → Nat → Nat
  | 0, acc => acc
  | i + 1, acc =>
    powModLoop base e m i (if e.testBit i then acc * acc % m * base % m else acc * acc % m)

/-- `base ^ e mod m` (R130). -/
def powMod (base e m : Nat) : Nat := powModLoop base e m (bitlen e) (1 % m)

/-- `sqrtp(t)` for p ≡ 3 (mod 4): the checked root `t^((p+1)/4) mod p`, or none (R130). -/
def sqrtp (p t : Nat) : Option Nat :=
  let y := powMod t ((p + 1) / 4) p
  if y * y % p = t then some y else none

/-- The uncompressed encoding (R127). -/
def State.encodePoint (s : State) : Point → Except ErrorKind (List Byte)
  | .inf => .error .encoding
  | .aff x y =>
    if 2 ^ (8 * s.cw) ≤ x ∨ 2 ^ (8 * s.cw) ≤ y then .error .encoding
    else .ok (bytesOf s.cw x ++ bytesOf s.cw y)

/-- The uncompressed decoding of BUF (R128). -/
def State.decodePoint (s : State) : Except ErrorKind Point :=
  if s.buflen.toNat ≠ 2 * s.cw then .error .decoding
  else .ok (.aff (bytesValue (Memory.readBytes s.buf 0 s.cw)) (bytesValue (Memory.readBytes s.buf s.cw s.cw)))

/-- The compressed encoding (R129): the parity byte, then X. -/
def State.compress (s : State) (pt : Point) : Except ErrorKind (List Byte) :=
  match pt with
  | .inf => .error .invalidKey
  | .aff x y =>
    if s.pkValid (.aff x y) then .ok (BitVec.ofNat 8 (2 + y % 2) :: bytesOf s.cw x)
    else .error .invalidKey

/-- The last lines of R131: the root whose parity is `parity`. -/
def chooseRoot (p x y parity : Nat) : Except ErrorKind Point :=
  if y % 2 ≠ parity then (if y = 0 then .error .decoding else .ok (.aff x (p - y)))
  else .ok (.aff x y)

/-- The compressed decoding of BUF, its checks in the order of R131. -/
def State.decompress (s : State) : Except ErrorKind Point :=
  if s.buflen.toNat ≠ s.cw + 1 then .error .decoding
  else
    let t := (Memory.read s.buf 0).toNat
    if t ≠ 2 ∧ t ≠ 3 then .error .decoding
    else if s.p % 4 ≠ 3 then .error .unsupportedCurve
    else
      let x := bytesValue (Memory.readBytes s.buf 1 s.cw)
      if s.p ≤ x then .error .decoding
      else
        match sqrtp s.p ((x * x * x + s.a * x + s.b) % s.p) with
        | none => .error .decoding
        | some y => chooseRoot s.p x y (t - 2)

/-- PENC PTa (R127). -/
def execPenc (a : PReg) (s : State) : Host.Outcome State Fault Refusal :=
  .next (commit (constructive s (writing .buffer (s.encodePoint (s.readPT a)))) s)

/-- PDEC PTd (R128). -/
def execPdec (d : PReg) (s : State) : Host.Outcome State Fault Refusal :=
  .next (commit (constructive s (writing (.point d) s.decodePoint)) s)

/-- PCOMP PTa (R129). -/
def execPcomp (a : PReg) (s : State) : Host.Outcome State Fault Refusal :=
  .next (commit (constructive s (writing .buffer (s.compress (s.readPT a)))) s)

/-- PDECOMP PTd (R131). -/
def execPdecomp (d : PReg) (s : State) : Host.Outcome State Fault Refusal :=
  .next (commit (constructive s (writing (.point d) s.decompress)) s)

end Sys2Proof.Machine
end

