-- ==== Sys2Proof/Machine/Control.lean ====
section
/-! DEFINITION. The control commands NOP (R90) and CURVE_SEL (R91), with the preset constants of R92. -/

namespace Sys2Proof.Machine

/-- The preset table of R92. -/
def presetCurve : Preset → CurveRegs
  | .secp256r1 =>
    { cw := 32
      p := 0xFFFFFFFF00000001000000000000000000000000FFFFFFFFFFFFFFFFFFFFFFFF
      n := 0xFFFFFFFF00000000FFFFFFFFFFFFFFFFBCE6FAADA7179E84F3B9CAC2FC632551
      a := 0xFFFFFFFF00000001000000000000000000000000FFFFFFFFFFFFFFFFFFFFFFFC
      b := 0x5AC635D8AA3A93E7B3EBBD55769886BC651D06B0CC53B0F63BCE3C3E27D2604B
      gx := 0x6B17D1F2E12C4247F8BCE6E563A440F277037D812DEB33A0F4A13945D898C296
      gy := 0x4FE342E2FE1A7F9B8EE7EB4A7C0F9E162BCE33576B315ECECBB6406837BF51F5 }
  | .secp256k1 =>
    { cw := 32
      p := 0xFFFFFFFFFFFFFFFFFFFFFFFFFFFFFFFFFFFFFFFFFFFFFFFFFFFFFFFEFFFFFC2F
      n := 0xFFFFFFFFFFFFFFFFFFFFFFFFFFFFFFFEBAAEDCE6AF48A03BBFD25E8CD0364141
      a := 0
      b := 7
      gx := 0x79BE667EF9DCBBAC55A06295CE870B07029BFCDB2DCE28D959F2815B16F81798
      gy := 0x483ADA7726A3C4655DA4FBFC0E1108A8FD17B448A68554199C47D08FFB10D4B8 }

/-- NOP (R90): completes, whatever curve_ok is. -/
def execNop (s : State) : Host.Outcome State Fault Refusal :=
  .next (commit (.ok [] false) s)

/-- CURVE_SEL id (R91): writes all seven curve registers and does not check curve_ok. -/
def execCurveSel (id : Preset) (s : State) : Host.Outcome State Fault Refusal :=
  .next (commit (.ok [.curve (presetCurve id)] false) s)

end Sys2Proof.Machine
end

