-- ==== Sys2Proof/Machine/Ecdsa.lean ====
section
/-! DEFINITION. The ECDSA engine: DERIVE (R120), SIGN (R122, R123) and VERIFY (R124, R125). -/

namespace Sys2Proof.Machine

/-- derive_public_key for the key D (R120). -/
def State.derive (s : State) (key : Nat) : Except ErrorKind Point :=
  if s.validScalar key then psmul s.p s.a s.generator key else .error .invalidKey

/-- One turn of the loop of R122 for the nonce k: a signature (r, s), or none when k is discarded. -/
def State.signNonce (s : State) (h key k : Nat) : Except ErrorKind (Option (Nat × Nat)) :=
  match psmul s.p s.a s.generator k with
  | .error e => .error e
  | .ok .inf => .ok none
  | .ok (.aff x _) =>
    let r := x % s.n
    if r = 0 then .ok none
    else
      match invm k s.n with
      | .error e => .error e
      | .ok i =>
        let sig := (i * (h + r * key)) % s.n
        if sig = 0 then .ok none else .ok (some (r, sig))

/-- `verify(h, r, s, Q)` (R124); the signature's second half is `sig` here. -/
def State.verify (s : State) (h r sig : Nat) (q : Point) : Except ErrorKind Bool :=
  if !s.validScalar r || !s.validScalar sig then .ok false
  else if !s.pkValid q then .ok false
  else
    match invm sig s.n with
    | .error e => .error e
    | .ok w =>
      let u1 := (h * w) % s.n
      let u2 := (r * w) % s.n
      match psmul s.p s.a s.generator u1 with
      | .error e => .error e
      | .ok p1 =>
        match psmul s.p s.a q u2 with
        | .error e => .error e
        | .ok p2 =>
          match padd s.p s.a p1 p2 with
          | .error e => .error e
          | .ok .inf => .ok false
          | .ok (.aff x _) => .ok (decide (x % s.n = r))

/-- DERIVE PTd, Skey (R120). -/
def execDerive (d : PReg) (key : SReg) (s : State) : Host.Outcome State Fault Refusal :=
  .next (commit (constructive s (writing (.point d) (s.derive (s.readS key)))) s)

/-- How SIGN goes on from a turn of rsample (R122): the key is checked before any byte is requested. -/
def State.signEffect (s : State) (rd sd : SReg) (h key : Nat) : Effect :=
  if !s.validScalar key then .error .invalidKey
  else
    match s.rsample with
    | .need drawn => .wait drawn
    | .failed => .error .randomSource
    | .got k =>
      match s.signNonce h key k with
      | .error e => .error e
      | .ok none => .wait []
      | .ok (some (r, sig)) => .ok [.scalar rd r, .scalar sd sig] false

/-- SIGN Sr, Ss, Sh, Skey (R123), one turn of the engine up to the next port request or completion; equal
destinations are illegal before anything else (R73 (f), R137). -/
def execSign (r sd h key : SReg) (s : State) : Host.Outcome State Fault Refusal :=
  .next (commit
    (if r = sd then .error .illegalCommand
     else constructive s (s.signEffect r sd (s.readS h) (s.readS key))) s)

/-- VERIFY Sh, Sr, Ss, PTq (R125): writes RESULT only. -/
def execVerify (h r sr : SReg) (q : PReg) (s : State) : Host.Outcome State Fault Refusal :=
  .next (commit (constructive s
    (match s.verify (s.readS h) (s.readS r) (s.readS sr) (s.readPT q) with
     | .ok b => .ok [] b
     | .error e => .error e)) s)

end Sys2Proof.Machine
end

