-- ==== Sys2Proof/Machine/Dispatch.lean ====
section
/-! DEFINITION. One arm per command: exec is one turn of the engine on the command in flight. -/

namespace Sys2Proof.Machine

def exec (i : Instr) (s : State) : Host.Outcome State Fault Refusal :=
  match i with
  | .nop => Sys2Proof.Machine.execNop s
  | .curveSel id => Sys2Proof.Machine.execCurveSel id s
  | .modadd d a b m => Sys2Proof.Machine.execModadd d a b m s
  | .modsub d a b m => Sys2Proof.Machine.execModsub d a b m s
  | .modmul d a b m => Sys2Proof.Machine.execModmul d a b m s
  | .modinv d a m => Sys2Proof.Machine.execModinv d a m s
  | .padd d a b => Sys2Proof.Machine.execPadd d a b s
  | .pdbl d a => Sys2Proof.Machine.execPdbl d a s
  | .psmul d a k => Sys2Proof.Machine.execPsmul d a k s
  | .pbmul d k => Sys2Proof.Machine.execPbmul d k s
  | .schk a => Sys2Proof.Machine.execSchk a s
  | .pchk a => Sys2Proof.Machine.execPchk a s
  | .pkchk a => Sys2Proof.Machine.execPkchk a s
  | .rsample d => Sys2Proof.Machine.execRsample d s
  | .derive d key => Sys2Proof.Machine.execDerive d key s
  | .sign r sd h key => Sys2Proof.Machine.execSign r sd h key s
  | .verify h r sr q => Sys2Proof.Machine.execVerify h r sr q s
  | .penc a => Sys2Proof.Machine.execPenc a s
  | .pdec d => Sys2Proof.Machine.execPdec d s
  | .pcomp a => Sys2Proof.Machine.execPcomp a s
  | .pdecomp d => Sys2Proof.Machine.execPdecomp d s

end Sys2Proof.Machine
end

