-- ==== Sys2Proof/Machine/Step.lean ====
section
/-! DEFINITION. One step of the machine: the next event that reaches the core, or, when none is pending, a turn of the
engine. -/

namespace Sys2Proof.Machine

/-- One turn of the engine (R133, R154): nothing in IDLE (where a reset holds it) or while waiting on the port;
else the command in flight is evaluated, or completed with IllegalCommand when its word is illegal. -/
def engineTurn (s : State) : Host.Outcome State Fault Refusal :=
  match s.engine with
  | .idle => .next s
  | .busy (.waiting _) => .next s
  | .busy _ =>
    match decode s.cmd with
    | .error _ => .next (completeError .illegalCommand s)
    | .ok i => exec i s

/-- What one event does (log entry 1). -/
def handle (e : Event) (s : State) : Host.Outcome State Fault Refusal :=
  match e with
  | .read off width => .next (hostRead off width s)
  | .write off width v => .next (hostWrite off width v s)
  | .rng answer => .next (rngAnswer answer s)
  | .rngWithdrawn answer => .next (rngWithdrawnAnswer answer s)
  | .rst level => .next (driveReset level s)
  | .engine => engineTurn s

/-- One step: the oldest event is taken, or, with none pending, the engine takes its turn (log entry 2). -/
def step (s : State) : Host.Outcome State Fault Refusal :=
  match s.inputs with
  | [] => engineTurn { s with response := none }
  | e :: rest => handle e { s with inputs := rest, response := none }

/-- `s` with the command word `w` just accepted (its bits above `nbits` zero) and the engine's turn next, so
that the very next step evaluates exactly it (log entry 10). -/
def State.withFetchWord (s : State) (nbits w : Nat) : State :=
  { accept (BitVec.ofNat 32 (w % 2 ^ nbits)) s with rst := false, inputs := .engine :: s.inputs }

end Sys2Proof.Machine
end

