-- ==== Sys2Proof/Safety.lean ====
section
/-! DEFINITION. The terms the claims use: what a command leaves unchanged, how it completes, the words and offsets the
spec calls illegal or reserved (written again from the spec's tables, apart from the decoder and the window), and the
invariant every step keeps. -/

namespace Sys2Proof.Machine

/-! ### What a step leaves unchanged -/

/-- The registers no command writes, and the model's own fields, are as before. -/
def ControlKept (s t : State) : Prop :=
  t.cmd = s.cmd ∧ t.cmdovr = s.cmdovr ∧ t.wbusy = s.wbusy ∧ t.irqEn = s.irqEn ∧ t.rst = s.rst
    ∧ t.inputs = s.inputs ∧ t.response = s.response

/-- Every scalar register is as before. -/
def ScalarsKept (s t : State) : Prop := ∀ j : SReg, t.sreg.get j = s.sreg.get j

/-- Every point register is as before. -/
def PointsKept (s t : State) : Prop := ∀ j : PReg, t.pt.get j = s.pt.get j

/-- BUFLEN and every byte of BUF are as before. -/
def BufferKept (s t : State) : Prop :=
  t.buflen = s.buflen ∧ ∀ a, Memory.read t.buf a = Memory.read s.buf a

/-- Every register a command could name or write is as before: S, PT, the curve registers, BUF and BUFLEN. -/
def OperandsKept (s t : State) : Prop :=
  ScalarsKept s t ∧ PointsKept s t ∧ t.curve = s.curve ∧ BufferKept s t

/-- `S[d]` holds `v`, and no other operand register changed. -/
def WritesScalar (d : SReg) (v : Nat) (s t : State) : Prop :=
  t.readS d = v ∧ (∀ j, j ≠ d → t.sreg.get j = s.sreg.get j) ∧ PointsKept s t ∧ t.curve = s.curve
    ∧ BufferKept s t

/-- `PT[d]` holds the point value `pt`, all three fields written (R35), and no other operand register changed. -/
def WritesPoint (d : PReg) (pt : Point) (s t : State) : Prop :=
  t.readPT d = pt ∧ (pt = .inf → (t.pt.get d).x = 0 ∧ (t.pt.get d).y = 0)
    ∧ (∀ j, j ≠ d → t.pt.get j = s.pt.get j) ∧ ScalarsKept s t ∧ t.curve = s.curve ∧ BufferKept s t

/-- BUF holds `bytes j` at each index `j < len` and BUFLEN is `len`; no other byte and no other operand
register changed. -/
def WritesBuffer (len : Nat) (bytes : Nat → Nat) (s t : State) : Prop :=
  t.buflen.toNat = len ∧ (∀ j, j < len → (Memory.read t.buf j).toNat = bytes j)
    ∧ (∀ j, len ≤ j → Memory.read t.buf j = Memory.read s.buf j)
    ∧ ScalarsKept s t ∧ PointsKept s t ∧ t.curve = s.curve

/-! ### How a command completes (R135) -/

/-- Completion without error, with RESULT = `b`. -/
def CompletedOk (b : Bool) (s t : State) : Prop :=
  t.engine = .idle ∧ t.done = true ∧ t.err = false ∧ t.result = b ∧ t.errcode.toNat = 0 ∧ ControlKept s t

/-- Completion with an error: ERRCODE holds the code of R134, and no operand register changed. -/
def CompletedError (code : Nat) (s t : State) : Prop :=
  t.engine = .idle ∧ t.done = true ∧ t.err = true ∧ t.result = false ∧ t.errcode.toNat = code
    ∧ ControlKept s t ∧ OperandsKept s t

/-- The command raises an error of this code in this state. -/
def Raises (i : Instr) (code : Nat) (s : State) : Prop :=
  ∃ t, exec i s = .next t ∧ CompletedError code s t

/-- The command goes on to wait for the random byte that follows `drawn`, and changes nothing else. -/
def Requests (i : Instr) (drawn : List Byte) (s : State) : Prop :=
  exec i s = .next { s with engine := .busy (.waiting drawn) }

/-! ### Values the rules name -/

/-- `0 < v < C.n` (R111). -/
def ValidScalar (s : State) (v : Nat) : Prop := 0 < v ∧ v < s.curve.n.toNat

/-- The curve equation as a congruence (R112): INF is excluded. -/
def OnCurve (s : State) (pt : Point) : Prop :=
  ∃ x y, pt = .aff x y
    ∧ (y ^ 2) % s.curve.p.toNat
      = (x ^ 3 + s.curve.a.toNat * x + s.curve.b.toNat) % s.curve.p.toNat

/-- A valid public key (R113): affine, both coordinates below p, on the curve. -/
def ValidKey (s : State) (pt : Point) : Prop :=
  ∃ x y, pt = .aff x y ∧ x < s.curve.p.toNat ∧ y < s.curve.p.toNat ∧ OnCurve s pt

/-- The modulus of a MOD command (R95): C.p for M = 0, C.n for M = 1. -/
def modulusValue (s : State) : Modulus → Nat
  | .p => s.curve.p.toNat
  | .n => s.curve.n.toNat

/-- The M bit as a number (R70). -/
def modulusNumber : Modulus → Nat
  | .p => 0
  | .n => 1

/-- The number `OP<<24 | FA<<20 | FB<<16 | FC<<12 | FD<<8 | M` (R70). -/
def wordNumber (op fa fb fc fd m : Nat) : Nat :=
  op * 2 ^ 24 + fa * 2 ^ 20 + fb * 2 ^ 16 + fc * 2 ^ 12 + fd * 2 ^ 8 + m

/-- Byte `j` of `BE_len(v)` (R13). -/
def beByte (len v j : Nat) : Nat := v / 256 ^ (len - 1 - j) % 256

/-- `BE` of the bytes of BUF at indices `a` to `a + len - 1` (R13). -/
def bufferValue (s : State) (a len : Nat) : Nat :=
  ∑ i ∈ Finset.range len, (Memory.read s.buf (a + i)).toNat * 256 ^ (len - 1 - i)

/-! ### The opcode table, written again from 30_encoding.md -/

/-- The mnemonic of a command's row in spec/opcode_table.json. -/
def mnemonic : Instr → String
  | .nop => "NOP"
  | .curveSel _ => "CURVE_SEL"
  | .modadd _ _ _ _ => "MODADD"
  | .modsub _ _ _ _ => "MODSUB"
  | .modmul _ _ _ _ => "MODMUL"
  | .modinv _ _ _ => "MODINV"
  | .padd _ _ _ => "PADD"
  | .pdbl _ _ => "PDBL"
  | .psmul _ _ _ => "PSMUL"
  | .pbmul _ _ => "PBMUL"
  | .schk _ => "SCHK"
  | .pchk _ => "PCHK"
  | .pkchk _ => "PKCHK"
  | .rsample _ => "RSAMPLE"
  | .derive _ _ => "DERIVE"
  | .sign _ _ _ _ => "SIGN"
  | .verify _ _ _ _ => "VERIFY"
  | .penc _ => "PENC"
  | .pdec _ => "PDEC"
  | .pcomp _ => "PCOMP"
  | .pdecomp _ => "PDECOMP"

/-- One row of spec/opcode_table.json: a word `w` selects it when `w AND mask = pattern` (R74). -/
structure OpcodeRow where
  name : String
  pattern : Word
  mask : Word
deriving DecidableEq, Repr

/-- The rows of spec/opcode_table.json, their match and mask as the file has them. -/
def opcodeRows : List OpcodeRow :=
  [⟨"NOP", 0x00000000, 0xFFFFFFFF⟩, ⟨"CURVE_SEL", 0x01000000, 0xFFEFFFFF⟩,
   ⟨"MODADD", 0x10000000, 0xFF000FFE⟩, ⟨"MODSUB", 0x11000000, 0xFF000FFE⟩,
   ⟨"MODMUL", 0x12000000, 0xFF000FFE⟩, ⟨"MODINV", 0x13000000, 0xFF00FFFE⟩,
   ⟨"PADD", 0x20000000, 0xFF000FFF⟩, ⟨"PDBL", 0x21000000, 0xFF00FFFF⟩,
   ⟨"PSMUL", 0x22000000, 0xFF000FFF⟩, ⟨"PBMUL", 0x23000000, 0xFF00FFFF⟩,
   ⟨"SCHK", 0x30000000, 0xFFF0FFFF⟩, ⟨"PCHK", 0x31000000, 0xFFF0FFFF⟩,
   ⟨"PKCHK", 0x32000000, 0xFFF0FFFF⟩, ⟨"RSAMPLE", 0x40000000, 0xFF0FFFFF⟩,
   ⟨"DERIVE", 0x41000000, 0xFF00FFFF⟩, ⟨"SIGN", 0x42000000, 0xFF0000FF⟩,
   ⟨"VERIFY", 0x43000000, 0xFF0000FF⟩, ⟨"PENC", 0x50000000, 0xFFF0FFFF⟩,
   ⟨"PDEC", 0x51000000, 0xFF0FFFFF⟩, ⟨"PCOMP", 0x52000000, 0xFFF0FFFF⟩,
   ⟨"PDECOMP", 0x53000000, 0xFF0FFFFF⟩]

/-- Which of FA, FB, FC, FD and M a row of R72 uses. -/
structure RowUse where
  fa : Bool
  fb : Bool
  fc : Bool
  fd : Bool
  m : Bool
deriving DecidableEq, Repr

/-- The used fields of the row with opcode `op`, none for a reserved opcode (R72, R73 (a)). -/
def rowUse : Nat → Option RowUse
  | 0x00 => some ⟨false, false, false, false, false⟩
  | 0x01 => some ⟨true, false, false, false, false⟩
  | 0x10 => some ⟨true, true, true, false, true⟩
  | 0x11 => some ⟨true, true, true, false, true⟩
  | 0x12 => some ⟨true, true, true, false, true⟩
  | 0x13 => some ⟨true, true, false, false, true⟩
  | 0x20 => some ⟨true, true, true, false, false⟩
  | 0x21 => some ⟨true, true, false, false, false⟩
  | 0x22 => some ⟨true, true, true, false, false⟩
  | 0x23 => some ⟨true, true, false, false, false⟩
  | 0x30 => some ⟨false, true, false, false, false⟩
  | 0x31 => some ⟨false, true, false, false, false⟩
  | 0x32 => some ⟨false, true, false, false, false⟩
  | 0x40 => some ⟨true, false, false, false, false⟩
  | 0x41 => some ⟨true, true, false, false, false⟩
  | 0x42 => some ⟨true, true, true, true, false⟩
  | 0x43 => some ⟨true, true, true, true, false⟩
  | 0x50 => some ⟨false, true, false, false, false⟩
  | 0x51 => some ⟨true, false, false, false, false⟩
  | 0x52 => some ⟨false, true, false, false, false⟩
  | 0x53 => some ⟨true, false, false, false, false⟩
  | _ => none

/-- The word is illegal by one of the clauses (a) to (f) of R73, read off its number. -/
def IllegalWord (w : Word) : Prop :=
  let v := w.toNat
  let op := v / 2 ^ 24
  let fa := v / 2 ^ 20 % 16
  let fb := v / 2 ^ 16 % 16
  let fc := v / 2 ^ 12 % 16
  let fd := v / 2 ^ 8 % 16
  let rsv := v / 2 % 128
  match rowUse op with
  | none => True
  | some u =>
    rsv ≠ 0
      ∨ (u.fa = false ∧ fa ≠ 0) ∨ (u.fb = false ∧ fb ≠ 0) ∨ (u.fc = false ∧ fc ≠ 0) ∨ (u.fd = false ∧ fd ≠ 0)
      ∨ (u.m = false ∧ v % 2 = 1)
      ∨ (op = 0x01 ∧ 2 ≤ fa)
      ∨ (op = 0x42 ∧ fa = fb)

/-! ### The window map, written again from 10_state.md R21 -/

/-- The offset is in a reserved range of the window (R21, R34). -/
def ReservedOffset (off : Nat) : Prop :=
  (0x20 ≤ off ∧ off < 0x100) ∨ (0x280 ≤ off ∧ off < 0x400) ∨ (0x880 ≤ off ∧ off < 0x1000)
    ∨ (0x1000 ≤ off ∧ 0x84 ≤ off % 0x100)

/-- The bits of the word at an offset from 0x0018 up that the host may write (R22, R28 to R36). -/
def writableBits (off : Nat) : Word :=
  if off = 0x18 ∨ off = 0x1C then 0xFF
  else if off < 0x100 then 0
  else if off < 0x280 then 0xFFFFFFFF
  else if off < 0x400 then 0
  else if off < 0x880 then 0xFFFFFFFF
  else if off < 0x1000 then 0
  else if off % 0x100 < 0x80 then 0xFFFFFFFF
  else if off % 0x100 = 0x80 then 1
  else 0

/-! ### Runs -/

/-- Two states with every field equal but the operand registers. -/
def SameOutsideOperands (s t : State) : Prop :=
  t.cmd = s.cmd ∧ t.engine = s.engine ∧ t.done = s.done ∧ t.err = s.err ∧ t.result = s.result
    ∧ t.cmdovr = s.cmdovr ∧ t.wbusy = s.wbusy ∧ t.errcode = s.errcode ∧ t.irqEn = s.irqEn ∧ t.rst = s.rst
    ∧ t.inputs = s.inputs ∧ t.response = s.response

/-- The events that deliver `bytes` to a command that draws: a turn of the engine, then for each byte the
answer and another turn. -/
def drawEvents (bytes : List Byte) : List Event :=
  .engine :: bytes.flatMap (fun v => [.rng (.byte v), .engine])

/-- The event neither answers the request that is raised nor resets the core. -/
def Event.quiet : Event → Prop
  | .read _ _ => True
  | .write _ _ _ => True
  | .engine => True
  | .rngWithdrawn _ => True
  | .rng _ => False
  | .rst _ => False

/-! ### The invariant -/

/-- What the hidden progress may be (R38, R39): only RSAMPLE and SIGN wait on the port, with a configured curve
and fewer than CW bytes drawn, and SIGN only with a valid key (R122). -/
def DrawInFlight (s : State) : Prop :=
  match s.engine with
  | .idle => True
  | .busy .ready => True
  | .busy (.waiting drawn) | .busy (.answered drawn _) =>
    s.curveOk = true ∧ drawn.length < s.cw ∧
      match decode s.cmd with
      | .ok (.rsample _) => True
      | .ok (.sign _ _ _ key) => s.validScalar (s.readS key) = true
      | _ => False

/-- The invariant every step keeps. -/
structure Inv (s : State) : Prop where
  /-- BUF keeps its canonical form. -/
  bufCanonical : Memory.wf s.buf
  /-- ERRCODE never holds a reserved code (R134). -/
  codeAssigned : s.errcode.toNat ≤ 8
  /-- ERR is set by completions with ERRCODE != 0 only (R24). -/
  errHasCode : s.err = true → s.errcode.toNat ≠ 0
  /-- RESULT is 1 only after a command that completed without error (R37). -/
  resultHasNoCode : s.result = true → s.errcode.toNat = 0
  /-- While BUSY the completion bits are as accept left them (R133). -/
  busyCleared : s.busy = true → s.done = false ∧ s.err = false ∧ s.result = false ∧ s.errcode = 0
  /-- The hidden progress is one a command can have made. -/
  drawInFlight : DrawInFlight s
  /-- While rst is asserted every piece of state has its reset value (R149). -/
  resetHeld : s.rst = true →
    s = { State.reset with rst := true, inputs := s.inputs, response := s.response }

end Sys2Proof.Machine
end

