-- ==== Sys2Proof/Certificates/Slice0/Obligations.lean ====
section
/-! DEFINITION. The statements for the provers, from the numbered rules of spec/. Error codes are the numbers of R134. -/

open Sys2Proof
open Sys2Proof.Machine

/-! ### Encoding -/

/-- R70 to R72: encoding a legal command and decoding the word gives the command back, with every operand. -/
def Obligations.DecodeOfEncodeIsIdentity : Prop :=
  ∀ i : Instr, i.WellFormed → decode (encode i) = .ok i

/-- R74: a word that decodes is the encoding of what it decodes to, so every legal word has one meaning. -/
def Obligations.EncodeOfDecodeIsIdentity : Prop :=
  ∀ (w : Word) (i : Instr), decode w = .ok i → i.WellFormed ∧ encode i = w

/-- R74: a word selects a row of the opcode table (w AND mask = match) exactly when it decodes to that row's
command, SIGN with FA = FB apart; the rows are disjoint, and every word that decodes has a row. -/
def Obligations.DecoderAgreesWithOpcodeTable : Prop :=
  (∀ (w : Word) (row : OpcodeRow), row ∈ opcodeRows →
    ((w &&& row.mask = row.pattern ∧ ¬ (row.name = "SIGN" ∧ faField w = fbField w))
      ↔ ∃ i, decode w = .ok i ∧ mnemonic i = row.name))
  ∧ (∀ (w : Word) (row row' : OpcodeRow), row ∈ opcodeRows → row' ∈ opcodeRows →
      w &&& row.mask = row.pattern → w &&& row'.mask = row'.pattern → row = row')
  ∧ (∀ i : Instr, ∃ row ∈ opcodeRows, row.name = mnemonic i)

/-- R73: the illegal words are exactly those of clauses (a) to (f), and a command in flight with such a word
completes with IllegalCommand, whatever the operand registers hold, writing none of them. -/
def Obligations.IllegalWordsRaiseIllegalCommand : Prop :=
  (∀ w : Word, IllegalWord w ↔ ∃ e, decode w = .error e)
  ∧ (∀ (s : State) (rest : List Event), s.inputs = .engine :: rest → s.engine = .busy .ready →
      IllegalWord s.cmd →
      ∃ t, step s = .next t ∧ CompletedError 6 { s with inputs := rest, response := none } t)

/-- R72 and 95_test_vectors.md 3.7: words written out field by field decode to their commands (sanity). -/
def Obligations.SampleWordsDecode : Prop :=
  decode 0x00000000 = .ok .nop
  ∧ decode 0x01100000 = .ok (.curveSel .secp256k1)
  ∧ decode 0x12312001 = .ok (.modmul 3 1 2 .n)
  ∧ decode 0x13400000 = .ok (.modinv 4 0 .p)
  ∧ decode 0x22104000 = .ok (.psmul 1 0 4)
  ∧ decode 0x32010000 = .ok (.pkchk 1)
  ∧ decode 0x42562100 = .ok (.sign 5 6 2 1)
  ∧ decode 0x53100000 = .ok (.pdecomp 1)

/-! ### Steps, reset and the invariant -/

/-- R133, R154: a turn of the engine on a command in flight whose word decodes is exec of that command, on the
state with the event taken; in IDLE, and while the command waits on the port, it does nothing and requests nothing;
with no event pending the engine takes its turn too (the model's choice, log entry 2). -/
def Obligations.EngineTurnRunsDecodedCommand : Prop :=
  (∀ (s : State) (i : Instr) (p : Progress), s.engine = .busy p → (∀ drawn, p ≠ .waiting drawn) →
    decode s.cmd = .ok i →
    (∀ rest, s.inputs = .engine :: rest →
      step s = exec i { s with inputs := rest, response := none })
    ∧ (s.inputs = [] → step s = exec i { s with response := none }))
  ∧ (∀ s : State, (s.engine = .idle ∨ ∃ drawn, s.engine = .busy (.waiting drawn)) →
    (∀ rest, s.inputs = .engine :: rest → step s = .next { s with inputs := rest, response := none })
    ∧ (s.inputs = [] → step s = .next { s with response := none }))

/-- No step ends in a fault or a refusal. For a command and its errors this is R16 and R138. That the machine goes on
after a misaligned or wrong-width access, which 20_memory.md section 2 (R51) calls a fault of the host agent, is the
model's choice (log entry 4), and so is the step with no event pending (log entry 2). -/
def Obligations.EveryStepGoesOn : Prop :=
  ∀ s : State, ∃ t, step s = .next t

/-- R41: the state after reset meets the invariant. -/
def Obligations.ResetMeetsInvariant : Prop := Inv State.reset

/-- R24, R36 to R39, R133 to R136, R149: every step keeps the invariant. -/
def Obligations.EveryStepKeepsInvariant : Prop :=
  ∀ s t : State, Inv s → step s = .next t → Inv t

/-- R149: while rst is asserted and on its release every piece of state takes its reset value; the accesses the
core performs while rst is asserted have no effect and reads return 0 (that the others get a bus error there too is
log entry 6 and BadAccessesGetABusError, the answer ack to a write log entry 5); an answer to a withdrawn request is
ignored in every state (which answer is one is the event's own, log entry 20), and so is an answer with no request
raised (log entry 8). -/
def Obligations.ResetTakesPrecedence : Prop :=
  (∀ (s : State) (level : Bool) (rest : List Event), s.inputs = .rst level :: rest →
    (level = true ∨ s.rst = true) →
    ∃ t, step s = .next t
      ∧ t.cmd.toNat = 0 ∧ t.busy = false ∧ t.engine = .idle ∧ t.statusWord.toNat = 0 ∧ t.errcode.toNat = 0
      ∧ t.done = false ∧ t.irqEn = false ∧ t.irq = false ∧ t.rngRequest = false
      ∧ t.buflen.toNat = 0 ∧ t.cw = 0 ∧ t.p = 0 ∧ t.n = 0 ∧ t.a = 0 ∧ t.b = 0 ∧ t.generator = .aff 0 0
      ∧ (∀ j, t.readS j = 0) ∧ (∀ j, t.readPT j = .aff 0 0) ∧ (∀ a, (Memory.read t.buf a).toNat = 0)
      ∧ t.rst = level ∧ t.inputs = rest ∧ t.response = none)
  ∧ (∀ (s : State) (off : Offset) (rest : List Event),
      s.inputs = .read off .w32 :: rest → s.rst = true → off.toNat % 4 = 0 →
      step s = .next { s with inputs := rest, response := some (.data 0) })
  ∧ (∀ (s : State) (off : Offset) (v : Word) (rest : List Event),
      s.inputs = .write off .w32 v :: rest → s.rst = true → off.toNat % 4 = 0 →
      step s = .next { s with inputs := rest, response := some .ack })
  ∧ (∀ (s : State) (answer : RngAnswer) (rest : List Event), s.inputs = .rngWithdrawn answer :: rest →
      step s = .next { s with inputs := rest, response := none })
  ∧ (∀ (s : State) (answer : RngAnswer) (rest : List Event),
      s.inputs = .rng answer :: rest → s.rngRequest = false →
      step s = .next { s with inputs := rest, response := none })

/-- R150, which the spec derives from R149, R31 and R41: after reset every word of the window reads 0 but ID and
VERSION, NOP and CURVE_SEL complete without error, the three predicates complete with RESULT = 0, and every other
command ends with CurveConfigError. -/
def Obligations.NothingIsConfiguredAfterReset : Prop :=
  (∀ off : Nat, off < 0x2000 → off % 4 = 0 →
    State.reset.readWindow off = if off = 0 then 0x45434453 else if off = 4 then 1 else 0)
  ∧ (∀ j, State.reset.readPT j = .aff 0 0)
  ∧ State.reset.irq = false
  ∧ (∀ i : Instr, i.WellFormed → i ≠ .nop → (∀ id, i ≠ .curveSel id) →
      (∀ a, i ≠ .schk a) → (∀ a, i ≠ .pchk a) → (∀ a, i ≠ .pkchk a) → Raises i 7 State.reset)
  ∧ (∀ a : Fin 16, ∀ i ∈ [Instr.schk a, Instr.pchk a, Instr.pkchk a],
      ∃ t, exec i State.reset = .next t ∧ CompletedOk false State.reset t)
  ∧ (∃ t, exec .nop State.reset = .next t ∧ CompletedOk false State.reset t)
  ∧ (∀ id : Preset, ∃ t, exec (.curveSel id) State.reset = .next t ∧ CompletedOk false State.reset t
      ∧ t.curveOk = true)

/-! ### The window -/

/-- R23: a CMD write is accepted when the engine is IDLE and dropped with CMDOVR when it is BUSY; a read of CMD
returns the last accepted word in either state. -/
def Obligations.CmdWriteIssuesOrIsDropped : Prop :=
  (∀ (s : State) (w : Word) (rest : List Event), s.inputs = .write 0x0008 .w32 w :: rest → s.rst = false →
    s.engine = .idle →
    ∃ r, step s = .next { s with
      cmd := w, engine := .busy .ready, done := false, err := false, result := false, errcode := 0
      inputs := rest, response := some r })
  ∧ (∀ (s : State) (w : Word) (rest : List Event), s.inputs = .write 0x0008 .w32 w :: rest → s.rst = false →
    s.busy = true →
    ∃ r, step s = .next { s with cmdovr := true, inputs := rest, response := some r })
  ∧ (∀ (s : State) (rest : List Event), s.inputs = .read 0x0008 .w32 :: rest → s.rst = false →
    step s = .next { s with inputs := rest, response := some (.data s.cmd) })
  ∧ State.reset.cmd = 0

/-- R156: a CMD write while BUSY is dropped and sets CMDOVR, which stays set until the host writes 1 to it or
reset. -/
def Obligations.CmdOverrunIsDroppedAndSticky : Prop :=
  (∀ (s : State) (w : Word) (rest : List Event), s.inputs = .write 0x0008 .w32 w :: rest → s.rst = false →
    s.busy = true →
    ∃ t, step s = .next t ∧ t.cmd = s.cmd ∧ t.engine = s.engine ∧ t.cmdovr = true ∧ OperandsKept s t
      ∧ t.inputs = rest)
  ∧ (∀ s t : State, s.cmdovr = true → step s = .next t →
      t.cmdovr = true
      ∨ (∃ v rest, s.inputs = .write 0x000C .w32 v :: rest ∧ v.getLsbD 4 = true)
      ∨ (∃ level rest, s.inputs = .rst level :: rest))

/-- R157: a write while BUSY at offset 0x0018 or above is dropped, and sets WBUSY exactly when the offset is not
reserved; WBUSY is sticky; writes to STATUS and IRQ_EN are not dropped, and writes to ID, VERSION and ERRCODE are
ignored in every state. -/
def Obligations.HeldWritesAreDroppedWhileBusy : Prop :=
  (∀ (s : State) (off : Offset) (v : Word) (rest : List Event),
    s.inputs = .write off .w32 v :: rest → s.rst = false → off.toNat % 4 = 0 → 0x18 ≤ off.toNat →
    s.busy = true →
    (ReservedOffset off.toNat → ∃ r, step s = .next { s with inputs := rest, response := some r })
    ∧ (¬ ReservedOffset off.toNat →
        ∃ r, step s = .next { s with wbusy := true, inputs := rest, response := some r }))
  ∧ (∀ s t : State, s.wbusy = true → step s = .next t →
      t.wbusy = true
      ∨ (∃ v rest, s.inputs = .write 0x000C .w32 v :: rest ∧ v.getLsbD 5 = true)
      ∨ (∃ level rest, s.inputs = .rst level :: rest))
  ∧ (∀ (s : State) (v : Word) (rest : List Event), s.inputs = .write 0x000C .w32 v :: rest → s.rst = false →
      ∃ r, step s = .next { s with
        done := s.done && !v.getLsbD 1, err := s.err && !v.getLsbD 2, cmdovr := s.cmdovr && !v.getLsbD 4
        wbusy := s.wbusy && !v.getLsbD 5, inputs := rest, response := some r })
  ∧ (∀ (s : State) (v : Word) (rest : List Event), s.inputs = .write 0x0014 .w32 v :: rest → s.rst = false →
      ∃ r, step s = .next { s with irqEn := v.getLsbD 0, inputs := rest, response := some r })
  ∧ (∀ (s : State) (off : Offset) (v : Word) (rest : List Event),
      s.inputs = .write off .w32 v :: rest → s.rst = false →
      off = 0x0000 ∨ off = 0x0004 ∨ off = 0x0010 →
      ∃ r, step s = .next { s with inputs := rest, response := some r })

/-- R158: a read while BUSY at offset 0x0018 or above returns 0 and has no effect; the six registers below it
return their values in every state. -/
def Obligations.HeldReadsReturnZeroWhileBusy : Prop :=
  (∀ (s : State) (off : Offset) (rest : List Event),
    s.inputs = .read off .w32 :: rest → s.rst = false → off.toNat % 4 = 0 → 0x18 ≤ off.toNat → s.busy = true →
    step s = .next { s with inputs := rest, response := some (.data 0) })
  ∧ (∀ (s : State) (off : Offset) (v : Word) (rest : List Event),
      s.inputs = .read off .w32 :: rest → s.rst = false →
      (off = 0x0000 ∧ v = 0x45434453) ∨ (off = 0x0004 ∧ v = 1) ∨ (off = 0x0008 ∧ v = s.cmd)
        ∨ (off = 0x000C ∧ v = s.statusWord) ∨ (off = 0x0010 ∧ v.toNat = s.errcode.toNat)
        ∨ (off = 0x0014 ∧ v.toNat = s.irqEn.toNat) →
      step s = .next { s with inputs := rest, response := some (.data v) })

/-- R51: an access of another width, or at an offset that is no multiple of 4, gets a bus error response and
changes nothing. That the machine then goes on is log entry 4, and that it does so while rst is asserted too is log
entry 6. -/
def Obligations.BadAccessesGetABusError : Prop :=
  ∀ (s : State) (off : Offset) (width : AccessWidth) (v : Word) (rest : List Event),
    width ≠ .w32 ∨ off.toNat % 4 ≠ 0 →
    (s.inputs = .read off width :: rest →
      step s = .next { s with inputs := rest, response := some .busError })
    ∧ (s.inputs = .write off width v :: rest →
      step s = .next { s with inputs := rest, response := some .busError })

/-- R24, R40, R140: the bits of the STATUS word, the W1C bits of a STATUS write in every engine state, and the
irq output. -/
def Obligations.StatusBitsAndIrq : Prop :=
  (∀ s : State,
    s.statusWord.toNat
      = s.busy.toNat + 2 * s.done.toNat + 4 * s.err.toNat + 8 * s.result.toNat + 16 * s.cmdovr.toNat
        + 32 * s.wbusy.toNat + 64 * s.rngwait.toNat + 128 * (s.done && s.irqEn).toNat
    ∧ s.irq = (s.done && s.irqEn) ∧ s.irq = s.statusWord.getLsbD 7
    ∧ (s.busy = true ↔ s.engine ≠ .idle)
    ∧ (s.rngwait = true ↔ ∃ drawn, s.engine = .busy (.waiting drawn))
    ∧ s.rngRequest = s.rngwait)
  ∧ (∀ (s : State) (v : Word) (rest : List Event), s.inputs = .write 0x000C .w32 v :: rest → s.rst = false →
      ∃ r, step s = .next { s with
        done := s.done && !v.getLsbD 1, err := s.err && !v.getLsbD 2, cmdovr := s.cmdovr && !v.getLsbD 4
        wbusy := s.wbusy && !v.getLsbD 5, inputs := rest, response := some r })
  ∧ State.reset.irq = false

/-- R27: ID and VERSION read their constants in every state, and writes to them are ignored. -/
def Obligations.IdAndVersionAreConstants : Prop :=
  ∀ (s : State) (v : Word) (rest : List Event), s.rst = false →
    (s.inputs = .read 0x0000 .w32 :: rest →
      step s = .next { s with inputs := rest, response := some (.data 0x45434453) })
    ∧ (s.inputs = .read 0x0004 .w32 :: rest →
      step s = .next { s with inputs := rest, response := some (.data 0x00000001) })
    ∧ (s.inputs = .write 0x0000 .w32 v :: rest →
      ∃ r, step s = .next { s with inputs := rest, response := some r })
    ∧ (s.inputs = .write 0x0004 .w32 v :: rest →
      ∃ r, step s = .next { s with inputs := rest, response := some r })

/-- R22, R33 to R36, R160: a write to an IDLE core at an offset from 0x0018 up is read back there, in the bits
the map names, and changes no other word of the window and no control register (the answer ack is log entry 5). -/
def Obligations.WindowReadsBackWhatWasWritten : Prop :=
  ∀ (s : State) (off : Offset) (v : Word) (rest : List Event),
    s.inputs = .write off .w32 v :: rest → s.rst = false → s.engine = .idle → off.toNat % 4 = 0 →
    0x18 ≤ off.toNat → Memory.wf s.buf →
    ∃ t, step s = .next t
      ∧ t.readWindow off.toNat = v &&& writableBits off.toNat
      ∧ (∀ off' : Offset, off'.toNat % 4 = 0 → off' ≠ off →
          t.readWindow off'.toNat = s.readWindow off'.toNat)
      ∧ t.engine = .idle ∧ t.done = s.done ∧ t.err = s.err ∧ t.result = s.result ∧ t.errcode = s.errcode
      ∧ t.rst = s.rst ∧ t.inputs = rest ∧ t.response = some .ack

/-- R22, R33, R36, R50, R52 (d): an aligned word read answers the word of the window and has no side effect, and in
IDLE a reserved offset reads 0, a 512-bit register shows word k of its big-endian bytes at base + 4k, for the
registers of every block of the window, and BUF[4k] stands in bits [31:24] of the word at 0x0800 + 4k. -/
def Obligations.WindowIsBigEndian : Prop :=
  (∀ (s : State) (off : Offset) (rest : List Event),
    s.inputs = .read off .w32 :: rest → s.rst = false → off.toNat % 4 = 0 →
    step s = .next { s with inputs := rest, response := some (.data (s.readWindow off.toNat)) })
  ∧ (∀ (s : State) (off : Offset), s.engine = .idle → off.toNat % 4 = 0 → ReservedOffset off.toNat →
    s.readWindow off.toNat = 0)
  ∧ ∀ (s : State) (i k : Nat), s.engine = .idle → i < 16 → k < 16 →
    (s.readWindow (0x0400 + 0x40 * i + 4 * k)).toNat
        = s.readS (Fin.ofNat 16 i) / 2 ^ (32 * (15 - k)) % 2 ^ 32
    ∧ (s.readWindow (0x1000 + 0x100 * i + 4 * k)).toNat
        = (s.pt.get (Fin.ofNat 16 i)).x.toNat / 2 ^ (32 * (15 - k)) % 2 ^ 32
    ∧ (s.readWindow (0x1040 + 0x100 * i + 4 * k)).toNat
        = (s.pt.get (Fin.ofNat 16 i)).y.toNat / 2 ^ (32 * (15 - k)) % 2 ^ 32
    ∧ (s.readWindow (0x1080 + 0x100 * i)).toNat = (s.pt.get (Fin.ofNat 16 i)).inf.toNat
    ∧ (s.readWindow (0x0100 + 4 * k)).toNat = s.curve.p.toNat / 2 ^ (32 * (15 - k)) % 2 ^ 32
    ∧ (s.readWindow (0x0140 + 4 * k)).toNat = s.curve.n.toNat / 2 ^ (32 * (15 - k)) % 2 ^ 32
    ∧ (s.readWindow (0x0180 + 4 * k)).toNat = s.curve.a.toNat / 2 ^ (32 * (15 - k)) % 2 ^ 32
    ∧ (s.readWindow (0x01C0 + 4 * k)).toNat = s.curve.b.toNat / 2 ^ (32 * (15 - k)) % 2 ^ 32
    ∧ (s.readWindow (0x0200 + 4 * k)).toNat = s.curve.gx.toNat / 2 ^ (32 * (15 - k)) % 2 ^ 32
    ∧ (s.readWindow (0x0240 + 4 * k)).toNat = s.curve.gy.toNat / 2 ^ (32 * (15 - k)) % 2 ^ 32
    ∧ (s.readWindow 0x0018).toNat = s.buflen.toNat ∧ (s.readWindow 0x001C).toNat = s.curve.cw.toNat
    ∧ (∀ j, j < 32 → (s.readWindow (0x0800 + 4 * j)).toNat
        = ((Memory.read s.buf (4 * j)).toNat * 256 + (Memory.read s.buf (4 * j + 1)).toNat) * 2 ^ 16
          + (Memory.read s.buf (4 * j + 2)).toNat * 256 + (Memory.read s.buf (4 * j + 3)).toNat)

/-! ### The command frame -/

/-- R31: curve_ok, and what commands do when it is false. -/
def Obligations.CurveOkGuardsEveryCommand : Prop :=
  (∀ s : State, s.curveOk = true ↔
    1 ≤ s.curve.cw.toNat ∧ s.curve.cw.toNat ≤ 64 ∧ 2 ≤ s.curve.p.toNat
      ∧ s.curve.p.toNat < 2 ^ (8 * s.curve.cw.toNat) ∧ 2 ≤ s.curve.n.toNat)
  ∧ (∀ (s : State) (i : Instr), s.curveOk = false → i.WellFormed → i ≠ .nop → (∀ id, i ≠ .curveSel id) →
      ((∃ a, i = .schk a ∨ i = .pchk a ∨ i = .pkchk a) →
        ∃ t, exec i s = .next t ∧ CompletedOk false s t ∧ OperandsKept s t)
      ∧ ((∀ a, i ≠ .schk a ∧ i ≠ .pchk a ∧ i ≠ .pkchk a) → Raises i 7 s))
  ∧ (∀ (s t : State) (id : Preset), exec (.curveSel id) s = .next t → t.curveOk = true)

/-- R16, R135, R136 (b): a turn of the engine on any command ends in one of three ways: completion without
error, completion with an error that changes no operand register, or a port request that changes nothing else. -/
def Obligations.EveryTurnEndsInOneOfThreeWays : Prop :=
  ∀ (s t : State) (i : Instr), exec i s = .next t →
    (∃ b, CompletedOk b s t)
    ∨ (∃ code, 1 ≤ code ∧ code ≤ 8 ∧ CompletedError code s t)
    ∨ (∃ drawn, t = { s with engine := .busy (.waiting drawn) })

/-- R30: no command other than CURVE_SEL writes the curve registers. -/
def Obligations.OnlyCurveSelWritesTheCurve : Prop :=
  ∀ (s t : State) (i : Instr), exec i s = .next t → (∀ id, i ≠ .curveSel id) → t.curve = s.curve

/-- R37: only SCHK, PCHK, PKCHK and VERIFY complete with RESULT = 1, and never with an error. -/
def Obligations.OnlyPredicatesSetResult : Prop :=
  ∀ (s t : State) (i : Instr), exec i s = .next t → t.engine = .idle → t.result = true →
    t.err = false ∧ t.errcode = 0
    ∧ ((∃ a, i = .schk a) ∨ (∃ a, i = .pchk a) ∨ (∃ a, i = .pkchk a) ∨ (∃ h r sr q, i = .verify h r sr q))

/-- R39: only RSAMPLE and SIGN request random bytes. -/
def Obligations.OnlyRsampleAndSignRequestBytes : Prop :=
  ∀ (s t : State) (i : Instr), exec i s = .next t → t.rngRequest = true → s.rngRequest = false →
    (∃ d, i = .rsample d) ∨ (∃ r sd h key, i = .sign r sd h key)

/-- R52 (c), R56 (b), R157: as long as a command stays in flight, no step changes a register it could read or
the command word. -/
def Obligations.OperandsAreHeldInFlight : Prop :=
  ∀ s t : State, s.busy = true → step s = .next t → t.busy = true → OperandsKept s t ∧ t.cmd = s.cmd

/-- R158: while a command is in flight no event from outside can tell two states apart that differ in operand
registers only: the answers and everything else the host can see stay equal. -/
def Obligations.HostLearnsNothingInFlight : Prop :=
  ∀ (s s' : State) (e : Event) (rest : List Event), SameOutsideOperands s s' → s.busy = true →
    s.inputs = e :: rest → e ≠ .engine →
    ∃ t t', step s = .next t ∧ step s' = .next t' ∧ SameOutsideOperands t t'

/-- R155 (a): a command that waits on the port stays in flight, its operands unchanged, through any number of
host accesses and engine turns, as long as the source does not answer and no reset comes. -/
def Obligations.UnansweredRequestHangs : Prop :=
  ∀ (k : Nat) (s : State), s.rngwait = true → (∀ e ∈ s.inputs, e.quiet) →
    ∃ t, core.run k s = .next t ∧ t.engine = s.engine ∧ t.rngwait = true ∧ t.cmd = s.cmd ∧ OperandsKept s t

/-- R162: a turn of the engine on a command that does not wait on the port completes it or raises a request. -/
def Obligations.EngineTurnMakesProgress : Prop :=
  ∀ (s : State) (rest : List Event), s.inputs = .engine :: rest → s.busy = true → s.rngwait = false →
    ∃ t, step s = .next t ∧ t.inputs = rest
      ∧ ((t.busy = false ∧ t.done = true) ∨ (t.rngwait = true ∧ t.done = s.done))

/-- R39, R154, R163: an answer is taken by the request that waits for it, which ends; with none raised it is
ignored (for a request withdrawn by reset by R149, else log entry 8). -/
def Obligations.AnswersAreTakenOnce : Prop :=
  ∀ (s : State) (answer : RngAnswer) (rest : List Event), s.inputs = .rng answer :: rest →
    (∀ drawn, s.engine = .busy (.waiting drawn) →
      ∃ t, step s = .next t ∧ t.rngwait = false ∧ t.busy = true
        ∧ t = { s with engine := .busy (.answered drawn answer), inputs := rest, response := none })
    ∧ (s.rngwait = false → step s = .next { s with inputs := rest, response := none })

/-! ### Control -/

/-- R90: NOP completes in every state, whatever curve_ok is, and changes no register; any other bit set beside its
opcode makes the word illegal. -/
def Obligations.NopCompletes : Prop :=
  (encode .nop).toNat = 0
  ∧ (∀ w : Word, w.toNat < 2 ^ 24 → w ≠ 0 → ∃ e, decode w = .error e)
  ∧ ∀ s : State, ∃ t, exec .nop s = .next t ∧ CompletedOk false s t ∧ OperandsKept s t

/-- R91, R92: CURVE_SEL loads the seven curve registers with the preset's values in every state and touches no
other register; ids 2 to 15 are illegal. -/
def Obligations.CurveSelLoadsThePreset : Prop :=
  (encode (.curveSel .secp256r1)).toNat = wordNumber 0x01 0 0 0 0 0
  ∧ (encode (.curveSel .secp256k1)).toNat = wordNumber 0x01 1 0 0 0 0
  ∧ (∀ id : Fin 16, 2 ≤ id.val → ∃ e, decode (wordOf 0x01 id 0 0 0 false) = .error e)
  ∧ (∀ (s : State) (id : Preset), ∃ t, exec (.curveSel id) s = .next t ∧ CompletedOk false s t
      ∧ ScalarsKept s t ∧ PointsKept s t ∧ BufferKept s t ∧ t.curve.cw.toNat = 32
      ∧ (id = .secp256r1 →
          t.curve.p.toNat = 0xFFFFFFFF00000001000000000000000000000000FFFFFFFFFFFFFFFFFFFFFFFF
          ∧ t.curve.a.toNat = t.curve.p.toNat - 3
          ∧ t.curve.b.toNat = 0x5AC635D8AA3A93E7B3EBBD55769886BC651D06B0CC53B0F63BCE3C3E27D2604B
          ∧ t.curve.n.toNat = 0xFFFFFFFF00000000FFFFFFFFFFFFFFFFBCE6FAADA7179E84F3B9CAC2FC632551
          ∧ t.curve.gx.toNat = 0x6B17D1F2E12C4247F8BCE6E563A440F277037D812DEB33A0F4A13945D898C296
          ∧ t.curve.gy.toNat = 0x4FE342E2FE1A7F9B8EE7EB4A7C0F9E162BCE33576B315ECECBB6406837BF51F5)
      ∧ (id = .secp256k1 →
          t.curve.p.toNat = 0xFFFFFFFFFFFFFFFFFFFFFFFFFFFFFFFFFFFFFFFFFFFFFFFFFFFFFFFEFFFFFC2F
          ∧ t.curve.a.toNat = 0
          ∧ t.curve.b.toNat = 7
          ∧ t.curve.n.toNat = 0xFFFFFFFFFFFFFFFFFFFFFFFFFFFFFFFEBAAEDCE6AF48A03BBFD25E8CD0364141
          ∧ t.curve.gx.toNat = 0x79BE667EF9DCBBAC55A06295CE870B07029BFCDB2DCE28D959F2815B16F81798
          ∧ t.curve.gy.toNat = 0x483ADA7726A3C4655DA4FBFC0E1108A8FD17B448A68554199C47D08FFB10D4B8))

/-! ### Modular units -/

/-- R95, R96: MODADD. -/
def Obligations.ModaddWritesTheReducedSum : Prop :=
  ∀ (s : State) (d a b : SReg) (m : Modulus),
    (encode (.modadd d a b m)).toNat = wordNumber 0x10 d a b 0 (modulusNumber m)
    ∧ (s.curveOk = true → ∃ t, exec (.modadd d a b m) s = .next t ∧ CompletedOk false s t
        ∧ WritesScalar d ((s.readS a + s.readS b) % modulusValue s m) s t)
    ∧ (s.curveOk = false → Raises (.modadd d a b m) 7 s)

/-- R95, R97: MODSUB, the difference normalised into [0, m). -/
def Obligations.ModsubWritesTheNormalisedDifference : Prop :=
  ∀ (s : State) (d a b : SReg) (m : Modulus),
    (encode (.modsub d a b m)).toNat = wordNumber 0x11 d a b 0 (modulusNumber m)
    ∧ (s.curveOk = true → ∃ t v, exec (.modsub d a b m) s = .next t ∧ CompletedOk false s t
        ∧ WritesScalar d v s t ∧ v < modulusValue s m
        ∧ (v + s.readS b) % modulusValue s m = s.readS a % modulusValue s m)
    ∧ (s.curveOk = false → Raises (.modsub d a b m) 7 s)

/-- R95, R98: MODMUL, the full product reduced. -/
def Obligations.ModmulWritesTheReducedProduct : Prop :=
  ∀ (s : State) (d a b : SReg) (m : Modulus),
    (encode (.modmul d a b m)).toNat = wordNumber 0x12 d a b 0 (modulusNumber m)
    ∧ (s.curveOk = true → ∃ t, exec (.modmul d a b m) s = .next t ∧ CompletedOk false s t
        ∧ WritesScalar d ((s.readS a * s.readS b) % modulusValue s m) s t)
    ∧ (s.curveOk = false → Raises (.modmul d a b m) 7 s)

/-- R95, R99: MODINV writes the inverse in [1, m), or raises ArithmeticError when there is none. -/
def Obligations.ModinvWritesTheInverse : Prop :=
  ∀ (s : State) (d a : SReg) (m : Modulus),
    (encode (.modinv d a m)).toNat = wordNumber 0x13 d a 0 0 (modulusNumber m)
    ∧ (s.curveOk = true → Nat.gcd (s.readS a % modulusValue s m) (modulusValue s m) = 1 →
        ∃ t x, exec (.modinv d a m) s = .next t ∧ CompletedOk false s t ∧ WritesScalar d x s t
          ∧ 1 ≤ x ∧ x < modulusValue s m ∧ (s.readS a * x) % modulusValue s m = 1)
    ∧ (s.curveOk = true → Nat.gcd (s.readS a % modulusValue s m) (modulusValue s m) ≠ 1 →
        Raises (.modinv d a m) 2 s)
    ∧ (s.curveOk = false → Raises (.modinv d a m) 7 s)

/-- R12: the inverse is the one x in [1, m) with a * x congruent to 1, and for a prime modulus it is Fermat's
power. -/
def Obligations.InverseIsUniqueAndFermat : Prop :=
  (∀ a m x : Nat, 2 ≤ m → Nat.gcd (a % m) m = 1 →
    ((1 ≤ x ∧ x < m ∧ (a * x) % m = 1) ↔ x = inverse a m))
  ∧ (∀ a m : Nat, m.Prime → a % m ≠ 0 → inverse a m = (a % m) ^ (m - 2) % m)

/-! ### Point units -/

/-- R102: padd, as congruences: the slope times the difference of the x is the difference of the y. -/
def Obligations.PaddIsTheGroupLaw : Prop :=
  ∀ (p a : Nat), 2 ≤ p →
    (∀ q, padd p a .inf q = .ok q)
    ∧ (∀ q, padd p a q .inf = .ok q)
    ∧ ∀ px py qx qy : Nat,
      (px % p = qx % p → (py + qy) % p = 0 → padd p a (.aff px py) (.aff qx qy) = .ok .inf)
      ∧ (px % p = qx % p → py % p = qy % p → (py + qy) % p ≠ 0 →
          padd p a (.aff px py) (.aff qx qy) = pdbl p a (.aff px py))
      ∧ (px % p = qx % p → py % p ≠ qy % p → (py + qy) % p ≠ 0 →
          padd p a (.aff px py) (.aff qx qy) = .error .arithmetic)
      ∧ (px % p ≠ qx % p → Nat.gcd ((qx + (p - px % p)) % p) p ≠ 1 →
          padd p a (.aff px py) (.aff qx qy) = .error .arithmetic)
      ∧ (px % p ≠ qx % p → Nat.gcd ((qx + (p - px % p)) % p) p = 1 →
          ∃ lam x y : Nat, padd p a (.aff px py) (.aff qx qy) = .ok (.aff x y) ∧ x < p ∧ y < p
            ∧ (lam * ((qx : Int) - px) - (qy - py)) % p = 0
            ∧ ((x : Int) - (lam ^ 2 - px - qx)) % p = 0
            ∧ ((y : Int) - (lam * (px - x) - py)) % p = 0)

/-- R103: pdbl, as congruences. -/
def Obligations.PdblIsTheTangentLaw : Prop :=
  ∀ (p a : Nat), 2 ≤ p →
    pdbl p a .inf = .ok .inf
    ∧ ∀ px py : Nat,
      (py % p = 0 → pdbl p a (.aff px py) = .ok .inf)
      ∧ (py % p ≠ 0 → Nat.gcd (2 * py % p) p ≠ 1 → pdbl p a (.aff px py) = .error .arithmetic)
      ∧ (py % p ≠ 0 → Nat.gcd (2 * py % p) p = 1 →
          ∃ lam x y : Nat, pdbl p a (.aff px py) = .ok (.aff x y) ∧ x < p ∧ y < p
            ∧ (lam * (2 * (py : Int)) - (3 * px ^ 2 + a)) % p = 0
            ∧ ((x : Int) - (lam ^ 2 - 2 * px)) % p = 0
            ∧ ((y : Int) - (lam * (px - x) - py)) % p = 0)

/-- R104: psmul reads the bits of k from the most significant down: k = 2j + b is a doubling of psmul(P, j), then
an addition of P when b = 1; and the corner cases k = 0, k = 1 and P = INF. -/
def Obligations.PsmulIsDoubleAndAdd : Prop :=
  ∀ (p a : Nat) (base : Point),
    psmul p a base 0 = .ok .inf
    ∧ psmul p a base 1 = .ok base
    ∧ (∀ k, psmul p a .inf k = .ok .inf)
    ∧ (∀ k, psmul p a base (2 * k) = (psmul p a base k).bind (pdbl p a))
    ∧ (∀ k, psmul p a base (2 * k + 1)
        = ((psmul p a base k).bind (pdbl p a)).bind (fun q => padd p a q base))

/-- R110: when padd and pdbl raise ArithmeticError, and that for an odd prime only case (a) is left. -/
def Obligations.ArithmeticErrorsOfThePointUnits : Prop :=
  (∀ (p a : Nat) (q r : Point) (e : ErrorKind), 2 ≤ p →
    (padd p a q r = .error e ↔
      e = .arithmetic ∧ ∃ px py qx qy, q = .aff px py ∧ r = .aff qx qy ∧
        ((px % p = qx % p ∧ py % p ≠ qy % p ∧ (py + qy) % p ≠ 0)
          ∨ (px % p ≠ qx % p ∧ Nat.gcd ((qx + (p - px % p)) % p) p ≠ 1)
          ∨ (px % p = qx % p ∧ py % p = qy % p ∧ (py + qy) % p ≠ 0 ∧ Nat.gcd (2 * py % p) p ≠ 1))))
  ∧ (∀ (p a : Nat) (q : Point) (e : ErrorKind), 2 ≤ p →
      (pdbl p a q = .error e ↔
        e = .arithmetic ∧ ∃ px py, q = .aff px py ∧ py % p ≠ 0 ∧ Nat.gcd (2 * py % p) p ≠ 1))
  ∧ (∀ (p a : Nat) (q r : Point) (e : ErrorKind), p.Prime → p ≠ 2 →
      pdbl p a q ≠ .error e
      ∧ (padd p a q r = .error e → ∃ px py qx qy, q = .aff px py ∧ r = .aff qx qy ∧
          px % p = qx % p ∧ py % p ≠ qy % p ∧ (py + qy) % p ≠ 0))

/-- R105: PADD. -/
def Obligations.PaddCommand : Prop :=
  ∀ (s : State) (d a b : PReg),
    (encode (.padd d a b)).toNat = wordNumber 0x20 d a b 0 0
    ∧ (∀ pt, s.curveOk = true →
        padd s.curve.p.toNat s.curve.a.toNat (s.readPT a) (s.readPT b) = .ok pt →
        ∃ t, exec (.padd d a b) s = .next t ∧ CompletedOk false s t ∧ WritesPoint d pt s t)
    ∧ (∀ e, s.curveOk = true →
        padd s.curve.p.toNat s.curve.a.toNat (s.readPT a) (s.readPT b) = .error e → Raises (.padd d a b) 2 s)
    ∧ (s.curveOk = false → Raises (.padd d a b) 7 s)

/-- R106: PDBL. -/
def Obligations.PdblCommand : Prop :=
  ∀ (s : State) (d a : PReg),
    (encode (.pdbl d a)).toNat = wordNumber 0x21 d a 0 0 0
    ∧ (∀ pt, s.curveOk = true → pdbl s.curve.p.toNat s.curve.a.toNat (s.readPT a) = .ok pt →
        ∃ t, exec (.pdbl d a) s = .next t ∧ CompletedOk false s t ∧ WritesPoint d pt s t)
    ∧ (∀ e, s.curveOk = true → pdbl s.curve.p.toNat s.curve.a.toNat (s.readPT a) = .error e →
        Raises (.pdbl d a) 2 s)
    ∧ (s.curveOk = false → Raises (.pdbl d a) 7 s)

/-- R107: PSMUL. -/
def Obligations.PsmulCommand : Prop :=
  ∀ (s : State) (d a : PReg) (k : SReg),
    (encode (.psmul d a k)).toNat = wordNumber 0x22 d a k 0 0
    ∧ (∀ pt, s.curveOk = true →
        psmul s.curve.p.toNat s.curve.a.toNat (s.readPT a) (s.readS k) = .ok pt →
        ∃ t, exec (.psmul d a k) s = .next t ∧ CompletedOk false s t ∧ WritesPoint d pt s t)
    ∧ (∀ e, s.curveOk = true →
        psmul s.curve.p.toNat s.curve.a.toNat (s.readPT a) (s.readS k) = .error e → Raises (.psmul d a k) 2 s)
    ∧ (s.curveOk = false → Raises (.psmul d a k) 7 s)

/-- R108: PBMUL, psmul of the generator; S[k] = 1 gives the generator as stored. -/
def Obligations.PbmulCommand : Prop :=
  ∀ (s : State) (d : PReg) (k : SReg),
    (encode (.pbmul d k)).toNat = wordNumber 0x23 d k 0 0 0
    ∧ (∀ pt, s.curveOk = true →
        psmul s.curve.p.toNat s.curve.a.toNat (.aff s.curve.gx.toNat s.curve.gy.toNat) (s.readS k) = .ok pt →
        ∃ t, exec (.pbmul d k) s = .next t ∧ CompletedOk false s t ∧ WritesPoint d pt s t)
    ∧ (s.curveOk = true → s.readS k = 1 →
        ∃ t, exec (.pbmul d k) s = .next t ∧ CompletedOk false s t
          ∧ WritesPoint d (.aff s.curve.gx.toNat s.curve.gy.toNat) s t)
    ∧ (∀ e, s.curveOk = true →
        psmul s.curve.p.toNat s.curve.a.toNat (.aff s.curve.gx.toNat s.curve.gy.toNat) (s.readS k) = .error e →
        Raises (.pbmul d k) 2 s)
    ∧ (s.curveOk = false → Raises (.pbmul d k) 7 s)

/-! ### Validation and sampling -/

/-- R111, R114: SCHK never fails and writes RESULT only. -/
def Obligations.SchkCommand : Prop :=
  ∀ (s : State) (a : SReg),
    (encode (.schk a)).toNat = wordNumber 0x30 0 a 0 0 0
    ∧ ∃ t b, exec (.schk a) s = .next t ∧ CompletedOk b s t ∧ OperandsKept s t
        ∧ (b = true ↔ s.curveOk = true ∧ ValidScalar s (s.readS a))

/-- R112, R115: PCHK never fails and writes RESULT only; INF gives 0. -/
def Obligations.PchkCommand : Prop :=
  ∀ (s : State) (a : PReg),
    (encode (.pchk a)).toNat = wordNumber 0x31 0 a 0 0 0
    ∧ ∃ t b, exec (.pchk a) s = .next t ∧ CompletedOk b s t ∧ OperandsKept s t
        ∧ (b = true ↔ s.curveOk = true ∧ OnCurve s (s.readPT a))

/-- R113, R116: PKCHK never fails and writes RESULT only. -/
def Obligations.PkchkCommand : Prop :=
  ∀ (s : State) (a : PReg),
    (encode (.pkchk a)).toNat = wordNumber 0x32 0 a 0 0 0
    ∧ ∃ t b, exec (.pkchk a) s = .next t ∧ CompletedOk b s t ∧ OperandsKept s t
        ∧ (b = true ↔ s.curveOk = true ∧ ValidKey s (s.readPT a))

/-- R117, R118: RSAMPLE, turn by turn: it requests a byte, collects CW of them with the first most significant,
writes the first draw in (0, n), discards every other draw and starts again, and ends at once on a failure. -/
def Obligations.RsampleCommand : Prop :=
  ∀ (s : State) (d : SReg),
    (encode (.rsample d)).toNat = wordNumber 0x40 d 0 0 0 0
    ∧ (s.curveOk = true → s.engine = .busy .ready → Requests (.rsample d) [] s)
    ∧ (∀ drawn, s.curveOk = true → s.engine = .busy (.answered drawn .failure) → Raises (.rsample d) 5 s)
    ∧ (∀ (drawn : List Byte) (v : Byte), s.curveOk = true → s.engine = .busy (.answered drawn (.byte v)) →
        (drawn.length + 1 < s.curve.cw.toNat → Requests (.rsample d) (drawn ++ [v]) s)
        ∧ (s.curve.cw.toNat ≤ drawn.length + 1 → ¬ ValidScalar s (bytesValue drawn * 256 + v.toNat) →
            Requests (.rsample d) [] s)
        ∧ (s.curve.cw.toNat ≤ drawn.length + 1 → ValidScalar s (bytesValue drawn * 256 + v.toNat) →
            ∃ t, exec (.rsample d) s = .next t ∧ CompletedOk false s t
              ∧ WritesScalar d (bytesValue drawn * 256 + v.toNat) s t))
    ∧ (s.curveOk = false → Raises (.rsample d) 7 s)

/-- R117, R119: a run of RSAMPLE through any number of rejected draws and one accepted draw completes with the
big-endian value of the accepted draw, having taken exactly the bytes of those draws. -/
def Obligations.RsampleRunYieldsFirstValidDraw : Prop :=
  ∀ (s : State) (d : SReg) (rejected : List (List Byte)) (good : List Byte) (rest : List Event),
    s.curveOk = true → s.engine = .busy .ready → s.cmd = encode (.rsample d) →
    (∀ draw ∈ rejected, draw.length = s.curve.cw.toNat ∧ ¬ ValidScalar s (bytesValue draw)) →
    good.length = s.curve.cw.toNat → ValidScalar s (bytesValue good) →
    s.inputs = drawEvents (rejected.flatten ++ good) ++ rest →
    ∃ t, core.run (2 * (rejected.flatten ++ good).length + 1) s = .next t
      ∧ CompletedOk false { s with inputs := rest, response := none } t
      ∧ WritesScalar d (bytesValue good) s t

/-! ### ECDSA -/

/-- R120: DERIVE. -/
def Obligations.DeriveCommand : Prop :=
  ∀ (s : State) (d : PReg) (key : SReg),
    (encode (.derive d key)).toNat = wordNumber 0x41 d key 0 0 0
    ∧ (s.curveOk = true → ¬ ValidScalar s (s.readS key) → Raises (.derive d key) 1 s)
    ∧ (∀ pt, s.curveOk = true → ValidScalar s (s.readS key) →
        psmul s.curve.p.toNat s.curve.a.toNat (.aff s.curve.gx.toNat s.curve.gy.toNat) (s.readS key)
          = .ok pt →
        ∃ t, exec (.derive d key) s = .next t ∧ CompletedOk false s t ∧ WritesPoint d pt s t)
    ∧ (∀ e, s.curveOk = true → ValidScalar s (s.readS key) →
        psmul s.curve.p.toNat s.curve.a.toNat (.aff s.curve.gx.toNat s.curve.gy.toNat) (s.readS key)
          = .error e → Raises (.derive d key) 2 s)
    ∧ (s.curveOk = false → Raises (.derive d key) 7 s)

/-- R73 (f), R123, R137: SIGN's checks in their order, and its requests: equal destinations, curve_ok, the key
before any byte, then the draw of the nonce. -/
def Obligations.SignChecksThenDraws : Prop :=
  ∀ (s : State) (r sd h key : SReg),
    (encode (.sign r sd h key)).toNat = wordNumber 0x42 r sd h key 0
    ∧ (r = sd → Raises (.sign r sd h key) 6 s)
    ∧ (r ≠ sd → s.curveOk = false → Raises (.sign r sd h key) 7 s)
    ∧ (r ≠ sd → s.curveOk = true → ¬ ValidScalar s (s.readS key) → Raises (.sign r sd h key) 1 s)
    ∧ (r ≠ sd → s.curveOk = true → ValidScalar s (s.readS key) →
        (s.engine = .busy .ready → Requests (.sign r sd h key) [] s)
        ∧ (∀ drawn, s.engine = .busy (.answered drawn .failure) → Raises (.sign r sd h key) 5 s)
        ∧ (∀ (drawn : List Byte) (v : Byte), s.engine = .busy (.answered drawn (.byte v)) →
            (drawn.length + 1 < s.curve.cw.toNat → Requests (.sign r sd h key) (drawn ++ [v]) s)
            ∧ (s.curve.cw.toNat ≤ drawn.length + 1 →
                ¬ ValidScalar s (bytesValue drawn * 256 + v.toNat) → Requests (.sign r sd h key) [] s)))

/-- R122, R123: what SIGN does with a nonce k that rsample accepts, D being S[key] and h being S[h]: it retries on
P = INF, r = 0 and s = 0, raises ArithmeticError when k has no inverse, and else writes r = P.x mod n and the s
with k * s congruent to h + r * D. -/
def Obligations.SignNonceEquation : Prop :=
  ∀ (s : State) (r sd h key : SReg) (drawn : List Byte) (v : Byte) (k : Nat),
    r ≠ sd → s.curveOk = true → ValidScalar s (s.readS key) →
    s.engine = .busy (.answered drawn (.byte v)) → s.curve.cw.toNat ≤ drawn.length + 1 →
    k = bytesValue drawn * 256 + v.toNat → ValidScalar s k →
    (∀ e, psmul s.curve.p.toNat s.curve.a.toNat (.aff s.curve.gx.toNat s.curve.gy.toNat) k = .error e →
      Raises (.sign r sd h key) 2 s)
    ∧ (psmul s.curve.p.toNat s.curve.a.toNat (.aff s.curve.gx.toNat s.curve.gy.toNat) k = .ok .inf →
      Requests (.sign r sd h key) [] s)
    ∧ (∀ x y rv sv : Nat,
        psmul s.curve.p.toNat s.curve.a.toNat (.aff s.curve.gx.toNat s.curve.gy.toNat) k = .ok (.aff x y) →
        rv = x % s.curve.n.toNat →
        (rv = 0 → Requests (.sign r sd h key) [] s)
        ∧ (rv ≠ 0 → Nat.gcd k s.curve.n.toNat ≠ 1 → Raises (.sign r sd h key) 2 s)
        ∧ (rv ≠ 0 → Nat.gcd k s.curve.n.toNat = 1 → sv < s.curve.n.toNat →
            (k * sv) % s.curve.n.toNat = (s.readS h + rv * s.readS key) % s.curve.n.toNat →
            (sv = 0 → Requests (.sign r sd h key) [] s)
            ∧ (sv ≠ 0 → ∃ t, exec (.sign r sd h key) s = .next t ∧ CompletedOk false s t
                ∧ t.readS r = rv ∧ t.readS sd = sv
                ∧ (∀ j, j ≠ r → j ≠ sd → t.sreg.get j = s.sreg.get j)
                ∧ PointsKept s t ∧ t.curve = s.curve ∧ BufferKept s t)))

/-- R124, R125: VERIFY: 0 for a bad signature or key, ArithmeticError when s has no inverse or a point unit
raises it, else whether the x of u1 * G + u2 * Q is r mod n; it writes RESULT only. -/
def Obligations.VerifyCommand : Prop :=
  ∀ (s : State) (h r sr : SReg) (q : PReg),
    (encode (.verify h r sr q)).toNat = wordNumber 0x43 h r sr q 0
    ∧ (s.curveOk = false → Raises (.verify h r sr q) 7 s)
    ∧ (s.curveOk = true →
        ¬ (ValidScalar s (s.readS r) ∧ ValidScalar s (s.readS sr) ∧ ValidKey s (s.readPT q)) →
        ∃ t, exec (.verify h r sr q) s = .next t ∧ CompletedOk false s t ∧ OperandsKept s t)
    ∧ (s.curveOk = true → ValidScalar s (s.readS r) → ValidScalar s (s.readS sr) → ValidKey s (s.readPT q) →
        (Nat.gcd (s.readS sr) s.curve.n.toNat ≠ 1 → Raises (.verify h r sr q) 2 s)
        ∧ (∀ w u1 u2 : Nat, w < s.curve.n.toNat → (s.readS sr * w) % s.curve.n.toNat = 1 →
            u1 = s.readS h * w % s.curve.n.toNat → u2 = s.readS r * w % s.curve.n.toNat →
            (∀ e, psmul s.curve.p.toNat s.curve.a.toNat (.aff s.curve.gx.toNat s.curve.gy.toNat) u1
                = .error e → Raises (.verify h r sr q) 2 s)
            ∧ (∀ e, psmul s.curve.p.toNat s.curve.a.toNat (s.readPT q) u2 = .error e →
                Raises (.verify h r sr q) 2 s)
            ∧ (∀ p1 p2,
                psmul s.curve.p.toNat s.curve.a.toNat (.aff s.curve.gx.toNat s.curve.gy.toNat) u1 = .ok p1 →
                psmul s.curve.p.toNat s.curve.a.toNat (s.readPT q) u2 = .ok p2 →
                (∀ e, padd s.curve.p.toNat s.curve.a.toNat p1 p2 = .error e →
                  Raises (.verify h r sr q) 2 s)
                ∧ (∀ pt, padd s.curve.p.toNat s.curve.a.toNat p1 p2 = .ok pt →
                  ∃ t b, exec (.verify h r sr q) s = .next t ∧ CompletedOk b s t ∧ OperandsKept s t
                    ∧ (b = true ↔ ∃ x y, pt = .aff x y ∧ x % s.curve.n.toNat = s.readS r)))))

/-! ### Codec -/

/-- R127: PENC. -/
def Obligations.PencCommand : Prop :=
  ∀ (s : State) (a : PReg),
    (encode (.penc a)).toNat = wordNumber 0x50 0 a 0 0 0
    ∧ (s.curveOk = true → s.readPT a = .inf → Raises (.penc a) 3 s)
    ∧ (∀ x y, s.curveOk = true → s.readPT a = .aff x y →
        2 ^ (8 * s.curve.cw.toNat) ≤ x ∨ 2 ^ (8 * s.curve.cw.toNat) ≤ y → Raises (.penc a) 3 s)
    ∧ (∀ x y, Memory.wf s.buf → s.curveOk = true → s.readPT a = .aff x y →
        x < 2 ^ (8 * s.curve.cw.toNat) → y < 2 ^ (8 * s.curve.cw.toNat) →
        ∃ t, exec (.penc a) s = .next t ∧ CompletedOk false s t
          ∧ WritesBuffer (2 * s.curve.cw.toNat)
              (fun j => if j < s.curve.cw.toNat then beByte s.curve.cw.toNat x j
                else beByte s.curve.cw.toNat y (j - s.curve.cw.toNat)) s t)
    ∧ (s.curveOk = false → Raises (.penc a) 7 s)

/-- R128: PDEC keeps the coordinates as they stand, unreduced. -/
def Obligations.PdecCommand : Prop :=
  ∀ (s : State) (d : PReg),
    (encode (.pdec d)).toNat = wordNumber 0x51 d 0 0 0 0
    ∧ (s.curveOk = true → s.buflen.toNat ≠ 2 * s.curve.cw.toNat → Raises (.pdec d) 4 s)
    ∧ (s.curveOk = true → s.buflen.toNat = 2 * s.curve.cw.toNat →
        ∃ t, exec (.pdec d) s = .next t ∧ CompletedOk false s t
          ∧ WritesPoint d (.aff (bufferValue s 0 s.curve.cw.toNat)
              (bufferValue s s.curve.cw.toNat s.curve.cw.toNat)) s t)
    ∧ (s.curveOk = false → Raises (.pdec d) 7 s)

/-- R129: PCOMP. -/
def Obligations.PcompCommand : Prop :=
  ∀ (s : State) (a : PReg),
    (encode (.pcomp a)).toNat = wordNumber 0x52 0 a 0 0 0
    ∧ (s.curveOk = true → ¬ ValidKey s (s.readPT a) → Raises (.pcomp a) 1 s)
    ∧ (∀ x y, Memory.wf s.buf → s.curveOk = true → s.readPT a = .aff x y → ValidKey s (.aff x y) →
        ∃ t, exec (.pcomp a) s = .next t ∧ CompletedOk false s t
          ∧ WritesBuffer (s.curve.cw.toNat + 1)
              (fun j => if j = 0 then 2 + y % 2 else beByte s.curve.cw.toNat x (j - 1)) s t)
    ∧ (s.curveOk = false → Raises (.pcomp a) 7 s)

/-- R130, R131: PDECOMP, its checks in their order; the point it writes is a valid key. -/
def Obligations.PdecompCommand : Prop :=
  ∀ (s : State) (d : PReg) (t x rhs y : Nat),
    t = (Memory.read s.buf 0).toNat → x = bufferValue s 1 s.curve.cw.toNat →
    rhs = (x ^ 3 + s.curve.a.toNat * x + s.curve.b.toNat) % s.curve.p.toNat →
    y = rhs ^ ((s.curve.p.toNat + 1) / 4) % s.curve.p.toNat →
    (encode (.pdecomp d)).toNat = wordNumber 0x53 d 0 0 0 0
    ∧ (s.curveOk = false → Raises (.pdecomp d) 7 s)
    ∧ (s.curveOk = true →
        (s.buflen.toNat ≠ s.curve.cw.toNat + 1 → Raises (.pdecomp d) 4 s)
        ∧ (s.buflen.toNat = s.curve.cw.toNat + 1 →
            (t ≠ 2 → t ≠ 3 → Raises (.pdecomp d) 4 s)
            ∧ (t = 2 ∨ t = 3 →
                (s.curve.p.toNat % 4 ≠ 3 → Raises (.pdecomp d) 8 s)
                ∧ (s.curve.p.toNat % 4 = 3 →
                    (s.curve.p.toNat ≤ x → Raises (.pdecomp d) 4 s)
                    ∧ (x < s.curve.p.toNat →
                        (y * y % s.curve.p.toNat ≠ rhs → Raises (.pdecomp d) 4 s)
                        ∧ (y * y % s.curve.p.toNat = rhs →
                            (y = 0 → t = 3 → Raises (.pdecomp d) 4 s)
                            ∧ (y ≠ 0 ∨ t = 2 →
                                ∃ u yy, exec (.pdecomp d) s = .next u ∧ CompletedOk false s u
                                  ∧ WritesPoint d (.aff x yy) s u ∧ ValidKey s (.aff x yy)
                                  ∧ yy % 2 = t - 2 ∧ (yy = y ∨ yy = s.curve.p.toNat - y))))))))

/-- R132: PDEC after PENC gives back every affine point with coordinates in [0, p). -/
def Obligations.DecodingAnEncodedPointGivesItBack : Prop :=
  ∀ (s t : State) (a d : PReg) (x y : Nat), Memory.wf s.buf → s.curveOk = true → s.readPT a = .aff x y →
    x < s.curve.p.toNat → y < s.curve.p.toNat → exec (.penc a) s = .next t →
    ∃ u, exec (.pdec d) t = .next u ∧ CompletedOk false t u ∧ WritesPoint d (.aff x y) t u

/-- R132: PDECOMP after PCOMP gives back every valid public key, for a prime p ≡ 3 (mod 4). -/
def Obligations.DecompressingACompressedKeyGivesItBack : Prop :=
  ∀ (s t : State) (a d : PReg), Memory.wf s.buf → s.curveOk = true → s.curve.p.toNat.Prime → s.curve.p.toNat % 4 = 3 →
    ValidKey s (s.readPT a) → exec (.pcomp a) s = .next t →
    ∃ u, exec (.pdecomp d) t = .next u ∧ CompletedOk false t u ∧ WritesPoint d (s.readPT a) t u
end

