-- ==== Sys2Proof/Laws/Arith.lean ====
section
/-! SUPPORT. The modular units (R94, R99, R12) and the modular power of sqrtp (R130). -/

namespace Sys2Proof.Machine

/-- subm is the floor modulo (R94). -/
theorem subm_cast {u v m : Nat} (h : 0 < m) : (subm u v m : Int) = ((u : Int) - v) % m := by
  unfold subm
  rw [Int.toNat_of_nonneg (Int.emod_nonneg _ (by omega))]

theorem subm_lt {u v m : Nat} (h : 0 < m) : subm u v m < m := by
  have := subm_cast (u := u) (v := v) h
  have := Int.emod_lt_of_pos ((u : Int) - v) (b := m) (by omega)
  omega

theorem addm_lt {u v m : Nat} (h : 0 < m) : addm u v m < m := Nat.mod_lt _ h
theorem mulm_lt {u v m : Nat} (h : 0 < m) : mulm u v m < m := Nat.mod_lt _ h

/-- The loop of Euclid ends with a factor of the gcd. -/
theorem euclid_spec (u m : Int) (fuel r0 r1 : Nat) (t0 t1 : Int) (hf : r1 ≤ fuel)
    (h0 : t0 * u ≡ r0 [ZMOD m]) (h1 : t1 * u ≡ r1 [ZMOD m]) (hz : fuel = 0 → r1 = 0) :
    euclid fuel r0 r1 t0 t1 * u ≡ Nat.gcd r0 r1 [ZMOD m] := by
  induction fuel generalizing r0 r1 t0 t1 with
  | zero =>
    have : r1 = 0 := by omega
    subst this
    simpa [euclid] using h0
  | succ n ih =>
    unfold euclid
    by_cases hr : r1 = 0
    · subst hr
      simpa using h0
    · rw [if_neg hr]
      have hlt : r0 % r1 < r1 := Nat.mod_lt _ (Nat.pos_of_ne_zero hr)
      have hg : Nat.gcd r1 (r0 % r1) = Nat.gcd r0 r1 := by
        rw [Nat.gcd_comm r0 r1, Nat.gcd_rec r1 r0, Nat.gcd_comm]
      rw [← hg]
      refine ih r1 (r0 % r1) t1 _ (by omega) h1 ?_ (by omega)
      have e : (t0 - (r0 / r1 : Nat) * t1) * u = t0 * u - (r0 / r1 : Nat) * (t1 * u) := by ring
      have e' : ((r0 % r1 : Nat) : Int) = r0 - (r0 / r1 : Nat) * r1 := by
        have := Nat.div_add_mod r0 r1
        push_cast
        have h2 : (r0 : Int) = r1 * (r0 / r1) + r0 % r1 := by exact_mod_cast this.symm
        linarith [mul_comm (r1 : Int) ((r0 : Int) / r1)]
      rw [e, e']
      exact h0.sub (h1.mul_left _)

/-- The inverse of an invertible value (R12, R99). -/
theorem inverse_spec {a m : Nat} (hm : 2 ≤ m) (hg : Nat.gcd (a % m) m = 1) :
    1 ≤ inverse a m ∧ inverse a m < m ∧ a * inverse a m % m = 1 := by
  have key : euclid m m (a % m) 0 1 * ((a % m : Nat) : Int) ≡ 1 [ZMOD m] := by
    have := euclid_spec (a % m : Nat) m m m (a % m) 0 1 (Nat.mod_lt _ (by omega)).le
      (by simp [Int.ModEq]) (by simp [Int.ModEq]) (by omega)
    rwa [Nat.gcd_comm, hg] at this
  have hpos : (0 : Int) ≤ euclid m m (a % m) 0 1 % m := Int.emod_nonneg _ (by omega)
  have hcast : (inverse a m : Int) = euclid m m (a % m) 0 1 % m := Int.toNat_of_nonneg hpos
  have hlt : inverse a m < m := by
    have := Int.emod_lt_of_pos (euclid m m (a % m) 0 1) (b := m) (by omega)
    omega
  have hmul : a * inverse a m % m = 1 := by
    have h1 : ((a * inverse a m : Nat) : Int) ≡ 1 [ZMOD m] := by
      push_cast
      rw [hcast]
      have ha : (a : Int) ≡ ((a % m : Nat) : Int) [ZMOD m] := by
        simp [Int.ModEq]
      calc (a : Int) * (euclid m m (a % m) 0 1 % m)
          ≡ ((a % m : Nat) : Int) * euclid m m (a % m) 0 1 [ZMOD m] := ha.mul (Int.mod_modEq _ _)
        _ ≡ 1 [ZMOD m] := by rw [mul_comm]; exact key
    have h2 : a * inverse a m ≡ 1 [MOD m] := by exact_mod_cast Int.natCast_modEq_iff.1 h1
    rw [Nat.ModEq, Nat.mod_eq_of_lt (show 1 < m by omega)] at h2
    exact h2
  refine ⟨?_, hlt, hmul⟩
  rcases Nat.eq_zero_or_pos (inverse a m) with h | h
  · simp [h] at hmul
  · exact h

/-- An inverse below the modulus is unique (R12). -/
theorem inverse_unique {a m x : Nat} (hm : 2 ≤ m) (hx : x < m) (h : a * x % m = 1) : x = inverse a m := by
  have hg : Nat.gcd (a % m) m = 1 := by
    have h1 : (a * x).Coprime m := by
      rw [Nat.Coprime, ← Nat.mod_add_div (a * x) m, h]
      simp
    have := h1.coprime_mul_right
    rwa [← Nat.gcd_rec, Nat.gcd_comm]
  obtain ⟨-, hlt, hmul⟩ := inverse_spec hm hg
  have hc : a * x ≡ a * inverse a m [MOD m] := by rw [Nat.ModEq, h, hmul]
  have hcop : m.gcd a = 1 := by rw [Nat.gcd_rec]; exact hg
  have := Nat.ModEq.cancel_left_of_coprime hcop hc
  rwa [Nat.ModEq, Nat.mod_eq_of_lt hx, Nat.mod_eq_of_lt hlt] at this

/-- invm answers the inverse when there is one (R94). -/
theorem invm_ok {u m : Nat} (h : Nat.gcd (u % m) m = 1) : invm u m = .ok (inverse u m) := by
  simp [invm, h]

/-- invm fails with ArithmeticError when there is none (R94, R99). -/
theorem invm_error {u m : Nat} (h : Nat.gcd (u % m) m ≠ 1) : invm u m = .error .arithmetic := by
  simp [invm, h]

theorem gcd_mod_left (u m : Nat) : Nat.gcd (u % m) m = Nat.gcd u m := by
  rw [← Nat.gcd_rec, Nat.gcd_comm]

/-! ### The units as residues -/

@[simp] theorem addm_residue {u v m : Nat} : ((addm u v m : Nat) : ZMod m) = u + v := by simp [addm]

@[simp] theorem mulm_residue {u v m : Nat} : ((mulm u v m : Nat) : ZMod m) = u * v := by simp [mulm]

theorem subm_residue {u v m : Nat} (h : 0 < m) : ((subm u v m : Nat) : ZMod m) = u - v := by
  have : ((subm u v m : Int) : ZMod m) = (((u : Int) - v : Int) : ZMod m) := by
    rw [subm_cast h]
    simp
  simpa using this

theorem inverse_residue {u m : Nat} (hm : 2 ≤ m) (h : Nat.gcd (u % m) m = 1) :
    (u : ZMod m) * inverse u m = 1 := by
  have h1 := (inverse_spec hm h).2.2
  have h2 : u * inverse u m ≡ 1 [MOD m] := by rw [Nat.ModEq, h1, Nat.mod_eq_of_lt (by omega)]
  have := (ZMod.natCast_eq_natCast_iff _ _ _).2 h2
  simpa using this

/-! ### Bits and powers -/

@[simp] theorem bitlen_zero : bitlen 0 = 0 := rfl

theorem lt_two_pow_bitlen (v : Nat) : v < 2 ^ bitlen v := by
  unfold bitlen
  split
  · simp [*]
  · exact Nat.lt_log2_self

theorem bitlen_bit (k : Nat) (b : Bool) (h : 2 * k + b.toNat ≠ 0) : bitlen (2 * k + b.toNat) = bitlen k + 1 := by
  unfold bitlen
  rw [if_neg h]
  by_cases hk : k = 0
  · subst hk
    cases b
    · simp at h
    · decide
  · have hb := b.toNat_lt
    have hd : (2 * k + b.toNat) / 2 = k := by omega
    have h2 : 2 ≤ 2 * k + b.toNat := by omega
    have hl : Nat.log2 (2 * k + b.toNat) = Nat.log2 k + 1 := by
      rw [Nat.log2_def, if_pos h2, hd]
    rw [if_neg hk, hl]

theorem powModLoop_eq (base e m i acc : Nat) :
    powModLoop base e m i acc % m = acc ^ (2 ^ i) * base ^ (e % 2 ^ i) % m := by
  induction i generalizing acc with
  | zero => simp [powModLoop, Nat.mod_one]
  | succ i ih =>
    rw [powModLoop, ih, Nat.mod_pow_succ, ← Nat.toNat_testBit]
    have hp : ∀ x y : Nat, x % m = y % m → x ^ (2 ^ i) * base ^ (e % 2 ^ i) % m = y ^ (2 ^ i) * base ^ (e % 2 ^ i) % m :=
      fun x y h => ((Nat.ModEq.pow _ h).mul_right _)
    by_cases hb : e.testBit i
    · have := hp (acc * acc % m * base % m) (acc * acc * base) (by simp [Nat.mul_mod])
      simp only [hb, if_true, Bool.toNat_true, mul_one]
      rw [this]
      congr 1
      rw [mul_pow, ← pow_two, ← pow_mul, ← pow_succ', pow_add]
      ring
    · have := hp (acc * acc % m) (acc * acc) (by simp)
      simp only [hb, Bool.false_eq_true, if_false, Bool.toNat_false, mul_zero, add_zero]
      rw [this]
      congr 1
      rw [← pow_two, ← pow_mul, ← pow_succ']

theorem powModLoop_lt {base e m i acc : Nat} (hm : 0 < m) (h : acc < m) : powModLoop base e m i acc < m := by
  induction i generalizing acc with
  | zero => exact h
  | succ i ih =>
    unfold powModLoop
    refine ih ?_
    split <;> exact Nat.mod_lt _ hm

/-- powMod is the power reduced (R130). -/
theorem powMod_eq {m : Nat} (hm : 0 < m) (base e : Nat) : powMod base e m = base ^ e % m := by
  have h1 := powModLoop_eq base e m (bitlen e) (1 % m)
  have h2 : powMod base e m < m := powModLoop_lt hm (Nat.mod_lt _ hm)
  have h3 : e % 2 ^ bitlen e = e := Nat.mod_eq_of_lt (lt_two_pow_bitlen e)
  rw [h3] at h1
  unfold powMod at h2 ⊢
  rw [Nat.mod_eq_of_lt h2] at h1
  rw [h1]
  have : (1 % m) ^ 2 ^ bitlen e ≡ 1 [MOD m] := by
    simpa using (Nat.mod_modEq 1 m).pow (2 ^ bitlen e)
  have h4 := this.mul_right (base ^ e)
  rwa [one_mul] at h4

end Sys2Proof.Machine
end

