-- ==== Sys2Proof/Laws/Bytes.lean ====
section
/-! SUPPORT. Big-endian byte strings (R13): BE and BE_N are inverse to each other, and their digits. -/

namespace Sys2Proof.Machine

@[simp] theorem length_bytesOf (len v : Nat) : (bytesOf len v).length = len := by
  induction len generalizing v with
  | zero => rfl
  | succ n ih => simp [bytesOf, ih]

/-- One more byte at the end of a string: its value is shifted by 256. -/
theorem bytesValue_append_one (bs : List Byte) (v : Byte) :
    bytesValue (bs ++ [v]) = bytesValue bs * 256 + v.toNat := by
  simp [bytesValue, List.foldl_append]

@[simp] theorem bytesValue_nil : bytesValue [] = 0 := rfl

/-- BE of BE_N (R13). -/
theorem bytesValue_bytesOf {len v : Nat} (h : v < 256 ^ len) : bytesValue (bytesOf len v) = v := by
  induction len generalizing v with
  | zero =>
    have : v = 0 := by simpa using h
    simp [bytesOf, this]
  | succ n ih =>
    have h' : v / 256 < 256 ^ n := by
      rw [Nat.div_lt_iff_lt_mul (by norm_num)]
      simpa [pow_succ] using h
    rw [bytesOf, bytesValue_append_one, ih h']
    simp
    omega

/-- The value of an N-byte string is below 256^N (R13). -/
theorem bytesValue_lt (bs : List Byte) : bytesValue bs < 256 ^ bs.length := by
  induction bs using List.reverseRecOn with
  | nil => simp
  | append_singleton bs v ih =>
    rw [bytesValue_append_one, List.length_append, List.length_singleton, pow_succ]
    have := v.isLt
    omega

/-- BE_N of BE (R13). -/
theorem bytesOf_bytesValue (bs : List Byte) : bytesOf bs.length (bytesValue bs) = bs := by
  induction bs using List.reverseRecOn with
  | nil => rfl
  | append_singleton bs v ih =>
    rw [List.length_append, List.length_singleton, bytesOf, bytesValue_append_one]
    have hv := v.isLt
    have h1 : (bytesValue bs * 256 + v.toNat) / 256 = bytesValue bs := by omega
    rw [h1, ih]
    congr 2
    apply BitVec.eq_of_toNat_eq
    simp
    omega

/-- Byte `j` of BE_N(v) (R13). -/
theorem getElem_bytesOf (len v j : Nat) (h : j < (bytesOf len v).length) :
    (bytesOf len v)[j].toNat = v / 256 ^ (len - 1 - j) % 256 := by
  induction len generalizing v with
  | zero => simp [bytesOf] at h
  | succ n ih =>
    simp only [length_bytesOf] at h
    simp only [bytesOf]
    by_cases hj : j < n
    · rw [List.getElem_append_left (by simpa using hj), ih _ (by simpa using hj)]
      have : n + 1 - 1 - j = (n - 1 - j) + 1 := by omega
      rw [this, pow_succ', Nat.div_div_eq_div_mul]
    · have hj : j = n := by omega
      subst hj
      simp

/-- The value of a string as the sum of R13. -/
theorem bytesValue_eq_sum (bs : List Byte) :
    bytesValue bs = ∑ i ∈ Finset.range bs.length, (bs[i]?.getD 0).toNat * 256 ^ (bs.length - 1 - i) := by
  induction bs using List.reverseRecOn with
  | nil => rfl
  | append_singleton bs v ih =>
    rw [bytesValue_append_one, ih, List.length_append, List.length_singleton, Finset.sum_range_succ,
      Finset.sum_mul]
    congr 1
    · refine Finset.sum_congr rfl fun i hi => ?_
      have hi : i < bs.length := Finset.mem_range.1 hi
      have e : bs.length + 1 - 1 - i = (bs.length - 1 - i) + 1 := by omega
      rw [e, pow_succ, List.getElem?_append_left hi, mul_assoc]
    · simp

end Sys2Proof.Machine
end

