-- ==== Sys2Proof/Laws/Memory.lean ====
section
/-! SUPPORT. BUF as a canonical list of cells: reads after writes, and every write keeps the canonical form. -/

namespace Sys2Proof.Machine

theorem read_eq_zero_of_lt {m : Memory} {a : Nat} (h : ∀ c ∈ m, a < c.1) : Memory.read m a = 0#8 := by
  induction m with
  | nil => rfl
  | cons c rest ih =>
    obtain ⟨b, w⟩ := c
    have hb : a < b := h _ (List.mem_cons_self ..)
    have hr := ih (fun c hc => h c (List.mem_cons_of_mem _ hc))
    simp [Memory.read, Nat.ne_of_lt hb, hr]

/-- A read after a write: the byte written at its index, every other byte as before. -/
theorem read_write {m : Memory} (h : m.Pairwise (fun c d => c.1 < d.1)) (a b : Nat) (v : Byte) :
    Memory.read (Memory.write m a v) b = if b = a then v else Memory.read m b := by
  induction m with
  | nil =>
    by_cases hv : v = 0#8 <;> by_cases hb : b = a <;> simp [Memory.write, Memory.read, hv, hb]
  | cons c rest ih =>
    obtain ⟨i, w⟩ := c
    rw [List.pairwise_cons] at h
    have hz : ∀ j, j ≤ i → Memory.read rest j = 0#8 := fun j hj =>
      read_eq_zero_of_lt (fun c hc => Nat.lt_of_le_of_lt hj (h.1 c hc))
    have ih := ih h.2
    by_cases hlt : a < i
    · have hai : a ≠ i := Nat.ne_of_lt hlt
      by_cases hv : v = 0#8
      · by_cases hb : b = a
        · subst hb; simp [Memory.write, Memory.read, hlt, hv, hai, hz b hlt.le]
        · simp [Memory.write, Memory.read, hlt, hv, hb]
      · by_cases hb : b = a <;> simp [Memory.write, Memory.read, hlt, hv, hb]
    · by_cases hai : a = i
      · subst hai
        by_cases hv : v = 0#8
        · by_cases hb : b = a
          · subst hb; simp [Memory.write, hv, hz b le_rfl]
          · simp [Memory.write, Memory.read, hv, hb]
        · by_cases hb : b = a <;> simp [Memory.write, Memory.read, hv, hb]
      · by_cases hb : b = i
        · have : b ≠ a := fun h => hai (h ▸ hb)
          simp [Memory.write, Memory.read, hlt, hai, hb, Ne.symm hai]
        · simp [Memory.write, Memory.read, hlt, hai, hb, ih]

theorem mem_write {m : Memory} {a : Nat} {v : Byte} {c : Host.Cell} (h : c ∈ Memory.write m a v) :
    c ∈ m ∨ (c = (a, v) ∧ v ≠ 0#8) := by
  induction m with
  | nil => by_cases hv : v = 0#8 <;> simp_all [Memory.write]
  | cons d rest ih =>
    obtain ⟨i, w⟩ := d
    unfold Memory.write at h
    split_ifs at h <;> simp_all <;> tauto

theorem pairwise_write {m : Memory} (h : m.Pairwise (fun c d => c.1 < d.1)) (a : Nat) (v : Byte) :
    (Memory.write m a v).Pairwise (fun c d => c.1 < d.1) := by
  induction m with
  | nil => by_cases hv : v = 0#8 <;> simp [Memory.write, hv]
  | cons d rest ih =>
    obtain ⟨i, w⟩ := d
    rw [List.pairwise_cons] at h
    unfold Memory.write
    split_ifs with h1 h2 h2 h3
    · exact List.pairwise_cons.2 h
    · refine List.pairwise_cons.2 ⟨fun c hc => ?_, List.pairwise_cons.2 h⟩
      rcases List.mem_cons.1 hc with rfl | hc
      · exact h1
      · exact h1.trans (h.1 c hc)
    · exact h.2
    · subst h2
      exact List.pairwise_cons.2 h
    · refine List.pairwise_cons.2 ⟨fun c hc => ?_, ih h.2⟩
      rcases mem_write hc with hc | ⟨rfl, -⟩
      · exact h.1 c hc
      · show i < a
        omega

/-- A write of a byte of BUF keeps the canonical form. -/
theorem wf_write {m : Memory} (h : Memory.wf m) {a : Nat} (ha : a < Config.bufBytes) (v : Byte) :
    Memory.wf (Memory.write m a v) :=
  ⟨pairwise_write h.1 a v, fun c hc => by
    rcases mem_write hc with hc | ⟨rfl, hv⟩
    · exact h.2 c hc
    · exact ⟨ha, hv⟩⟩

/-- Writing a byte string inside BUF keeps the canonical form. -/
theorem wf_writeBytes {m : Memory} (h : Memory.wf m) (vs : List Byte) {a : Nat}
    (ha : a + vs.length ≤ Config.bufBytes) : Memory.wf (Memory.writeBytes m a vs) := by
  induction vs generalizing m a with
  | nil => exact h
  | cons v vs ih =>
    simp only [List.length_cons] at ha
    exact ih (wf_write h (by omega) v) (by omega)

theorem pairwise_writeBytes {m : Memory} (h : m.Pairwise (fun c d => c.1 < d.1)) (a : Nat) (vs : List Byte) :
    (Memory.writeBytes m a vs).Pairwise (fun c d => c.1 < d.1) := by
  induction vs generalizing m a with
  | nil => exact h
  | cons v vs ih => exact ih (pairwise_write h a v) _

/-- A read after a byte string was written: the string inside its range, every other byte as before. -/
theorem read_writeBytes {m : Memory} (h : m.Pairwise (fun c d => c.1 < d.1)) (a : Nat) (vs : List Byte)
    (b : Nat) :
    Memory.read (Memory.writeBytes m a vs) b
      = if h : a ≤ b ∧ b - a < vs.length then vs[b - a] else Memory.read m b := by
  induction vs generalizing m a with
  | nil => simp [Memory.writeBytes]
  | cons v vs ih =>
    rw [Memory.writeBytes, ih (pairwise_write h a v), read_write h]
    by_cases hb : b = a
    · subst hb; simp
    · by_cases hr : a + 1 ≤ b ∧ b - (a + 1) < vs.length
      · have h2 : a ≤ b ∧ b - a < (v :: vs).length := by simp; omega
        rw [dif_pos hr, dif_pos h2]
        have : b - a = (b - (a + 1)) + 1 := by omega
        simp [this]
      · have h2 : ¬ (a ≤ b ∧ b - a < (v :: vs).length) := by simp at hr ⊢; omega
        rw [dif_neg hr, dif_neg h2, if_neg hb]

@[simp] theorem length_readBytes (m : Memory) (a len : Nat) : (Memory.readBytes m a len).length = len := by
  induction len generalizing a with
  | zero => rfl
  | succ n ih => simp [Memory.readBytes, ih]

theorem getElem_readBytes (m : Memory) (a len i : Nat) (h : i < (Memory.readBytes m a len).length) :
    (Memory.readBytes m a len)[i] = Memory.read m (a + i) := by
  induction len generalizing a i with
  | zero => simp [Memory.readBytes] at h
  | succ n ih =>
    cases i with
    | zero => rfl
    | succ i =>
      simp only [Memory.readBytes, List.getElem_cons_succ]
      rw [ih]
      congr 1
      omega

/-- A host write of a word of BUF keeps the canonical form. -/
theorem wf_putBufWord {m : Memory} (h : Memory.wf m) (k : Fin 32) (v : Word) : Memory.wf (putBufWord m k v) := by
  refine wf_writeBytes h _ ?_
  show 4 * k.val + 4 ≤ 128
  have := k.isLt
  omega

/-- The reset content of BUF is canonical (R41). -/
theorem wf_reset : Memory.wf State.reset.buf := ⟨List.Pairwise.nil, fun _ hc => nomatch hc⟩

end Sys2Proof.Machine
end

