-- ==== Sys2Proof/Laws/Registers.lean ====
section
/-! SUPPORT. The register files: a read after a write, of scalar and of point registers (R15, R32, R34, R35). -/

namespace Sys2Proof.Machine

/-- A read after a write of a register file. -/
@[simp] theorem get_set {α : Type} (v : Vector α 16) (i j : Fin 16) (x : α) :
    (v.set i.val x).get j = if j = i then x else v.get j := by
  have h : (v.set i.val x).get j = (v.set i.val x)[j.val] := rfl
  have h' : v.get j = v[j.val] := rfl
  rw [h, h', Vector.getElem_set]
  by_cases e : j = i
  · simp [e]
  · have : i.val ≠ j.val := fun h => e (Fin.ext h.symm)
    simp [e, this]

theorem get_replicate {α : Type} (x : α) (j : Fin 16) : (Vector.replicate 16 x).get j = x := by
  show (Vector.replicate 16 x)[j.val] = x
  simp

/-- `S[i]` after `S[i] <- v`, for a value that fits the register. -/
theorem readS_writeS_same (s : State) (i : SReg) {v : Nat} (h : v < 2 ^ 512) : (s.writeS i v).readS i = v := by
  simp [State.readS, State.writeS, Nat.mod_eq_of_lt h]

/-- `S[j]` after `S[i] <- v`. -/
theorem readS_writeS_other (s : State) {i j : SReg} (v : Nat) (h : j ≠ i) :
    (s.writeS i v).readS j = s.readS j := by
  simp [State.readS, State.writeS, h]

theorem readS_lt (s : State) (i : SReg) : s.readS i < 2 ^ 512 := (s.sreg.get i).isLt

/-- The coordinates of the point value fit the registers. -/
def Point.Fits : Point → Prop
  | .inf => True
  | .aff x y => x < 2 ^ 512 ∧ y < 2 ^ 512

/-- A point value read back from the contents it leaves (R34, R35). -/
theorem pointOf_pointRegOf {q : Point} (h : q.Fits) : pointOf (pointRegOf q) = q := by
  cases q with
  | inf => rfl
  | aff x y =>
    obtain ⟨hx, hy⟩ := h
    simp [pointOf, pointRegOf, Nat.mod_eq_of_lt hx, Nat.mod_eq_of_lt hy]

theorem fits_pointOf (r : PointReg) : (pointOf r).Fits := by
  unfold pointOf
  split
  · trivial
  · exact ⟨r.x.isLt, r.y.isLt⟩

theorem fits_readPT (s : State) (i : PReg) : (s.readPT i).Fits := fits_pointOf _

/-- `PT[i]` after `PT[i] <- q`. -/
theorem readPT_writePT_same (s : State) (i : PReg) {q : Point} (h : q.Fits) : (s.writePT i q).readPT i = q := by
  simp [State.readPT, State.writePT, pointOf_pointRegOf h]

/-- `PT[j]` after `PT[i] <- q`. -/
theorem readPT_writePT_other (s : State) {i j : PReg} (q : Point) (h : j ≠ i) :
    (s.writePT i q).readPT j = s.readPT j := by
  simp [State.readPT, State.writePT, h]

end Sys2Proof.Machine
end

