-- ==== Sys2Proof/Laws/State.lean ====
section
/-! SUPPORT. One lemma per field of State and shared update: what the update leaves in the field. All hold by rfl. -/

namespace Sys2Proof.Machine

/-! ### State.writeS -/

@[simp] theorem writeS_cmd (s : State) (i : SReg) (v : Nat) : (s.writeS i v).cmd = s.cmd := rfl
@[simp] theorem writeS_engine (s : State) (i : SReg) (v : Nat) : (s.writeS i v).engine = s.engine := rfl
@[simp] theorem writeS_done (s : State) (i : SReg) (v : Nat) : (s.writeS i v).done = s.done := rfl
@[simp] theorem writeS_err (s : State) (i : SReg) (v : Nat) : (s.writeS i v).err = s.err := rfl
@[simp] theorem writeS_result (s : State) (i : SReg) (v : Nat) : (s.writeS i v).result = s.result := rfl
@[simp] theorem writeS_cmdovr (s : State) (i : SReg) (v : Nat) : (s.writeS i v).cmdovr = s.cmdovr := rfl
@[simp] theorem writeS_wbusy (s : State) (i : SReg) (v : Nat) : (s.writeS i v).wbusy = s.wbusy := rfl
@[simp] theorem writeS_errcode (s : State) (i : SReg) (v : Nat) : (s.writeS i v).errcode = s.errcode := rfl
@[simp] theorem writeS_irqEn (s : State) (i : SReg) (v : Nat) : (s.writeS i v).irqEn = s.irqEn := rfl
@[simp] theorem writeS_buflen (s : State) (i : SReg) (v : Nat) : (s.writeS i v).buflen = s.buflen := rfl
@[simp] theorem writeS_curve (s : State) (i : SReg) (v : Nat) : (s.writeS i v).curve = s.curve := rfl
@[simp] theorem writeS_sreg (s : State) (i : SReg) (v : Nat) : (s.writeS i v).sreg = s.sreg.set i.val (BitVec.ofNat 512 v) := rfl
@[simp] theorem writeS_pt (s : State) (i : SReg) (v : Nat) : (s.writeS i v).pt = s.pt := rfl
@[simp] theorem writeS_buf (s : State) (i : SReg) (v : Nat) : (s.writeS i v).buf = s.buf := rfl
@[simp] theorem writeS_rst (s : State) (i : SReg) (v : Nat) : (s.writeS i v).rst = s.rst := rfl
@[simp] theorem writeS_inputs (s : State) (i : SReg) (v : Nat) : (s.writeS i v).inputs = s.inputs := rfl
@[simp] theorem writeS_response (s : State) (i : SReg) (v : Nat) : (s.writeS i v).response = s.response := rfl

/-! ### State.writePT -/

@[simp] theorem writePT_cmd (s : State) (i : PReg) (q : Point) : (s.writePT i q).cmd = s.cmd := rfl
@[simp] theorem writePT_engine (s : State) (i : PReg) (q : Point) : (s.writePT i q).engine = s.engine := rfl
@[simp] theorem writePT_done (s : State) (i : PReg) (q : Point) : (s.writePT i q).done = s.done := rfl
@[simp] theorem writePT_err (s : State) (i : PReg) (q : Point) : (s.writePT i q).err = s.err := rfl
@[simp] theorem writePT_result (s : State) (i : PReg) (q : Point) : (s.writePT i q).result = s.result := rfl
@[simp] theorem writePT_cmdovr (s : State) (i : PReg) (q : Point) : (s.writePT i q).cmdovr = s.cmdovr := rfl
@[simp] theorem writePT_wbusy (s : State) (i : PReg) (q : Point) : (s.writePT i q).wbusy = s.wbusy := rfl
@[simp] theorem writePT_errcode (s : State) (i : PReg) (q : Point) : (s.writePT i q).errcode = s.errcode := rfl
@[simp] theorem writePT_irqEn (s : State) (i : PReg) (q : Point) : (s.writePT i q).irqEn = s.irqEn := rfl
@[simp] theorem writePT_buflen (s : State) (i : PReg) (q : Point) : (s.writePT i q).buflen = s.buflen := rfl
@[simp] theorem writePT_curve (s : State) (i : PReg) (q : Point) : (s.writePT i q).curve = s.curve := rfl
@[simp] theorem writePT_sreg (s : State) (i : PReg) (q : Point) : (s.writePT i q).sreg = s.sreg := rfl
@[simp] theorem writePT_pt (s : State) (i : PReg) (q : Point) : (s.writePT i q).pt = s.pt.set i.val (pointRegOf q) := rfl
@[simp] theorem writePT_buf (s : State) (i : PReg) (q : Point) : (s.writePT i q).buf = s.buf := rfl
@[simp] theorem writePT_rst (s : State) (i : PReg) (q : Point) : (s.writePT i q).rst = s.rst := rfl
@[simp] theorem writePT_inputs (s : State) (i : PReg) (q : Point) : (s.writePT i q).inputs = s.inputs := rfl
@[simp] theorem writePT_response (s : State) (i : PReg) (q : Point) : (s.writePT i q).response = s.response := rfl

/-! ### accept -/

@[simp] theorem accept_cmd (w : Word) (s : State) : (accept w s).cmd = w := rfl
@[simp] theorem accept_engine (w : Word) (s : State) : (accept w s).engine = .busy .ready := rfl
@[simp] theorem accept_done (w : Word) (s : State) : (accept w s).done = false := rfl
@[simp] theorem accept_err (w : Word) (s : State) : (accept w s).err = false := rfl
@[simp] theorem accept_result (w : Word) (s : State) : (accept w s).result = false := rfl
@[simp] theorem accept_cmdovr (w : Word) (s : State) : (accept w s).cmdovr = s.cmdovr := rfl
@[simp] theorem accept_wbusy (w : Word) (s : State) : (accept w s).wbusy = s.wbusy := rfl
@[simp] theorem accept_errcode (w : Word) (s : State) : (accept w s).errcode = 0 := rfl
@[simp] theorem accept_irqEn (w : Word) (s : State) : (accept w s).irqEn = s.irqEn := rfl
@[simp] theorem accept_buflen (w : Word) (s : State) : (accept w s).buflen = s.buflen := rfl
@[simp] theorem accept_curve (w : Word) (s : State) : (accept w s).curve = s.curve := rfl
@[simp] theorem accept_sreg (w : Word) (s : State) : (accept w s).sreg = s.sreg := rfl
@[simp] theorem accept_pt (w : Word) (s : State) : (accept w s).pt = s.pt := rfl
@[simp] theorem accept_buf (w : Word) (s : State) : (accept w s).buf = s.buf := rfl
@[simp] theorem accept_rst (w : Word) (s : State) : (accept w s).rst = s.rst := rfl
@[simp] theorem accept_inputs (w : Word) (s : State) : (accept w s).inputs = s.inputs := rfl
@[simp] theorem accept_response (w : Word) (s : State) : (accept w s).response = s.response := rfl

/-! ### completeError -/

@[simp] theorem completeError_cmd (e : ErrorKind) (s : State) : (completeError e s).cmd = s.cmd := rfl
@[simp] theorem completeError_engine (e : ErrorKind) (s : State) : (completeError e s).engine = .idle := rfl
@[simp] theorem completeError_done (e : ErrorKind) (s : State) : (completeError e s).done = true := rfl
@[simp] theorem completeError_err (e : ErrorKind) (s : State) : (completeError e s).err = true := rfl
@[simp] theorem completeError_result (e : ErrorKind) (s : State) : (completeError e s).result = false := rfl
@[simp] theorem completeError_cmdovr (e : ErrorKind) (s : State) : (completeError e s).cmdovr = s.cmdovr := rfl
@[simp] theorem completeError_wbusy (e : ErrorKind) (s : State) : (completeError e s).wbusy = s.wbusy := rfl
@[simp] theorem completeError_errcode (e : ErrorKind) (s : State) : (completeError e s).errcode = e.code := rfl
@[simp] theorem completeError_irqEn (e : ErrorKind) (s : State) : (completeError e s).irqEn = s.irqEn := rfl
@[simp] theorem completeError_buflen (e : ErrorKind) (s : State) : (completeError e s).buflen = s.buflen := rfl
@[simp] theorem completeError_curve (e : ErrorKind) (s : State) : (completeError e s).curve = s.curve := rfl
@[simp] theorem completeError_sreg (e : ErrorKind) (s : State) : (completeError e s).sreg = s.sreg := rfl
@[simp] theorem completeError_pt (e : ErrorKind) (s : State) : (completeError e s).pt = s.pt := rfl
@[simp] theorem completeError_buf (e : ErrorKind) (s : State) : (completeError e s).buf = s.buf := rfl
@[simp] theorem completeError_rst (e : ErrorKind) (s : State) : (completeError e s).rst = s.rst := rfl
@[simp] theorem completeError_inputs (e : ErrorKind) (s : State) : (completeError e s).inputs = s.inputs := rfl
@[simp] theorem completeError_response (e : ErrorKind) (s : State) : (completeError e s).response = s.response := rfl

/-! ### raiseRequest -/

@[simp] theorem raiseRequest_cmd (d : List Byte) (s : State) : (raiseRequest d s).cmd = s.cmd := rfl
@[simp] theorem raiseRequest_engine (d : List Byte) (s : State) : (raiseRequest d s).engine = .busy (.waiting d) := rfl
@[simp] theorem raiseRequest_done (d : List Byte) (s : State) : (raiseRequest d s).done = s.done := rfl
@[simp] theorem raiseRequest_err (d : List Byte) (s : State) : (raiseRequest d s).err = s.err := rfl
@[simp] theorem raiseRequest_result (d : List Byte) (s : State) : (raiseRequest d s).result = s.result := rfl
@[simp] theorem raiseRequest_cmdovr (d : List Byte) (s : State) : (raiseRequest d s).cmdovr = s.cmdovr := rfl
@[simp] theorem raiseRequest_wbusy (d : List Byte) (s : State) : (raiseRequest d s).wbusy = s.wbusy := rfl
@[simp] theorem raiseRequest_errcode (d : List Byte) (s : State) : (raiseRequest d s).errcode = s.errcode := rfl
@[simp] theorem raiseRequest_irqEn (d : List Byte) (s : State) : (raiseRequest d s).irqEn = s.irqEn := rfl
@[simp] theorem raiseRequest_buflen (d : List Byte) (s : State) : (raiseRequest d s).buflen = s.buflen := rfl
@[simp] theorem raiseRequest_curve (d : List Byte) (s : State) : (raiseRequest d s).curve = s.curve := rfl
@[simp] theorem raiseRequest_sreg (d : List Byte) (s : State) : (raiseRequest d s).sreg = s.sreg := rfl
@[simp] theorem raiseRequest_pt (d : List Byte) (s : State) : (raiseRequest d s).pt = s.pt := rfl
@[simp] theorem raiseRequest_buf (d : List Byte) (s : State) : (raiseRequest d s).buf = s.buf := rfl
@[simp] theorem raiseRequest_rst (d : List Byte) (s : State) : (raiseRequest d s).rst = s.rst := rfl
@[simp] theorem raiseRequest_inputs (d : List Byte) (s : State) : (raiseRequest d s).inputs = s.inputs := rfl
@[simp] theorem raiseRequest_response (d : List Byte) (s : State) : (raiseRequest d s).response = s.response := rfl

/-! ### completeOk -/

@[simp] theorem completeOk_cmd (ws : List Write) (b : Bool) (s : State) : (completeOk ws b s).cmd = (applyWrites ws s).cmd := rfl
@[simp] theorem completeOk_engine (ws : List Write) (b : Bool) (s : State) : (completeOk ws b s).engine = .idle := rfl
@[simp] theorem completeOk_done (ws : List Write) (b : Bool) (s : State) : (completeOk ws b s).done = true := rfl
@[simp] theorem completeOk_err (ws : List Write) (b : Bool) (s : State) : (completeOk ws b s).err = false := rfl
@[simp] theorem completeOk_result (ws : List Write) (b : Bool) (s : State) : (completeOk ws b s).result = b := rfl
@[simp] theorem completeOk_cmdovr (ws : List Write) (b : Bool) (s : State) : (completeOk ws b s).cmdovr = (applyWrites ws s).cmdovr := rfl
@[simp] theorem completeOk_wbusy (ws : List Write) (b : Bool) (s : State) : (completeOk ws b s).wbusy = (applyWrites ws s).wbusy := rfl
@[simp] theorem completeOk_errcode (ws : List Write) (b : Bool) (s : State) : (completeOk ws b s).errcode = 0 := rfl
@[simp] theorem completeOk_irqEn (ws : List Write) (b : Bool) (s : State) : (completeOk ws b s).irqEn = (applyWrites ws s).irqEn := rfl
@[simp] theorem completeOk_buflen (ws : List Write) (b : Bool) (s : State) : (completeOk ws b s).buflen = (applyWrites ws s).buflen := rfl
@[simp] theorem completeOk_curve (ws : List Write) (b : Bool) (s : State) : (completeOk ws b s).curve = (applyWrites ws s).curve := rfl
@[simp] theorem completeOk_sreg (ws : List Write) (b : Bool) (s : State) : (completeOk ws b s).sreg = (applyWrites ws s).sreg := rfl
@[simp] theorem completeOk_pt (ws : List Write) (b : Bool) (s : State) : (completeOk ws b s).pt = (applyWrites ws s).pt := rfl
@[simp] theorem completeOk_buf (ws : List Write) (b : Bool) (s : State) : (completeOk ws b s).buf = (applyWrites ws s).buf := rfl
@[simp] theorem completeOk_rst (ws : List Write) (b : Bool) (s : State) : (completeOk ws b s).rst = (applyWrites ws s).rst := rfl
@[simp] theorem completeOk_inputs (ws : List Write) (b : Bool) (s : State) : (completeOk ws b s).inputs = (applyWrites ws s).inputs := rfl
@[simp] theorem completeOk_response (ws : List Write) (b : Bool) (s : State) : (completeOk ws b s).response = (applyWrites ws s).response := rfl

/-! ### State.writeStatus -/

@[simp] theorem writeStatus_cmd (s : State) (v : Word) : (s.writeStatus v).cmd = s.cmd := rfl
@[simp] theorem writeStatus_engine (s : State) (v : Word) : (s.writeStatus v).engine = s.engine := rfl
@[simp] theorem writeStatus_done (s : State) (v : Word) : (s.writeStatus v).done = (s.done && !v.getLsbD 1) := rfl
@[simp] theorem writeStatus_err (s : State) (v : Word) : (s.writeStatus v).err = (s.err && !v.getLsbD 2) := rfl
@[simp] theorem writeStatus_result (s : State) (v : Word) : (s.writeStatus v).result = s.result := rfl
@[simp] theorem writeStatus_cmdovr (s : State) (v : Word) : (s.writeStatus v).cmdovr = (s.cmdovr && !v.getLsbD 4) := rfl
@[simp] theorem writeStatus_wbusy (s : State) (v : Word) : (s.writeStatus v).wbusy = (s.wbusy && !v.getLsbD 5) := rfl
@[simp] theorem writeStatus_errcode (s : State) (v : Word) : (s.writeStatus v).errcode = s.errcode := rfl
@[simp] theorem writeStatus_irqEn (s : State) (v : Word) : (s.writeStatus v).irqEn = s.irqEn := rfl
@[simp] theorem writeStatus_buflen (s : State) (v : Word) : (s.writeStatus v).buflen = s.buflen := rfl
@[simp] theorem writeStatus_curve (s : State) (v : Word) : (s.writeStatus v).curve = s.curve := rfl
@[simp] theorem writeStatus_sreg (s : State) (v : Word) : (s.writeStatus v).sreg = s.sreg := rfl
@[simp] theorem writeStatus_pt (s : State) (v : Word) : (s.writeStatus v).pt = s.pt := rfl
@[simp] theorem writeStatus_buf (s : State) (v : Word) : (s.writeStatus v).buf = s.buf := rfl
@[simp] theorem writeStatus_rst (s : State) (v : Word) : (s.writeStatus v).rst = s.rst := rfl
@[simp] theorem writeStatus_inputs (s : State) (v : Word) : (s.writeStatus v).inputs = s.inputs := rfl
@[simp] theorem writeStatus_response (s : State) (v : Word) : (s.writeStatus v).response = s.response := rfl

end Sys2Proof.Machine
end

