-- ==== Sys2Proof/Laws/Commit.lean ====
section
/-! SUPPORT. Everything the shared ends of a command can do (R133 to R136): what stays, and what completion leaves. -/

namespace Sys2Proof.Machine

theorem ControlKept.refl (s : State) : ControlKept s s := ⟨rfl, rfl, rfl, rfl, rfl, rfl, rfl⟩

theorem ControlKept.trans {s t u : State} (h : ControlKept s t) (k : ControlKept t u) : ControlKept s u := by
  unfold ControlKept at *
  simp_all

theorem ScalarsKept.refl (s : State) : ScalarsKept s s := fun _ => rfl
theorem PointsKept.refl (s : State) : PointsKept s s := fun _ => rfl
theorem BufferKept.refl (s : State) : BufferKept s s := ⟨rfl, fun _ => rfl⟩
theorem OperandsKept.refl (s : State) : OperandsKept s s :=
  ⟨ScalarsKept.refl s, PointsKept.refl s, rfl, BufferKept.refl s⟩

/-- A state with the same operand registers keeps them. -/
theorem OperandsKept.of_eq {s t : State} (h1 : t.sreg = s.sreg) (h2 : t.pt = s.pt) (h3 : t.curve = s.curve)
    (h4 : t.buf = s.buf) (h5 : t.buflen = s.buflen) : OperandsKept s t :=
  ⟨fun j => by rw [h1], fun j => by rw [h2], h3, h5, fun a => by rw [h4]⟩

/-! ### Writes -/

/-- A write changes operand registers only. -/
theorem applyWrite_control (s : State) (w : Write) :
    ControlKept s (applyWrite s w) ∧ (applyWrite s w).engine = s.engine ∧ (applyWrite s w).done = s.done
      ∧ (applyWrite s w).err = s.err ∧ (applyWrite s w).result = s.result
      ∧ (applyWrite s w).errcode = s.errcode := by
  cases w <;> simp [applyWrite, ControlKept]

/-- Writes change operand registers only. -/
theorem applyWrites_control (ws : List Write) (s : State) : ControlKept s (applyWrites ws s) := by
  induction ws generalizing s with
  | nil => exact ControlKept.refl s
  | cons w ws ih => exact (applyWrite_control s w).1.trans (ih _)

@[simp] theorem applyWrites_nil (s : State) : applyWrites [] s = s := rfl
@[simp] theorem applyWrites_one (w : Write) (s : State) : applyWrites [w] s = applyWrite s w := rfl
@[simp] theorem applyWrites_cons (w : Write) (ws : List Write) (s : State) :
    applyWrites (w :: ws) s = applyWrites ws (applyWrite s w) := rfl

/-! ### The ends of a command -/

@[simp] theorem commit_ok (ws : List Write) (b : Bool) (s : State) : commit (.ok ws b) s = completeOk ws b s := rfl
@[simp] theorem commit_error (e : ErrorKind) (s : State) : commit (.error e) s = completeError e s := rfl
@[simp] theorem commit_wait (d : List Byte) (s : State) : commit (.wait d) s = raiseRequest d s := rfl

/-- Completion without error (R135). -/
theorem completeOk_spec (ws : List Write) (b : Bool) (s : State) : CompletedOk b s (completeOk ws b s) := by
  have h := applyWrites_control ws s
  refine ⟨rfl, rfl, rfl, rfl, rfl, ?_⟩
  simpa [ControlKept] using h

/-- Completion with an error (R135, R136). -/
theorem completeError_spec (e : ErrorKind) (s : State) : CompletedError e.code.toNat s (completeError e s) :=
  ⟨rfl, rfl, rfl, rfl, rfl, ⟨rfl, rfl, rfl, rfl, rfl, rfl, rfl⟩, OperandsKept.refl s⟩

theorem ErrorKind.code_range (e : ErrorKind) : 1 ≤ e.code.toNat ∧ e.code.toNat ≤ 8 := by
  cases e <;> decide

/-- A port request changes the engine state only (R154). -/
theorem raiseRequest_eq (d : List Byte) (s : State) :
    raiseRequest d s = { s with engine := .busy (.waiting d) } := rfl

/-- Completion with no write keeps every operand register. -/
theorem completeOk_nil_kept (b : Bool) (s : State) : OperandsKept s (completeOk [] b s) := OperandsKept.refl s

/-- Completion with one scalar written. -/
theorem completeOk_scalar (d : SReg) {v : Nat} (hv : v < 2 ^ 512) (b : Bool) (s : State) :
    WritesScalar d v s (completeOk [.scalar d v] b s) := by
  refine ⟨?_, fun j hj => ?_, fun j => rfl, rfl, rfl, fun a => rfl⟩
  · exact readS_writeS_same s d hv
  · simp [applyWrite, hj]

/-- Completion with one point written. -/
theorem completeOk_point (d : PReg) {q : Point} (hq : q.Fits) (b : Bool) (s : State) :
    WritesPoint d q s (completeOk [.point d q] b s) := by
  refine ⟨?_, fun h => ?_, fun j hj => ?_, fun j => rfl, rfl, rfl, fun a => rfl⟩
  · exact readPT_writePT_same s d hq
  · subst h
    simp [applyWrite, pointRegOf]
  · simp [applyWrite, hj]

/-- Completion with a byte string written to BUF. -/
theorem completeOk_buffer {bs : List Byte} (hl : bs.length < 256) {f : Nat → Nat}
    (hf : ∀ j (h : j < bs.length), bs[j].toNat = f j) (b : Bool) {s : State} (hwf : Memory.wf s.buf) :
    WritesBuffer bs.length f s (completeOk [.buffer bs] b s) := by
  refine ⟨?_, fun j hj => ?_, fun j hj => ?_, fun j => rfl, fun j => rfl, rfl⟩
  · simp [applyWrite]
    omega
  · simp only [completeOk_buf, applyWrites_one, applyWrite]
    rw [read_writeBytes hwf.1, dif_pos (by omega)]
    exact hf j hj
  · simp only [completeOk_buf, applyWrites_one, applyWrite]
    rw [read_writeBytes hwf.1, dif_neg (by omega)]

/-! ### The frame -/

@[simp] theorem constructive_ok {s : State} (h : s.curveOk = true) (e : Effect) : constructive s e = e := by
  simp [constructive, h]

@[simp] theorem constructive_not {s : State} (h : s.curveOk = false) (e : Effect) :
    constructive s e = .error .curveConfig := by
  simp [constructive, h]

theorem predicate_eq (s : State) (b : Bool) : predicate s b = .ok [] (s.curveOk && b) := by
  cases h : s.curveOk <;> simp [predicate, h]

/-- curve_ok as the inequalities of R31. -/
theorem curveOk_iff (s : State) : s.curveOk = true ↔
    1 ≤ s.cw ∧ s.cw ≤ 64 ∧ 2 ≤ s.p ∧ s.p < 2 ^ (8 * s.cw) ∧ 2 ≤ s.n := by
  simp [State.curveOk, Config.maxCw, and_assoc]

theorem p_lt (s : State) : s.p < 2 ^ 512 := s.curve.p.isLt
theorem n_lt (s : State) : s.n < 2 ^ 512 := s.curve.n.isLt

theorem modulus_lt (s : State) (m : Modulus) : s.modulus m < 2 ^ 512 := by
  cases m
  · exact p_lt s
  · exact n_lt s

theorem modulus_ge_two {s : State} (h : s.curveOk = true) (m : Modulus) : 2 ≤ s.modulus m := by
  obtain ⟨-, -, hp, -, hn⟩ := (curveOk_iff s).1 h
  cases m
  · exact hp
  · exact hn

theorem modulus_eq (s : State) (m : Modulus) : s.modulus m = modulusValue s m := by cases m <;> rfl

end Sys2Proof.Machine
end

