-- ==== Sys2Proof/Laws/Encoding.lean ====
section
/-! SUPPORT. The command word (R70): its number, and its fields read back from the word laid out of them. -/

namespace Sys2Proof

/-- The number of a word is `OP<<24 | FA<<20 | FB<<16 | FC<<12 | FD<<8 | M` (R70). -/
theorem toNat_wordOf (op : BitVec 8) (fa fb fc fd : Fin 16) (m : Bool) :
    (wordOf op fa fb fc fd m).toNat
      = op.toNat * 2 ^ 24 + fa.val * 2 ^ 20 + fb.val * 2 ^ 16 + fc.val * 2 ^ 12 + fd.val * 2 ^ 8 + m.toNat := by
  have := op.isLt
  have := fa.isLt
  have := fb.isLt
  have := fc.isLt
  have := fd.isLt
  have hm : (BitVec.ofBool m).toNat = m.toNat := by cases m <;> rfl
  have := m.toNat_lt
  unfold wordOf
  simp only [BitVec.toNat_append, Nat.shiftLeft_eq, hm, BitVec.toNat_ofFin, BitVec.toNat_ofNat]
  have orAdd : ∀ (x y k : Nat), y < 2 ^ k → x * 2 ^ k ||| y = x * 2 ^ k + y := fun x y k h => by
    rw [← Nat.shiftLeft_eq, Nat.shiftLeft_add_eq_or_of_lt h]
  rw [orAdd _ _ 4 (by omega), orAdd _ _ 4 (by omega), orAdd _ _ 4 (by omega), orAdd _ _ 4 (by omega),
    orAdd _ _ 7 (by norm_num), orAdd _ _ 1 (by omega)]
  norm_num
  ring

theorem opField_toNat (w : Word) : (opField w).toNat = w.toNat / 2 ^ 24 := by
  have := w.isLt
  simp [opField, BitVec.extractLsb'_toNat, Nat.shiftRight_eq_div_pow]
  omega

theorem faField_val (w : Word) : (faField w).val = w.toNat / 2 ^ 20 % 16 := by
  simp [faField, Nat.shiftRight_eq_div_pow]

theorem fbField_val (w : Word) : (fbField w).val = w.toNat / 2 ^ 16 % 16 := by
  simp [fbField, Nat.shiftRight_eq_div_pow]

theorem fcField_val (w : Word) : (fcField w).val = w.toNat / 2 ^ 12 % 16 := by
  simp [fcField, Nat.shiftRight_eq_div_pow]

theorem fdField_val (w : Word) : (fdField w).val = w.toNat / 2 ^ 8 % 16 := by
  simp [fdField, Nat.shiftRight_eq_div_pow]

theorem rsvField_toNat (w : Word) : (rsvField w).toNat = w.toNat / 2 % 128 := by
  simp [rsvField, Nat.shiftRight_eq_div_pow]

theorem mField_toNat (w : Word) : (mField w).toNat = w.toNat % 2 := by
  rw [mField, BitVec.getLsbD, Nat.toNat_testBit]
  simp

/-- A word is the word laid out of its fields, when its RSV bits are zero. -/
theorem wordOf_fields {w : Word} (h : rsvField w = 0#7) :
    wordOf (opField w) (faField w) (fbField w) (fcField w) (fdField w) (mField w) = w := by
  apply BitVec.eq_of_toNat_eq
  rw [toNat_wordOf, opField_toNat, faField_val, fbField_val, fcField_val, fdField_val, mField_toNat]
  have hr := congrArg BitVec.toNat h
  rw [rsvField_toNat] at hr
  simp at hr
  omega

section Fields

variable (op : BitVec 8) (fa fb fc fd : Fin 16) (m : Bool)

@[simp] theorem opField_wordOf : opField (wordOf op fa fb fc fd m) = op := by
  apply BitVec.eq_of_toNat_eq
  rw [opField_toNat, toNat_wordOf]
  have := fa.isLt; have := fb.isLt; have := fc.isLt; have := fd.isLt; have := m.toNat_lt
  omega

@[simp] theorem faField_wordOf : faField (wordOf op fa fb fc fd m) = fa := by
  apply Fin.ext
  rw [faField_val, toNat_wordOf]
  have := fa.isLt; have := fb.isLt; have := fc.isLt; have := fd.isLt; have := m.toNat_lt
  omega

@[simp] theorem fbField_wordOf : fbField (wordOf op fa fb fc fd m) = fb := by
  apply Fin.ext
  rw [fbField_val, toNat_wordOf]
  have := fa.isLt; have := fb.isLt; have := fc.isLt; have := fd.isLt; have := m.toNat_lt
  omega

@[simp] theorem fcField_wordOf : fcField (wordOf op fa fb fc fd m) = fc := by
  apply Fin.ext
  rw [fcField_val, toNat_wordOf]
  have := fa.isLt; have := fb.isLt; have := fc.isLt; have := fd.isLt; have := m.toNat_lt
  omega

@[simp] theorem fdField_wordOf : fdField (wordOf op fa fb fc fd m) = fd := by
  apply Fin.ext
  rw [fdField_val, toNat_wordOf]
  have := fa.isLt; have := fb.isLt; have := fc.isLt; have := fd.isLt; have := m.toNat_lt
  omega

@[simp] theorem rsvField_wordOf : rsvField (wordOf op fa fb fc fd m) = 0#7 := by
  apply BitVec.eq_of_toNat_eq
  rw [rsvField_toNat, toNat_wordOf]
  have := fa.isLt; have := fb.isLt; have := fc.isLt; have := fd.isLt; have := m.toNat_lt
  show _ = 0
  omega

@[simp] theorem mField_wordOf : mField (wordOf op fa fb fc fd m) = m := by
  have h : (mField (wordOf op fa fb fc fd m)).toNat = m.toNat := by
    rw [mField_toNat, toNat_wordOf]
    have := m.toNat_lt
    omega
  revert h
  cases mField (wordOf op fa fb fc fd m) <;> cases m <;> simp

/-- Decoding a laid-out word decodes its fields. -/
theorem decode_wordOf : decode (wordOf op fa fb fc fd m) = decodeFields op fa fb fc fd m := by
  simp [decode]

end Fields

/-- What whenUnused accepts (R73 (c)). -/
theorem whenUnused_ok {u : List (Fin 16)} {i j : Instr} :
    whenUnused u i = .ok j ↔ (∀ x ∈ u, x = 0) ∧ i = j := by
  unfold whenUnused
  by_cases h : u.all (· == 0) = true
  · rw [if_pos h]
    have : ∀ x ∈ u, x = 0 := by simpa using h
    exact ⟨fun e => ⟨this, by simpa using e⟩, fun e => by rw [e.2]⟩
  · rw [if_neg h]
    have : ¬ ∀ x ∈ u, x = 0 := by simpa using h
    exact ⟨fun e => by simp at e, fun e => absurd e.1 this⟩

/-- What whenPlain accepts (R73 (c), (d)). -/
theorem whenPlain_ok {m : Bool} {u : List (Fin 16)} {i j : Instr} :
    whenPlain m u i = .ok j ↔ m = false ∧ (∀ x ∈ u, x = 0) ∧ i = j := by
  cases m <;> simp [whenPlain, whenUnused_ok]

/-- What presetOf accepts (R73 (e)). -/
theorem presetOf_ok {fa : Fin 16} {id : Preset} : presetOf fa = .ok id ↔ fa = presetId id := by
  unfold presetOf
  by_cases h0 : fa = 0
  · subst h0; cases id <;> simp [presetId]
  · by_cases h1 : fa = 1
    · subst h1; cases id <;> simp [presetId]
    · cases id <;> simp [presetId, h0, h1]

@[simp] theorem modulusOf_modulusBit (m : Modulus) : modulusOf (modulusBit m) = m := by cases m <;> rfl
@[simp] theorem modulusBit_modulusOf (b : Bool) : modulusBit (modulusOf b) = b := by cases b <;> rfl
@[simp] theorem presetOf_presetId (id : Preset) : presetOf (presetId id) = .ok id := by cases id <;> rfl

end Sys2Proof
end

