-- ==== Sys2Proof/Laws/Exec.lean ====
section
/-! SUPPORT. Everything one turn of the engine can do (R133 to R137): every command commits one effect, and which effects
a command may commit. The lemmas about turns cite these and never unfold a meaning. -/

namespace Sys2Proof.Machine

/-- What an effect of command `i` in state `s` may be: which registers it writes, which commands answer RESULT = 1,
and which wait on the random-number port (R30, R37, R39), for less than a whole draw unless they waited for more before,
which no run does. -/
def Effect.Allowed (i : Instr) (s : State) : Effect → Prop
  | .ok ws b =>
    ((∃ id, i = .curveSel id) ∨ ∀ c, Write.curve c ∉ ws)
      ∧ (∀ bs, Write.buffer bs ∈ ws → bs.length ≤ Config.bufBytes)
      ∧ (b = true → (∃ a, i = .schk a) ∨ (∃ a, i = .pchk a) ∨ (∃ a, i = .pkchk a) ∨ ∃ h r sr q, i = .verify h r sr q)
  | .error _ => True
  | .wait drawn =>
    s.curveOk = true
      ∧ ((∀ d, s.progress = .waiting d → d.length < s.cw) → drawn.length < s.cw)
      ∧ ((∃ d, i = .rsample d) ∨ ∃ r sd h key, i = .sign r sd h key ∧ s.validScalar (s.readS key) = true)

theorem allowed_constructive {i : Instr} {s : State} {e : Effect} (h : s.curveOk = true → e.Allowed i s) :
    (constructive s e).Allowed i s := by
  cases hc : s.curveOk
  · rw [constructive_not hc]; trivial
  · rw [constructive_ok hc]; exact h hc

theorem allowed_scalar {i : Instr} {s : State} (d : SReg) (v : Nat) : (Effect.ok [.scalar d v] false).Allowed i s :=
  ⟨.inr (by simp), by simp, by simp⟩

theorem allowed_writing {α : Type} {i : Instr} {s : State} {w : α → Write} {r : Except ErrorKind α}
    (hc : ∀ a c, w a ≠ .curve c) (hb : ∀ a bs, r = .ok a → w a = .buffer bs → bs.length ≤ Config.bufBytes) :
    (writing w r).Allowed i s := by
  cases r with
  | error e => trivial
  | ok a =>
    refine ⟨.inr fun c => ?_, fun bs h => hb a bs rfl ?_, by simp⟩
    · simpa using (hc a c).symm
    · exact (List.mem_singleton.1 h).symm

/-- What rsample asks for is shorter than a whole draw (R117). -/
theorem rsample_need {s : State} (hw : 1 ≤ s.cw) (h : ∀ d, s.progress = .waiting d → d.length < s.cw)
    {drawn : List Byte} (hr : s.rsample = .need drawn) : drawn.length < s.cw := by
  unfold State.rsample at hr
  split at hr
  · cases hr; exact hw
  · cases hr; exact h _ ‹_›
  · cases hr
  · dsimp only at hr
    split_ifs at hr with h1
    · cases hr; exact h1
    · cases hr; exact hw

theorem encodePoint_length {s : State} {q : Point} {bs : List Byte} (h : s.encodePoint q = .ok bs) :
    bs.length = 2 * s.cw := by
  cases q with
  | inf => cases h
  | aff x y =>
    simp only [State.encodePoint] at h
    split_ifs at h
    cases h
    simp; omega

theorem compress_length {s : State} {q : Point} {bs : List Byte} (h : s.compress q = .ok bs) :
    bs.length = s.cw + 1 := by
  cases q with
  | inf => cases h
  | aff x y =>
    simp only [State.compress] at h
    split_ifs at h
    cases h
    simp

/-- Every command commits one effect, and one it may have. -/
theorem exec_spec (i : Instr) (s : State) : ∃ e, exec i s = .next (commit e s) ∧ e.Allowed i s := by
  have hw : s.curveOk = true → 1 ≤ s.cw ∧ s.cw ≤ 64 := fun h =>
    ⟨((curveOk_iff s).1 h).1, ((curveOk_iff s).1 h).2.1⟩
  cases i with
  | nop => exact ⟨_, rfl, .inr (by simp), by simp, by simp⟩
  | curveSel id => exact ⟨_, rfl, .inl ⟨_, rfl⟩, by simp, by simp⟩
  | modadd d a b m => exact ⟨_, rfl, allowed_constructive fun _ => allowed_scalar _ _⟩
  | modsub d a b m => exact ⟨_, rfl, allowed_constructive fun _ => allowed_scalar _ _⟩
  | modmul d a b m => exact ⟨_, rfl, allowed_constructive fun _ => allowed_scalar _ _⟩
  | modinv d a m => exact ⟨_, rfl, allowed_constructive fun _ => allowed_writing (by simp) (by simp)⟩
  | padd d a b => exact ⟨_, rfl, allowed_constructive fun _ => allowed_writing (by simp) (by simp)⟩
  | pdbl d a => exact ⟨_, rfl, allowed_constructive fun _ => allowed_writing (by simp) (by simp)⟩
  | psmul d a k => exact ⟨_, rfl, allowed_constructive fun _ => allowed_writing (by simp) (by simp)⟩
  | pbmul d k => exact ⟨_, rfl, allowed_constructive fun _ => allowed_writing (by simp) (by simp)⟩
  | schk a =>
    refine ⟨_, rfl, ?_⟩
    rw [predicate_eq]
    exact ⟨.inr (by simp), by simp, fun _ => .inl ⟨_, rfl⟩⟩
  | pchk a =>
    refine ⟨_, rfl, ?_⟩
    rw [predicate_eq]
    exact ⟨.inr (by simp), by simp, fun _ => .inr (.inl ⟨_, rfl⟩)⟩
  | pkchk a =>
    refine ⟨_, rfl, ?_⟩
    rw [predicate_eq]
    exact ⟨.inr (by simp), by simp, fun _ => .inr (.inr (.inl ⟨_, rfl⟩))⟩
  | rsample d =>
    refine ⟨_, rfl, allowed_constructive fun hc => ?_⟩
    cases hr : s.rsample with
    | need drawn => exact ⟨hc, fun hp => rsample_need (hw hc).1 hp hr, .inl ⟨_, rfl⟩⟩
    | got k => exact allowed_scalar _ _
    | failed => trivial
  | derive d key => exact ⟨_, rfl, allowed_constructive fun _ => allowed_writing (by simp) (by simp)⟩
  | sign r sd h key =>
    refine ⟨_, rfl, ?_⟩
    by_cases he : r = sd
    · rw [if_pos he]; trivial
    rw [if_neg he]
    refine allowed_constructive fun hc => ?_
    unfold State.signEffect
    by_cases hk : s.validScalar (s.readS key) = true
    · simp only [hk, Bool.not_true, Bool.false_eq_true, if_false]
      cases hr : s.rsample with
      | need drawn => exact ⟨hc, fun hp => rsample_need (hw hc).1 hp hr, .inr ⟨_, _, _, _, rfl, hk⟩⟩
      | failed => trivial
      | got k =>
        simp only
        split
        · trivial
        · exact ⟨hc, fun _ => (hw hc).1, .inr ⟨_, _, _, _, rfl, hk⟩⟩
        · exact ⟨.inr (by simp), by simp, by simp⟩
    · simp only [hk, Bool.not_false, if_true]
      trivial
  | verify h r sr q =>
    refine ⟨_, rfl, allowed_constructive fun _ => ?_⟩
    cases s.verify (s.readS h) (s.readS r) (s.readS sr) (s.readPT q) with
    | error e => trivial
    | ok b => exact ⟨.inr (by simp), by simp, fun _ => .inr (.inr (.inr ⟨_, _, _, _, rfl⟩))⟩
  | penc a =>
    refine ⟨_, rfl, allowed_constructive fun hc => allowed_writing (by simp) fun bs bs' h e => ?_⟩
    cases e
    rw [encodePoint_length h]
    have := (hw hc).2
    show _ ≤ 128
    omega
  | pdec d => exact ⟨_, rfl, allowed_constructive fun _ => allowed_writing (by simp) (by simp)⟩
  | pcomp a =>
    refine ⟨_, rfl, allowed_constructive fun hc => allowed_writing (by simp) fun bs bs' h e => ?_⟩
    cases e
    rw [compress_length h]
    have := (hw hc).2
    show _ ≤ 128
    omega
  | pdecomp d => exact ⟨_, rfl, allowed_constructive fun _ => allowed_writing (by simp) (by simp)⟩

/-- Every command commits one effect. -/
theorem exec_commits (i : Instr) (s : State) : ∃ e, exec i s = .next (commit e s) := by
  cases i <;> exact ⟨_, rfl⟩

/-- The three ends of a turn (R133). -/
theorem commit_cases (e : Effect) (s : State) :
    (∃ b, CompletedOk b s (commit e s))
      ∨ (∃ k : ErrorKind, CompletedError k.code.toNat s (commit e s))
      ∨ (∃ drawn, commit e s = { s with engine := .busy (.waiting drawn) }) := by
  cases e with
  | ok ws b => exact .inl ⟨b, completeOk_spec ws b s⟩
  | error k => exact .inr (.inl ⟨k, completeError_spec k s⟩)
  | wait drawn => exact .inr (.inr ⟨drawn, rfl⟩)

/-- Writes that name no curve register keep the curve. -/
theorem applyWrites_curve {ws : List Write} (h : ∀ c, Write.curve c ∉ ws) (s : State) :
    (applyWrites ws s).curve = s.curve := by
  induction ws generalizing s with
  | nil => rfl
  | cons w ws ih =>
    rw [applyWrites_cons, ih (fun c hc => h c (List.mem_cons_of_mem _ hc))]
    cases w with
    | curve c => exact absurd (List.mem_cons_self ..) (h c)
    | _ => rfl

/-- Writes of byte strings that fit keep the canonical form of BUF. -/
theorem applyWrites_wf {ws : List Write} {s : State}
    (h : ∀ bs, Write.buffer bs ∈ ws → bs.length ≤ Config.bufBytes) (hwf : Memory.wf s.buf) :
    Memory.wf (applyWrites ws s).buf := by
  induction ws generalizing s with
  | nil => exact hwf
  | cons w ws ih =>
    refine ih (fun bs hb => h bs (List.mem_cons_of_mem _ hb)) ?_
    cases w with
    | buffer bs => exact wf_writeBytes hwf bs (by simpa using h bs (List.mem_cons_self ..))
    | _ => exact hwf

end Sys2Proof.Machine
end

