-- ==== Sys2Proof/Laws/PerInstr.lean ====
section
/-! SUPPORT. One lemma per command: its word carries the OP of its row of the opcode table (R72) and zero RSV bits (R70). -/

namespace Sys2Proof.Laws.WordShape

open Sys2Proof.Machine

/-- The command's word carries the opcode of its own row, and its RSV bits are zero. -/
def Statement (i : Instr) : Prop :=
  ∃ row ∈ opcodeRows, row.name = mnemonic i ∧ opField (encode i) = opField row.pattern
    ∧ rsvField (encode i) = 0#7

theorem of_row {i : Instr} (row : OpcodeRow) (h : row ∈ opcodeRows) (hn : row.name = mnemonic i)
    (ho : opField (encode i) = opField row.pattern) (hr : rsvField (encode i) = 0#7) : Statement i :=
  ⟨row, h, hn, ho, hr⟩

theorem nop : Statement .nop :=
  of_row ⟨"NOP", 0x00000000, 0xFFFFFFFF⟩ (by decide) rfl (opField_wordOf ..) (rsvField_wordOf ..)

theorem curveSel (id : Preset) : Statement (.curveSel id) :=
  of_row ⟨"CURVE_SEL", 0x01000000, 0xFFEFFFFF⟩ (by decide) rfl (opField_wordOf ..) (rsvField_wordOf ..)

theorem modadd (d a b : SReg) (m : Modulus) : Statement (.modadd d a b m) :=
  of_row ⟨"MODADD", 0x10000000, 0xFF000FFE⟩ (by decide) rfl (opField_wordOf ..) (rsvField_wordOf ..)

theorem modsub (d a b : SReg) (m : Modulus) : Statement (.modsub d a b m) :=
  of_row ⟨"MODSUB", 0x11000000, 0xFF000FFE⟩ (by decide) rfl (opField_wordOf ..) (rsvField_wordOf ..)

theorem modmul (d a b : SReg) (m : Modulus) : Statement (.modmul d a b m) :=
  of_row ⟨"MODMUL", 0x12000000, 0xFF000FFE⟩ (by decide) rfl (opField_wordOf ..) (rsvField_wordOf ..)

theorem modinv (d a : SReg) (m : Modulus) : Statement (.modinv d a m) :=
  of_row ⟨"MODINV", 0x13000000, 0xFF00FFFE⟩ (by decide) rfl (opField_wordOf ..) (rsvField_wordOf ..)

theorem padd (d a b : PReg) : Statement (.padd d a b) :=
  of_row ⟨"PADD", 0x20000000, 0xFF000FFF⟩ (by decide) rfl (opField_wordOf ..) (rsvField_wordOf ..)

theorem pdbl (d a : PReg) : Statement (.pdbl d a) :=
  of_row ⟨"PDBL", 0x21000000, 0xFF00FFFF⟩ (by decide) rfl (opField_wordOf ..) (rsvField_wordOf ..)

theorem psmul (d a : PReg) (k : SReg) : Statement (.psmul d a k) :=
  of_row ⟨"PSMUL", 0x22000000, 0xFF000FFF⟩ (by decide) rfl (opField_wordOf ..) (rsvField_wordOf ..)

theorem pbmul (d : PReg) (k : SReg) : Statement (.pbmul d k) :=
  of_row ⟨"PBMUL", 0x23000000, 0xFF00FFFF⟩ (by decide) rfl (opField_wordOf ..) (rsvField_wordOf ..)

theorem schk (a : SReg) : Statement (.schk a) :=
  of_row ⟨"SCHK", 0x30000000, 0xFFF0FFFF⟩ (by decide) rfl (opField_wordOf ..) (rsvField_wordOf ..)

theorem pchk (a : PReg) : Statement (.pchk a) :=
  of_row ⟨"PCHK", 0x31000000, 0xFFF0FFFF⟩ (by decide) rfl (opField_wordOf ..) (rsvField_wordOf ..)

theorem pkchk (a : PReg) : Statement (.pkchk a) :=
  of_row ⟨"PKCHK", 0x32000000, 0xFFF0FFFF⟩ (by decide) rfl (opField_wordOf ..) (rsvField_wordOf ..)

theorem rsample (d : SReg) : Statement (.rsample d) :=
  of_row ⟨"RSAMPLE", 0x40000000, 0xFF0FFFFF⟩ (by decide) rfl (opField_wordOf ..) (rsvField_wordOf ..)

theorem derive (d : PReg) (key : SReg) : Statement (.derive d key) :=
  of_row ⟨"DERIVE", 0x41000000, 0xFF00FFFF⟩ (by decide) rfl (opField_wordOf ..) (rsvField_wordOf ..)

theorem sign (r s h key : SReg) : Statement (.sign r s h key) :=
  of_row ⟨"SIGN", 0x42000000, 0xFF0000FF⟩ (by decide) rfl (opField_wordOf ..) (rsvField_wordOf ..)

theorem verify (h r s : SReg) (q : PReg) : Statement (.verify h r s q) :=
  of_row ⟨"VERIFY", 0x43000000, 0xFF0000FF⟩ (by decide) rfl (opField_wordOf ..) (rsvField_wordOf ..)

theorem penc (a : PReg) : Statement (.penc a) :=
  of_row ⟨"PENC", 0x50000000, 0xFFF0FFFF⟩ (by decide) rfl (opField_wordOf ..) (rsvField_wordOf ..)

theorem pdec (d : PReg) : Statement (.pdec d) :=
  of_row ⟨"PDEC", 0x51000000, 0xFF0FFFFF⟩ (by decide) rfl (opField_wordOf ..) (rsvField_wordOf ..)

theorem pcomp (a : PReg) : Statement (.pcomp a) :=
  of_row ⟨"PCOMP", 0x52000000, 0xFFF0FFFF⟩ (by decide) rfl (opField_wordOf ..) (rsvField_wordOf ..)

theorem pdecomp (d : PReg) : Statement (.pdecomp d) :=
  of_row ⟨"PDECOMP", 0x53000000, 0xFF0FFFFF⟩ (by decide) rfl (opField_wordOf ..) (rsvField_wordOf ..)

end Sys2Proof.Laws.WordShape
end

