-- ==== Sys2Proof/Laws/Points.lean ====
section
/-! SUPPORT. The point units (R102 to R104): the one error they raise, and that their results fit a point register. -/

namespace Sys2Proof.Machine

theorem invm_error_kind {u m : Nat} {e : ErrorKind} (h : invm u m = .error e) : e = .arithmetic := by
  unfold invm at h
  split_ifs at h
  cases h
  rfl

theorem pdbl_error_kind {p a : Nat} {q : Point} {e : ErrorKind} (h : pdbl p a q = .error e) : e = .arithmetic := by
  cases q with
  | inf => cases h
  | aff x y =>
    simp only [pdbl] at h
    split_ifs at h
    split at h
    · rename_i e' he
      cases h
      exact invm_error_kind he
    · cases h

theorem padd_error_kind {p a : Nat} {q r : Point} {e : ErrorKind} (h : padd p a q r = .error e) :
    e = .arithmetic := by
  cases q with
  | inf => cases h
  | aff qx qy =>
    cases r with
    | inf => cases h
    | aff rx ry =>
      simp only [padd] at h
      split_ifs at h
      · exact pdbl_error_kind h
      · split at h
        · rename_i e' he
          cases h
          exact invm_error_kind he
        · cases h

theorem psmulBit_error_kind {p a : Nat} {base acc : Point} {b : Bool} {e : ErrorKind}
    (h : psmulBit p a base b acc = .error e) : e = .arithmetic := by
  unfold psmulBit at h
  split at h
  · rename_i e' he
    cases h
    exact pdbl_error_kind he
  · split_ifs at h
    exact padd_error_kind h

theorem psmulLoop_error_kind {p a : Nat} {base : Point} {k i : Nat} {acc : Point} {e : ErrorKind}
    (h : psmulLoop p a base k i acc = .error e) : e = .arithmetic := by
  induction i generalizing acc with
  | zero => cases h
  | succ i ih =>
    unfold psmulLoop at h
    split at h
    · rename_i e' he
      cases h
      exact psmulBit_error_kind he
    · exact ih h

/-- psmul raises ArithmeticError only (R110). -/
theorem psmul_error_kind {p a : Nat} {base : Point} {k : Nat} {e : ErrorKind} (h : psmul p a base k = .error e) :
    e = .arithmetic := psmulLoop_error_kind h

theorem pdbl_fits {p a : Nat} (h0 : 0 < p) (hp : p < 2 ^ 512) {q r : Point} (h : pdbl p a q = .ok r) :
    r.Fits := by
  cases q with
  | inf => cases h; trivial
  | aff x y =>
    simp only [pdbl] at h
    split_ifs at h
    · cases h; trivial
    · split at h
      · cases h
      · cases h
        exact ⟨(subm_lt h0).trans hp, (subm_lt h0).trans hp⟩

theorem padd_fits {p a : Nat} (h0 : 0 < p) (hp : p < 2 ^ 512) {q r u : Point} (hq : q.Fits) (hr : r.Fits)
    (h : padd p a q r = .ok u) : u.Fits := by
  cases q with
  | inf => cases h; exact hr
  | aff qx qy =>
    cases r with
    | inf => cases h; exact hq
    | aff rx ry =>
      simp only [padd] at h
      split_ifs at h
      · cases h; trivial
      · exact pdbl_fits h0 hp h
      · split at h
        · cases h
        · cases h
          exact ⟨(subm_lt h0).trans hp, (subm_lt h0).trans hp⟩

theorem psmulBit_fits {p a : Nat} (h0 : 0 < p) (hp : p < 2 ^ 512) {base acc u : Point} {b : Bool} (hb : base.Fits)
    (h : psmulBit p a base b acc = .ok u) : u.Fits := by
  unfold psmulBit at h
  split at h
  · cases h
  · rename_i acc' hd
    split_ifs at h
    · exact padd_fits h0 hp (pdbl_fits h0 hp hd) hb h
    · cases h; exact pdbl_fits h0 hp hd

theorem psmulLoop_fits {p a : Nat} (h0 : 0 < p) (hp : p < 2 ^ 512) {base : Point} (hb : base.Fits) {k i : Nat}
    {acc u : Point} (ha : acc.Fits) (h : psmulLoop p a base k i acc = .ok u) : u.Fits := by
  induction i generalizing acc with
  | zero => cases h; exact ha
  | succ i ih =>
    unfold psmulLoop at h
    split at h
    · cases h
    · exact ih (psmulBit_fits h0 hp hb ‹_›) h

/-- The result of psmul fits a point register when the base point does (R104). -/
theorem psmul_fits {p a : Nat} (h0 : 0 < p) (hp : p < 2 ^ 512) {base : Point} (hb : base.Fits) {k : Nat}
    {u : Point} (h : psmul p a base k = .ok u) : u.Fits := psmulLoop_fits h0 hp hb (acc := .inf) trivial h

theorem generator_fits (s : State) : s.generator.Fits := ⟨s.curve.gx.isLt, s.curve.gy.isLt⟩

end Sys2Proof.Machine
end

