-- ==== Sys2Proof/Laws/Step.lean ====
section
/-! SUPPORT. What one step can do: the event it takes (log entries 1 and 2), and what a turn of the engine can be. -/

namespace Sys2Proof.Machine

theorem step_nil {s : State} (h : s.inputs = []) : step s = engineTurn { s with response := none } := by
  simp [step, h]

theorem step_cons {s : State} {e : Event} {rest : List Event} (h : s.inputs = e :: rest) :
    step s = handle e { s with inputs := rest, response := none } := by
  simp [step, h]

theorem step_read {s : State} {off : Offset} {w : AccessWidth} {rest : List Event}
    (h : s.inputs = .read off w :: rest) :
    step s = .next (hostRead off w { s with inputs := rest, response := none }) := step_cons h

theorem step_write {s : State} {off : Offset} {w : AccessWidth} {v : Word} {rest : List Event}
    (h : s.inputs = .write off w v :: rest) :
    step s = .next (hostWrite off w v { s with inputs := rest, response := none }) := step_cons h

theorem step_rng {s : State} {a : RngAnswer} {rest : List Event} (h : s.inputs = .rng a :: rest) :
    step s = .next (rngAnswer a { s with inputs := rest, response := none }) := step_cons h

theorem step_rngWithdrawn {s : State} {a : RngAnswer} {rest : List Event} (h : s.inputs = .rngWithdrawn a :: rest) :
    step s = .next { s with inputs := rest, response := none } := step_cons h

/-- A misaligned access or one of another width gets a bus error and changes nothing else, whatever it would have
performed (R51). -/
theorem hostAccess_illegal {off : Offset} {w : AccessWidth} (h : legalAccess off w = false)
    (f : State → State) (s : State) : hostAccess off w f s = { s with response := some .busError } := by
  simp [hostAccess, h]

/-- An aligned 32-bit access is performed (R51). -/
theorem hostAccess_legal {off : Offset} (h : off.toNat % 4 = 0) (f : State → State) (s : State) :
    hostAccess off .w32 f s = f s := by
  simp [hostAccess, legalAccess, h]

/-- Everything a read can be: an answer, and no side effect (R22, R51, R149). -/
theorem hostRead_cases (off : Offset) (w : AccessWidth) (s : State) :
    ∃ r, hostRead off w s = { s with response := some r } := by
  unfold hostRead hostAccess performRead
  split <;> exact ⟨_, rfl⟩

/-- Everything a write can be: an answer and no effect, or, for an aligned 32-bit write with rst released, the write
of the window (R51, R149). -/
theorem hostWrite_cases (off : Offset) (w : AccessWidth) (v : Word) (s : State) :
    (∃ r, hostWrite off w v s = { s with response := some r })
      ∨ (w = .w32 ∧ off.toNat % 4 = 0 ∧ s.rst = false
          ∧ hostWrite off w v s = { s.writeWindow off.toNat v with response := some .ack }) := by
  unfold hostWrite hostAccess performWrite
  split
  · next ha =>
    simp only [legalAccess, Bool.and_eq_true, decide_eq_true_eq] at ha
    split
    · exact .inl ⟨_, rfl⟩
    · next hr => exact .inr ⟨ha.1, ha.2, by simpa using hr, rfl⟩
  · exact .inl ⟨_, rfl⟩

/-- A step on an access the core does not perform. -/
theorem step_illegal {s : State} {off : Offset} {w : AccessWidth} {rest : List Event}
    (h : s.inputs = .read off w :: rest ∨ ∃ v, s.inputs = .write off w v :: rest) (ha : legalAccess off w = false) :
    step s = .next { s with inputs := rest, response := some .busError } := by
  rcases h with h | ⟨v, h⟩
  · rw [step_read h, hostRead, hostAccess_illegal ha]
  · rw [step_write h, hostWrite, hostAccess_illegal ha]

/-- A step on a performed read, rst being released: the word of the window, and no side effect (R52 (d)). -/
theorem step_performed_read {s : State} {off : Offset} {rest : List Event}
    (h : s.inputs = .read off .w32 :: rest) (hr : s.rst = false) (ha : off.toNat % 4 = 0) :
    step s = .next { s with inputs := rest, response := some (.data (s.readWindow off.toNat)) } := by
  rw [step_read h, hostRead, hostAccess_legal ha]
  simp only [performRead, hr]
  rfl

/-- A step on a performed write, rst being released (R56 (a)). -/
theorem step_performed_write {s : State} {off : Offset} {v : Word} {rest : List Event}
    (h : s.inputs = .write off .w32 v :: rest) (hr : s.rst = false) (ha : off.toNat % 4 = 0) :
    step s = .next { ({ s with inputs := rest, response := none } : State).writeWindow off.toNat v with
      response := some .ack } := by
  rw [step_write h, hostWrite, hostAccess_legal ha]
  simp only [performWrite, hr]
  rfl

theorem step_rst {s : State} {l : Bool} {rest : List Event} (h : s.inputs = .rst l :: rest) :
    step s = .next (driveReset l { s with inputs := rest, response := none }) := step_cons h

theorem step_engine {s : State} {rest : List Event} (h : s.inputs = .engine :: rest) :
    step s = engineTurn { s with inputs := rest, response := none } := step_cons h

/-- A turn of the engine does nothing when it is idle. -/
theorem engineTurn_idle {s : State} (h : s.engine = .idle) : engineTurn s = .next s := by
  simp [engineTurn, h]

/-- A turn of the engine does nothing while the command waits on the port (R154). -/
theorem engineTurn_waiting {s : State} {d : List Byte} (h : s.engine = .busy (.waiting d)) :
    engineTurn s = .next s := by
  simp [engineTurn, h]

/-- A turn on a command whose word is legal is exec of it (R133). -/
theorem engineTurn_legal {s : State} {p : Progress} {i : Instr} (h : s.engine = .busy p)
    (hp : ∀ d, p ≠ .waiting d) (hd : decode s.cmd = .ok i) : engineTurn s = exec i s := by
  cases p with
  | waiting d => exact absurd rfl (hp d)
  | ready => simp [engineTurn, h, hd]
  | answered d a => simp [engineTurn, h, hd]

/-- A turn on a command whose word is illegal completes with IllegalCommand (R73). -/
theorem engineTurn_illegal {s : State} {p : Progress} {e : Illegal} (h : s.engine = .busy p)
    (hp : ∀ d, p ≠ .waiting d) (hd : decode s.cmd = .error e) :
    engineTurn s = .next (completeError .illegalCommand s) := by
  cases p with
  | waiting d => exact absurd rfl (hp d)
  | ready => simp [engineTurn, h, hd]
  | answered d a => simp [engineTurn, h, hd]

/-- Everything a turn of the engine can be. -/
theorem engineTurn_cases (s : State) :
    (engineTurn s = .next s ∧ (s.engine = .idle ∨ ∃ d, s.engine = .busy (.waiting d)))
      ∨ (∃ p e, s.engine = .busy p ∧ (∀ d, p ≠ .waiting d) ∧ decode s.cmd = .error e
          ∧ engineTurn s = .next (completeError .illegalCommand s))
      ∨ ∃ p i e, s.engine = .busy p ∧ (∀ d, p ≠ .waiting d) ∧ decode s.cmd = .ok i
          ∧ engineTurn s = .next (commit e s) ∧ e.Allowed i s := by
  cases h : s.engine with
  | idle => exact .inl ⟨engineTurn_idle h, .inl rfl⟩
  | busy p =>
    by_cases hp : ∃ d, p = .waiting d
    · obtain ⟨d, rfl⟩ := hp
      exact .inl ⟨engineTurn_waiting h, .inr ⟨d, rfl⟩⟩
    · have hp : ∀ d, p ≠ .waiting d := fun d e => hp ⟨d, e⟩
      cases hd : decode s.cmd with
      | error e => exact .inr (.inl ⟨p, e, rfl, hp, rfl, engineTurn_illegal h hp hd⟩)
      | ok i =>
        obtain ⟨e, he, ha⟩ := exec_spec i s
        exact .inr (.inr ⟨p, i, e, rfl, hp, rfl, by rw [engineTurn_legal h hp hd, he], ha⟩)

end Sys2Proof.Machine
end

