-- ==== Sys2Proof/Laws/Terms.lean ====
section
/-! SUPPORT. The terms of the claims (Safety.lean) against the model's own predicates (R111 to R113) and the draw of R117,
state of the engine by state of the engine. -/

namespace Sys2Proof.Machine

theorem cw_eq (s : State) : s.cw = s.curve.cw.toNat := rfl
theorem p_eq (s : State) : s.p = s.curve.p.toNat := rfl
theorem n_eq (s : State) : s.n = s.curve.n.toNat := rfl

/-- valid_scalar (R111). -/
theorem validScalar_iff (s : State) (v : Nat) : s.validScalar v = true ↔ ValidScalar s v := by
  simp only [State.validScalar, ValidScalar, Bool.and_eq_true, decide_eq_true_eq]
  rfl

/-- on_curve (R112). -/
theorem onCurve_iff (s : State) (q : Point) : s.onCurve q = true ↔ OnCurve s q := by
  cases q with
  | inf => simp [State.onCurve, OnCurve]
  | aff x y =>
    have h : (((y * y : Nat) : Int) - ((x * x * x + s.a * x + s.b : Nat) : Int)) % (s.p : Int) = 0
        ↔ y * y % s.p = (x * x * x + s.a * x + s.b) % s.p := by
      rw [← Int.dvd_iff_emod_eq_zero, ← Int.modEq_iff_dvd, Int.natCast_modEq_iff]
      exact ⟨fun h => h.symm, fun h => h.symm⟩
    simp only [State.onCurve, decide_eq_true_eq, h, OnCurve, Point.aff.injEq]
    constructor
    · intro h
      refine ⟨x, y, ⟨rfl, rfl⟩, ?_⟩
      rw [pow_two, pow_succ, pow_two]
      exact h
    · rintro ⟨_, _, ⟨rfl, rfl⟩, h⟩
      rw [pow_two, pow_succ, pow_two] at h
      exact h

/-- pk_valid (R113). -/
theorem pkValid_iff (s : State) (q : Point) : s.pkValid q = true ↔ ValidKey s q := by
  cases q with
  | inf => simp [State.pkValid, ValidKey]
  | aff x y =>
    simp only [State.pkValid, Bool.and_eq_true, decide_eq_true_eq, onCurve_iff, ValidKey, Point.aff.injEq]
    constructor
    · rintro ⟨⟨h1, h2⟩, h3⟩
      exact ⟨x, y, ⟨rfl, rfl⟩, h1, h2, h3⟩
    · rintro ⟨_, _, ⟨rfl, rfl⟩, h1, h2, h3⟩
      exact ⟨⟨h1, h2⟩, h3⟩

/-! ### rsample -/

theorem rsample_ready {s : State} (h : s.engine = .busy .ready) : s.rsample = .need [] := by
  simp [State.rsample, State.progress, h]

theorem rsample_failed {s : State} {d : List Byte} (h : s.engine = .busy (.answered d .failure)) :
    s.rsample = .failed := by
  simp [State.rsample, State.progress, h]

/-- A byte from the port (R117). -/
theorem rsample_byte {s : State} {d : List Byte} {v : Byte} (h : s.engine = .busy (.answered d (.byte v))) :
    s.rsample = if d.length + 1 < s.cw then .need (d ++ [v])
      else if s.validScalar (bytesValue d * 256 + v.toNat) then .got (bytesValue d * 256 + v.toNat)
      else .need [] := by
  simp [State.rsample, State.progress, h, bytesValue_append_one]

/-! ### BUF -/

/-- The bytes the codec reads, as the sum of R13. -/
theorem bytesValue_readBytes (s : State) (a len : Nat) :
    bytesValue (Memory.readBytes s.buf a len) = bufferValue s a len := by
  rw [bytesValue_eq_sum, bufferValue]
  simp only [length_readBytes]
  refine Finset.sum_congr rfl fun i hi => ?_
  have hi := Finset.mem_range.1 hi
  rw [List.getElem?_eq_getElem (by simpa using hi)]
  simp [getElem_readBytes]

end Sys2Proof.Machine
end

