-- ==== Sys2Proof/Laws/Window.lean ====
section
/-! SUPPORT. The window map (R21): where each target stands, which are held or reserved, and the words of a 512-bit
register (R33) and of BUF (R36) after a write of one of them. -/

namespace Sys2Proof.Machine

/-! ### Words -/

/-- Word `k` of a register as a number (R33). -/
theorem getWord_toNat (r : Reg) (k : Fin 16) :
    (getWord r k).toNat = r.toNat / 2 ^ (32 * (15 - k.val)) % 2 ^ 32 := by
  simp [getWord, wordShift, BitVec.extractLsb'_toNat, Nat.shiftRight_eq_div_pow]

theorem getLsbD_getWord (r : Reg) (k : Fin 16) (i : Nat) (hi : i < 32) :
    (getWord r k).getLsbD i = r.getLsbD (wordShift k + i) := by
  simp [getWord, hi]

/-- The word just written reads back (R33). -/
@[simp] theorem getWord_putWord_same (r : Reg) (k : Fin 16) (v : Word) : getWord (putWord r k v) k = v := by
  apply BitVec.eq_of_getLsbD_eq
  intro i hi
  have hk := k.isLt
  have e1 : wordShift k + i < 512 := by unfold wordShift; omega
  have e2 : wordShift k + i - wordShift k = i := by omega
  have e3 : ¬ (wordShift k + i < wordShift k) := by omega
  rw [getLsbD_getWord _ _ _ hi, putWord]
  simp only [BitVec.getLsbD_or, BitVec.getLsbD_and, BitVec.getLsbD_not, BitVec.getLsbD_shiftLeft,
    BitVec.getLsbD_setWidth, BitVec.getLsbD_allOnes, e1, e2, e3, hi, show i < 512 by omega]
  simp

/-- Every other word keeps its bytes (R33). -/
theorem getWord_putWord_other (r : Reg) {k j : Fin 16} (v : Word) (h : j ≠ k) :
    getWord (putWord r k v) j = getWord r j := by
  apply BitVec.eq_of_getLsbD_eq
  intro i hi
  have hk := k.isLt
  have hj := j.isLt
  have hjk : j.val ≠ k.val := fun e => h (Fin.ext e)
  have e1 : wordShift j + i < 512 := by unfold wordShift; omega
  rw [getLsbD_getWord _ _ _ hi, getLsbD_getWord _ _ _ hi, putWord]
  simp only [BitVec.getLsbD_or, BitVec.getLsbD_and, BitVec.getLsbD_not, BitVec.getLsbD_shiftLeft,
    BitVec.getLsbD_setWidth, BitVec.getLsbD_allOnes, e1]
  by_cases e3 : wordShift j + i < wordShift k
  · simp [e3]
  · have e2 : 32 ≤ wordShift j + i - wordShift k := by unfold wordShift at *; omega
    rw [BitVec.getLsbD_of_ge v _ e2]
    simp [e3, show ¬ (wordShift j + i - wordShift k < 32) by omega]

/-- The words of BUF after a write of one of them (R36). -/
theorem getBufWord_putBufWord {m : Memory} (hm : Memory.wf m) (k j : Fin 32) (v : Word) :
    getBufWord (putBufWord m k v) j = if j = k then v else getBufWord m j := by
  have hk := k.isLt
  have hj := j.isLt
  unfold getBufWord putBufWord
  simp only [read_writeBytes hm.1]
  by_cases h : j = k
  · subst h
    rw [dif_pos (by simp), dif_pos (by simp), dif_pos (by simp), dif_pos (by simp), if_pos rfl]
    simp only [Nat.sub_self, Nat.add_sub_cancel_left, List.getElem_cons_zero, List.getElem_cons_succ]
    apply BitVec.eq_of_toNat_eq
    have orAdd : ∀ (x y : Nat), y < 2 ^ 8 → x * 2 ^ 8 ||| y = x * 2 ^ 8 + y := fun x y h => by
      rw [← Nat.shiftLeft_eq, Nat.shiftLeft_add_eq_or_of_lt h]
    simp only [BitVec.toNat_append, Nat.shiftLeft_eq]
    rw [orAdd _ _ (BitVec.isLt _), orAdd _ _ (BitVec.isLt _), orAdd _ _ (BitVec.isLt _)]
    simp only [BitVec.extractLsb'_toNat, Nat.shiftRight_eq_div_pow]
    have := v.isLt
    omega
  · have hjk : j.val ≠ k.val := fun e => h (Fin.ext e)
    rw [dif_neg (by simp; omega), dif_neg (by simp; omega), dif_neg (by simp; omega), dif_neg (by simp; omega),
      if_neg h]

/-! ### The map -/

/-- The block of a curve register. -/
def curveIndex : CurveName → Nat
  | .p => 0
  | .n => 1
  | .a => 2
  | .b => 3
  | .gx => 4
  | .gy => 5

/-- The offset at which a target stands (R21); 0 for the reserved ones. -/
def offsetOfTarget : Target → Nat
  | .id => 0x00
  | .version => 0x04
  | .cmd => 0x08
  | .status => 0x0C
  | .errcode => 0x10
  | .irqEn => 0x14
  | .buflen => 0x18
  | .curveCw => 0x1C
  | .curve name k => 0x100 + 0x40 * curveIndex name + 4 * k.val
  | .scalar i k => 0x400 + 0x40 * i.val + 4 * k.val
  | .buf k => 0x800 + 4 * k.val
  | .pointX i k => 0x1000 + 0x100 * i.val + 4 * k.val
  | .pointY i k => 0x1040 + 0x100 * i.val + 4 * k.val
  | .pointTag i => 0x1080 + 0x100 * i.val
  | .reserved => 0

theorem curveIndex_curveBlock {j : Nat} (h : j < 6) : curveIndex (curveBlock j) = j := by
  interval_cases j <;> rfl

/-- No offset names what stands at another. -/
theorem offsetOfTarget_target {off : Nat} (h4 : off % 4 = 0) (hb : off < 0x2000) :
    target off = .reserved ∨ offsetOfTarget (target off) = off := by
  unfold target controlTarget pointTarget
  split_ifs
  · split <;> simp [offsetOfTarget]
  · right
    simp only [offsetOfTarget, Fin.ofNat]
    rw [curveIndex_curveBlock (by omega)]
    omega
  · simp
  · right; simp only [offsetOfTarget, Fin.ofNat]; omega
  · right; simp only [offsetOfTarget, Fin.ofNat]; omega
  · simp
  · right; simp only [offsetOfTarget, Fin.ofNat]; omega
  · right; simp only [offsetOfTarget, Fin.ofNat]; omega
  · right; simp only [offsetOfTarget, Fin.ofNat]; omega
  · simp

/-- From 0x0018 up every offset is held while BUSY, and the reserved ones are those of R21 (R157, R158). -/
theorem target_held {off : Nat} (h4 : off % 4 = 0) (h18 : 0x18 ≤ off) (hb : off < 0x2000) :
    (target off).held = true ∧ (target off = .reserved ↔ ReservedOffset off) := by
  unfold ReservedOffset target controlTarget pointTarget
  split_ifs
  · split
    case h_9 h24 h28 =>
      have h24 : off ≠ 24 := h24
      have h28 : off ≠ 28 := h28
      exact ⟨rfl, ⟨fun _ => by omega, fun _ => rfl⟩⟩
    all_goals first | omega | (refine ⟨rfl, ?_⟩; simp only [reduceCtorEq, false_iff]; omega)
  all_goals refine ⟨rfl, ?_⟩; simp; omega

end Sys2Proof.Machine
end

