-- ==== Sys2Proof/Tests/Slice0.lean ====
section
/-! SUPPORT. Tests with expected values from the spec's tables (95_test_vectors.md, named in each comment) and words written
out from 30_encoding.md, and for every obligation with hypotheses a witness that meets them. -/

namespace Sys2Proof.Tests

-- One theorem at a time: each waits for the kernel, and every waiting theorem would hold a thread of its own.
set_option Elab.async false

open Sys2Proof.Machine

/-! ### Helpers -/

/-- The toy curve T17 of 95_test_vectors.md section 0. -/
def t17 : State := { State.reset with curve := { cw := 1, p := 17, n := 19, a := 2, b := 2, gx := 5, gy := 1 } }

/-- The toy curve T23 of 95_test_vectors.md section 0. -/
def t23 : State := { State.reset with curve := { cw := 1, p := 23, n := 29, a := 1, b := 4, gx := 0, gy := 2 } }

/-- One step on the word `w`, just accepted. -/
def fire (w : Nat) (s : State) : State :=
  match step (s.withFetchWord 32 w) with
  | .next t => t
  | _ => s

/-- One step of the engine on the command `i`, in flight with this progress. -/
def flight (i : Instr) (p : Progress) (s : State) : State := { s with cmd := encode i, engine := .busy p }

/-- The next state of one step on an event. -/
def onEvent (e : Event) (s : State) : State :=
  match step { s with inputs := [e] } with
  | .next t => t
  | _ => s

/-- BUF holding the bytes, and BUFLEN their number. -/
def withBuf (bytes : List Byte) (s : State) : State :=
  { s with buf := Memory.writeBytes [] 0 bytes, buflen := BitVec.ofNat 8 bytes.length }

/-- ERRCODE after a step, with S and PT as before. -/
def failsWith (code : Nat) (s t : State) : Bool :=
  decide (t.errcode.toNat = code) && decide (t.statusWord = 0x06) && decide (t.sreg = s.sreg) && decide (t.pt = s.pt)

/-! ### WellFormed: the one check, refused, and the decoder's refusals (R73) -/

/-- R73 (f): SIGN with equal destinations is ill formed. -/
theorem test_wellFormed_refuses_sign_same : (Instr.sign 5 5 2 1).wellFormed = false := by decide
theorem test_wellFormed_accepts_sign : (Instr.sign 5 6 2 1).wellFormed = true := by decide
/-- V-ENC-1, V-ENC-2. -/
theorem test_decode_refuses_opcode : decode 0x02000000 = .error .reservedOpcode := by decide
theorem test_decode_refuses_rsv : decode 0xFFFFFFFF = .error .reservedBits := by decide
/-- V-MOD-12, V-RS-10. -/
theorem test_decode_refuses_unused : decode 0x13201000 = .error .unusedField ∧ decode 0x40010000 = .error .unusedField := by
  decide
/-- V-ENC-4. -/
theorem test_decode_refuses_m : decode 0x20000001 = .error .modulusBit := by decide
/-- V-CFG-3. -/
theorem test_decode_refuses_preset : decode 0x01200000 = .error .presetId ∧ decode 0x01F00000 = .error .presetId := by
  decide
/-- V-EC-41. -/
theorem test_decode_refuses_sign_same : decode 0x42110000 = .error .sameDestination := by decide

/-! ### Decoding: words written out field by field, OP FA FB FC FD RSV M (R70, R72) -/

theorem test_decode_control :
    decode 0b00000000_0000_0000_0000_0000_0000000_0 = .ok .nop
    ∧ decode 0b00000001_0000_0000_0000_0000_0000000_0 = .ok (.curveSel .secp256r1)
    ∧ decode 0b00000001_0001_0000_0000_0000_0000000_0 = .ok (.curveSel .secp256k1) := by decide

theorem test_decode_modular :
    decode 0b00010000_0010_0000_0001_0000_0000000_0 = .ok (.modadd 2 0 1 .p)
    ∧ decode 0b00010001_0010_0000_0001_0000_0000000_1 = .ok (.modsub 2 0 1 .n)
    ∧ decode 0b00010010_0011_0001_0010_0000_0000000_1 = .ok (.modmul 3 1 2 .n)
    ∧ decode 0b00010011_0100_0000_0000_0000_0000000_0 = .ok (.modinv 4 0 .p) := by decide

theorem test_decode_point :
    decode 0b00100000_0010_0000_0001_0000_0000000_0 = .ok (.padd 2 0 1)
    ∧ decode 0b00100001_0010_0000_0000_0000_0000000_0 = .ok (.pdbl 2 0)
    ∧ decode 0b00100010_0001_0000_0100_0000_0000000_0 = .ok (.psmul 1 0 4)
    ∧ decode 0b00100011_0001_0011_0000_0000_0000000_0 = .ok (.pbmul 1 3) := by decide

theorem test_decode_validation :
    decode 0b00110000_0000_0111_0000_0000_0000000_0 = .ok (.schk 7)
    ∧ decode 0b00110001_0000_1111_0000_0000_0000000_0 = .ok (.pchk 15)
    ∧ decode 0b00110010_0000_0001_0000_0000_0000000_0 = .ok (.pkchk 1)
    ∧ decode 0b01000000_0010_0000_0000_0000_0000000_0 = .ok (.rsample 2) := by decide

theorem test_decode_ecdsa :
    decode 0b01000001_1111_1110_0000_0000_0000000_0 = .ok (.derive 15 14)
    ∧ decode 0b01000010_0101_0110_0010_0001_0000000_0 = .ok (.sign 5 6 2 1)
    ∧ decode 0b01000011_0010_0101_0110_0001_0000000_0 = .ok (.verify 2 5 6 1) := by decide

theorem test_decode_codec :
    decode 0b01010000_0000_1001_0000_0000_0000000_0 = .ok (.penc 9)
    ∧ decode 0b01010001_0010_0000_0000_0000_0000000_0 = .ok (.pdec 2)
    ∧ decode 0b01010010_0000_1001_0000_0000_0000000_0 = .ok (.pcomp 9)
    ∧ decode 0b01010011_0010_0000_0000_0000_0000000_0 = .ok (.pdecomp 2) := by decide

/-- The assembler examples of 95_test_vectors.md section 3.7 (R75). -/
theorem test_assembler_text :
    assemblerText (.modmul 3 1 2 .n) = "MODMUL.N S3, S1, S2" ∧ encode (.modmul 3 1 2 .n) = 0x12312001
    ∧ assemblerText (.verify 2 5 6 1) = "VERIFY S2, S5, S6, PT1" ∧ encode (.verify 2 5 6 1) = 0x43256100
    ∧ assemblerText (.curveSel .secp256k1) = "CURVE_SEL secp256k1" := by decide

/-! ### One step of each command -/

/-- V-CTL-2: RESULT is cleared. -/
theorem test_nop : (fire 0x00000000 { State.reset with result := true, done := true }).statusWord = 0x02 := by
  decide +kernel
/-- V-CFG-3. -/
theorem test_curveSel : (fire 0x01100000 State.reset).curve.b = 7 ∧ (fire 0x01100000 State.reset).cw = 32 := by
  decide +kernel
/-- V-MOD-1, V-MOD-6. -/
theorem test_modadd : (fire 0x10201000 ((t17.writeS 0 15).writeS 1 9)).readS 2 = 7
    ∧ (fire 0x10201001 ((t17.writeS 0 (2 ^ 512 - 1)).writeS 1 (2 ^ 512 - 1))).readS 2 = 16 := by decide +kernel
/-- V-MOD-9: the destination is a source. -/
theorem test_modadd_alias : (fire 0x10000000 (t17.writeS 0 9)).readS 0 = 1 := by decide +kernel
/-- V-MOD-2. -/
theorem test_modsub : (fire 0x11201000 ((t17.writeS 0 3).writeS 1 5)).readS 2 = 15
    ∧ (fire 0x11201001 ((t17.writeS 0 3).writeS 1 5)).readS 2 = 17 := by decide +kernel
/-- V-MOD-3, V-MOD-6. -/
theorem test_modmul : (fire 0x12201001 ((t17.writeS 0 16).writeS 1 16)).readS 2 = 9
    ∧ (fire 0x12201001 ((t17.writeS 0 (2 ^ 512 - 1)).writeS 1 (2 ^ 512 - 1))).readS 2 = 7 := by decide +kernel
/-- V-MOD-1, V-MOD-5. -/
theorem test_modinv : (fire 0x13200000 (t17.writeS 0 15)).readS 2 = 8 ∧ (fire 0x13200001 (t17.writeS 0 17)).readS 2 = 9 := by
  decide +kernel
/-- V-MOD-10. -/
theorem test_modinv_none : failsWith 2 t17 (fire 0x13000000 t17) = true := by decide +kernel
/-- V-PT-1, V-PT-7, V-PT-8. -/
theorem test_padd : (fire 0x20201000 ((t17.writePT 0 (.aff 5 1)).writePT 1 (.aff 5 1))).readPT 2 = .aff 6 3
    ∧ (fire 0x20201000 ((t17.writePT 0 (.aff 22 18)).writePT 1 (.aff 6 3))).readPT 2 = .aff 10 6
    ∧ (fire 0x20201000 ((t17.writePT 0 .inf).writePT 1 (.aff 22 18))).readPT 2 = .aff 22 18 := by decide +kernel
/-- V-PT-5, V-PT-6. -/
theorem test_padd_corners : (fire 0x20201000 ((t17.writePT 0 (.aff 5 1)).writePT 1 (.aff 5 16))).readPT 2 = .inf
    ∧ (fire 0x20201000 ((t17.writePT 0 (.aff 5 1)).writePT 1 (.aff 5 7))).errcode = 2 := by decide +kernel
/-- V-PT-24, V-PT-23. -/
theorem test_pdbl : (fire 0x21200000 (t17.writePT 0 (.aff 9 16))).readPT 2 = .aff 7 11
    ∧ (fire 0x21200000 (t17.writePT 0 (.aff 5 17))).readPT 2 = .inf := by decide +kernel
/-- V-PT-34, V-PT-35, V-PT-39. -/
theorem test_psmul : (fire 0x22200000 ((t17.writePT 0 (.aff 5 1)).writeS 0 18)).readPT 2 = .aff 5 16
    ∧ (fire 0x22200000 ((t17.writePT 0 (.aff 5 1)).writeS 0 19)).readPT 2 = .inf
    ∧ (fire 0x22200000 ((t17.writePT 0 (.aff 22 18)).writeS 0 1)).readPT 2 = .aff 22 18 := by decide +kernel
/-- V-PT-38: k is not reduced. -/
theorem test_psmul_wide : (fire 0x22200000 ((t17.writePT 0 (.aff 5 1)).writeS 0 (2 ^ 512 - 1))).readPT 2 = .aff 13 7 := by
  decide +kernel
/-- V-PT-50, V-PT-51. -/
theorem test_pbmul : (fire 0x23200000 (t17.writeS 0 7)).readPT 2 = .aff 0 6 ∧ (fire 0x23200000 t17).readPT 2 = .inf := by
  decide +kernel
/-- V-VAL-3, V-VAL-4, V-VAL-16. -/
theorem test_schk : (fire 0x30000000 (t17.writeS 0 18)).statusWord = 0x0A ∧ (fire 0x30000000 (t17.writeS 0 19)).statusWord = 0x02
    ∧ (fire 0x30000000 State.reset).statusWord = 0x02 := by decide +kernel
/-- V-VAL-13, V-VAL-11. -/
theorem test_pchk : (fire 0x31000000 (t17.writePT 0 (.aff 22 18))).statusWord = 0x0A
    ∧ (fire 0x31000000 (t17.writePT 0 .inf)).statusWord = 0x02 := by decide +kernel
/-- V-VAL-10, V-VAL-13. -/
theorem test_pkchk : (fire 0x32000000 (t17.writePT 0 (.aff 5 1))).statusWord = 0x0A
    ∧ (fire 0x32000000 (t17.writePT 0 (.aff 22 18))).statusWord = 0x02 := by decide +kernel
/-- V-RS-6: the request is raised; V-RS-2: 0x12 is accepted, 0x13 rejected. -/
theorem test_rsample : (fire 0x40200000 t17).statusWord = 0x41
    ∧ (onEvent .engine (flight (.rsample 2) (.answered [] (.byte 0x12)) t17)).readS 2 = 18
    ∧ (onEvent .engine (flight (.rsample 2) (.answered [] (.byte 0x13)) t17)).rngRequest = true := by decide +kernel
/-- V-RS-8: the first byte is the most significant. -/
theorem test_rsample_two_bytes :
    (onEvent .engine (flight (.rsample 2) (.answered [0x12] (.byte 0x34))
      { t17 with curve := { t17.curve with cw := 2, p := 65521, n := 65519 } })).readS 2 = 0x1234 := by decide +kernel
/-- V-EC-14, V-EC-15. -/
theorem test_derive : (fire 0x41200000 (t17.writeS 0 18)).readPT 2 = .aff 5 16
    ∧ failsWith 1 (t17.writeS 0 19) (fire 0x41200000 (t17.writeS 0 19)) = true := by decide +kernel
/-- V-EC-20: (r, s) = (10, 14) for k = 3. -/
theorem test_sign :
    (onEvent .engine (flight (.sign 2 3 4 1) (.answered [] (.byte 3)) ((t17.writeS 4 10).writeS 1 7))).readS 2 = 10
    ∧ (onEvent .engine (flight (.sign 2 3 4 1) (.answered [] (.byte 3)) ((t17.writeS 4 10).writeS 1 7))).readS 3 = 14 := by
  decide +kernel
/-- V-EC-22 and V-EC-26: r = 0 and s = 0 are retried; V-EC-29: the key is checked before any byte is requested. -/
theorem test_sign_retry :
    (onEvent .engine (flight (.sign 2 3 4 1) (.answered [] (.byte 7)) ((t17.writeS 4 10).writeS 1 7))).rngRequest = true
    ∧ (onEvent .engine (flight (.sign 2 3 4 1) (.answered [] (.byte 3)) ((t17.writeS 4 6).writeS 1 7))).rngRequest = true
    ∧ (fire 0x42234100 (t17.writeS 4 10)).errcode = 1 := by decide +kernel
/-- V-EC-31, V-EC-33. -/
theorem test_verify :
    (fire 0x43423000 ((((t17.writeS 4 10).writeS 2 10).writeS 3 14).writePT 0 (.aff 0 6))).statusWord = 0x0A
    ∧ (fire 0x43423000 ((((t17.writeS 4 11).writeS 2 10).writeS 3 14).writePT 0 (.aff 0 6))).statusWord = 0x02 := by
  decide +kernel
/-- V-EC-39 (the doubling line) and V-EC-40 (the sum is INF). -/
theorem test_verify_corners :
    (fire 0x43423000 ((((t17.writeS 4 3).writeS 2 3).writeS 3 11).writePT 0 (.aff 5 1))).statusWord = 0x0A
    ∧ (fire 0x43423000 ((((t17.writeS 4 12).writeS 2 1).writeS 3 1).writePT 0 (.aff 0 6))).statusWord = 0x02 := by
  decide +kernel
/-- V-CD-2, V-CD-4. -/
theorem test_penc : (fire 0x50000000 (t23.writePT 0 (.aff 7 20))).buf = [(0, 0x07), (1, 0x14)]
    ∧ (fire 0x50000000 (t23.writePT 0 (.aff 7 20))).buflen = 2
    ∧ (fire 0x50000000 (t23.writePT 0 (.aff 300 1))).errcode = 3 := by decide +kernel
/-- V-CD-11, V-CD-12. -/
theorem test_pdec : (fire 0x51200000 (withBuf [0x17, 0x05] t23)).readPT 2 = .aff 23 5
    ∧ (fire 0x51200000 (withBuf [0, 2, 3] t23)).errcode = 4 := by decide +kernel
/-- V-CD-6, V-CD-8. -/
theorem test_pcomp : (fire 0x52000000 (t23.writePT 0 (.aff 7 20))).buf = [(0, 0x02), (1, 0x07)]
    ∧ (fire 0x52000000 (t23.writePT 0 (.aff 300 1))).errcode = 1 := by decide +kernel
/-- V-CD-22, V-CD-23. -/
theorem test_pdecomp : (fire 0x53200000 (withBuf [0x02, 0x0B] t23)).readPT 2 = .aff 11 14
    ∧ (fire 0x53200000 (withBuf [0x03, 0x0B] t23)).readPT 2 = .aff 11 9 := by decide +kernel
/-- V-CD-17, V-CD-28, V-CD-26: the order of the checks, and the zero root. -/
theorem test_pdecomp_errors : (fire 0x53200000 (withBuf [0x02, 0x05] t17)).errcode = 8
    ∧ (fire 0x53200000 (withBuf [0x04, 0x05] t17)).errcode = 4
    ∧ (fire 0x53200000 (withBuf [0x03, 0x00] { t23 with curve := { t23.curve with b := 0 } })).errcode = 4 := by
  decide +kernel

/-! ### The window -/

/-- V-HAZ-1: a CMD write while BUSY is dropped. -/
theorem test_cmd_overrun : (onEvent (.write 0x0008 .w32 0) (flight (.rsample 2) (.waiting []) t17)).cmdovr = true
    ∧ (onEvent (.write 0x0008 .w32 0) (flight (.rsample 2) (.waiting []) t17)).cmd = 0x40200000 := by decide +kernel
/-- V-HAZ-2, V-HAZ-5. -/
theorem test_held_write : (onEvent (.write 0x0400 .w32 1) (flight (.rsample 2) (.waiting []) t17)).wbusy = true
    ∧ (onEvent (.write 0x0020 .w32 1) (flight (.rsample 2) (.waiting []) t17)).wbusy = false := by decide +kernel
/-- V-HAZ-4. -/
theorem test_held_read : (onEvent (.read 0x001C .w32) (flight (.rsample 2) (.waiting []) t17)).response = some (.data 0)
    ∧ (onEvent (.read 0x001C .w32) t17).response = some (.data 1) := by decide +kernel
/-- R33: the least significant word stands at the highest offset. -/
theorem test_word_order : (onEvent (.read 0x043C .w32) (t17.writeS 0 0x123456789)).response = some (.data 0x23456789)
    ∧ (onEvent (.read 0x0438 .w32) (t17.writeS 0 0x123456789)).response = some (.data 1) := by decide +kernel
/-- R36: BUF[0] stands in bits [31:24]. -/
theorem test_buf_order : (onEvent (.write 0x0800 .w32 0x01020304) State.reset).buf = [(0, 1), (1, 2), (2, 3), (3, 4)] := by
  decide +kernel
/-- R51. -/
theorem test_bus_error : (onEvent (.read 0x0002 .w32) t17).response = some .busError
    ∧ (onEvent (.write 0x0000 .w8 0) t17).response = some .busError := by decide +kernel

/-- R51 and R149 together: in reset a bad access still gets a bus error, and a performed read returns 0, ID too. -/
theorem test_access_in_reset : (onEvent (.read 0x0002 .w32) { State.reset with rst := true }).response = some .busError
    ∧ (onEvent (.read 0x0000 .w32) { State.reset with rst := true }).response = some (.data 0) := by decide +kernel

/-- R149: an answer to a withdrawn request leaves the next command's request raised. -/
theorem test_withdrawn_answer :
    (onEvent (.rngWithdrawn (.byte 7)) (flight (.rsample 2) (.waiting []) t17)).rngRequest = true := by decide +kernel

/-- V-RST-2. -/
theorem test_reset_in_flight : (onEvent (.rst true) (flight (.rsample 2) (.waiting []) t17)).statusWord = 0
    ∧ (onEvent (.rst true) (flight (.rsample 2) (.waiting []) t17)).cw = 0 := by decide +kernel

/-! ### Witnesses: states and operands that meet the hypotheses of the obligations, clause by clause -/

/-- T17 with RSAMPLE S2 waiting for its first byte. -/
def waiting : State := flight (.rsample 2) (.waiting []) t17

/-- An event pending. -/
def pending (e : Event) (s : State) : State := { s with inputs := [e] }

theorem witness_DecodeOfEncodeIsIdentity : (Instr.sign 15 14 13 12).WellFormed := by decide

theorem witness_EncodeOfDecodeIsIdentity : decode 0x43FFFF00 = .ok (.verify 15 15 15 15) := by decide

theorem witness_DecoderAgreesWithOpcodeTable :
    (⟨"SIGN", 0x42000000, 0xFF0000FF⟩ : OpcodeRow) ∈ opcodeRows
    ∧ (0x42FE0000 : Word) &&& 0xFF0000FF = 0x42000000 ∧ faField 0x42FE0000 ≠ fbField 0x42FE0000 := by decide

theorem witness_IllegalWordsRaiseIllegalCommand :
    (pending .engine { t17 with cmd := 0x42FF0000, engine := .busy .ready }).inputs = [.engine] ∧ IllegalWord 0x42FF0000 := by
  refine ⟨rfl, ?_⟩
  simp [IllegalWord, rowUse]

theorem witness_EngineTurnRunsDecodedCommand :
    (∀ drawn, Progress.answered [] .failure ≠ .waiting drawn)
    ∧ decode (flight (.rsample 2) (.answered [] .failure) t17).cmd = .ok (.rsample 2)
    ∧ (pending .engine (flight (.rsample 2) (.answered [] .failure) t17)).inputs = [.engine]
    ∧ (flight (.rsample 2) (.answered [] .failure) t17).inputs = []
    ∧ t17.engine = .idle ∧ t17.inputs = [] ∧ (pending .engine t17).inputs = [.engine]
    ∧ waiting.engine = .busy (.waiting []) := by
  refine ⟨nofun, by decide, rfl, rfl, rfl, rfl, rfl, rfl⟩

theorem witness_inv_waiting : Inv waiting where
  bufCanonical := by decide
  codeAssigned := by decide
  errHasCode := by decide
  resultHasNoCode := by decide
  busyCleared := by decide
  drawInFlight := by
    refine ⟨by decide +kernel, by decide, ?_⟩
    rw [show decode waiting.cmd = .ok (.rsample 2) by decide]
    trivial
  resetHeld := by decide

theorem witness_EveryStepKeepsInvariant : Inv waiting ∧ ∃ t, step waiting = .next t :=
  ⟨witness_inv_waiting, _, rfl⟩

theorem witness_ResetTakesPrecedence :
    (pending (.rst true) waiting).inputs = [.rst true]
    ∧ (pending (.rst false) { State.reset with rst := true }).rst = true
    ∧ (pending (.read 0x1FFC .w32) { State.reset with rst := true }).inputs = [.read 0x1FFC .w32]
    ∧ (0x1FFC : Offset).toNat % 4 = 0 ∧ (0x0008 : Offset).toNat % 4 = 0
    ∧ (pending (.rngWithdrawn (.byte 7)) waiting).inputs = [.rngWithdrawn (.byte 7)]
    ∧ (pending (.write 0x0008 .w32 1) { State.reset with rst := true }).inputs = [.write 0x0008 .w32 1]
    ∧ (pending (.rng .failure) t17).inputs = [.rng .failure] ∧ (pending (.rng .failure) t17).rngRequest = false := by decide

theorem witness_NothingIsConfiguredAfterReset :
    (0x1FFC < 0x2000 ∧ 0x1FFC % 4 = 0) ∧ (Instr.rsample 15).WellFormed ∧ Instr.rsample 15 ≠ .nop
    ∧ (∀ id, Instr.rsample 15 ≠ .curveSel id) ∧ (∀ a, Instr.rsample 15 ≠ .schk a) ∧ (∀ a, Instr.rsample 15 ≠ .pchk a)
    ∧ (∀ a, Instr.rsample 15 ≠ .pkchk a) ∧ Instr.pkchk 15 ∈ [Instr.schk 15, Instr.pchk 15, Instr.pkchk 15] :=
  ⟨by decide, by decide, nofun, nofun, nofun, nofun, nofun, by decide⟩

theorem witness_CmdWriteIssuesOrIsDropped :
    (pending (.write 0x0008 .w32 0x40200000) t17).inputs = [.write 0x0008 .w32 0x40200000] ∧ t17.rst = false
    ∧ t17.engine = .idle ∧ (pending (.write 0x0008 .w32 0) waiting).inputs = [.write 0x0008 .w32 0] ∧ waiting.rst = false
    ∧ waiting.busy = true ∧ (pending (.read 0x0008 .w32) waiting).inputs = [.read 0x0008 .w32] := by decide

theorem witness_CmdOverrunIsDroppedAndSticky :
    (pending (.write 0x0008 .w32 0) waiting).inputs = [.write 0x0008 .w32 0] ∧ waiting.rst = false ∧ waiting.busy = true
    ∧ ({ waiting with cmdovr := true } : State).cmdovr = true ∧ ∃ t, step { waiting with cmdovr := true } = .next t :=
  ⟨rfl, rfl, rfl, rfl, _, rfl⟩

theorem witness_HeldWritesAreDroppedWhileBusy :
    (pending (.write 0x0018 .w32 1) waiting).inputs = [.write 0x0018 .w32 1] ∧ waiting.rst = false ∧ waiting.busy = true
    ∧ ¬ ReservedOffset 0x0018 ∧ ¬ ReservedOffset 0x1F80 ∧ ReservedOffset 0x0020 ∧ ReservedOffset 0x1FFC
    ∧ ({ waiting with wbusy := true } : State).wbusy = true
    ∧ (pending (.write 0x0014 .w32 1) waiting).inputs = [.write 0x0014 .w32 1]
    ∧ (pending (.write 0x000C .w32 1) waiting).inputs = [.write 0x000C .w32 1]
    ∧ (pending (.write 0x0010 .w32 1) waiting).inputs = [.write 0x0010 .w32 1] := by
  unfold ReservedOffset
  decide

theorem witness_HeldReadsReturnZeroWhileBusy :
    (pending (.read 0x1FFC .w32) waiting).inputs = [.read 0x1FFC .w32] ∧ waiting.rst = false ∧ waiting.busy = true
    ∧ (0x1FFC : Offset).toNat % 4 = 0 ∧ (0x18 : Offset).toNat = 0x18
    ∧ (1 : Word).toNat = ({ waiting with irqEn := true } : State).irqEn.toNat
    ∧ (0 : Word).toNat = waiting.errcode.toNat := by decide

theorem witness_BadAccessesGetABusError :
    (0x1FFF : Offset).toNat % 4 ≠ 0 ∧ AccessWidth.burst ≠ .w32
    ∧ (pending (.read 0x1FFF .w32) t17).inputs = [.read 0x1FFF .w32]
    ∧ (pending (.write 0x0000 .burst 0) t17).inputs = [.write 0x0000 .burst 0] := by decide

theorem witness_StatusBitsAndIrq :
    (pending (.write 0x000C .w32 0xFFFFFFFF) waiting).inputs = [.write 0x000C .w32 0xFFFFFFFF] ∧ waiting.rst = false := by
  decide

theorem witness_IdAndVersionAreConstants :
    waiting.rst = false ∧ (pending (.read 0x0000 .w32) waiting).inputs = [.read 0x0000 .w32]
    ∧ (pending (.read 0x0004 .w32) waiting).inputs = [.read 0x0004 .w32]
    ∧ (pending (.write 0x0000 .w32 7) waiting).inputs = [.write 0x0000 .w32 7]
    ∧ (pending (.write 0x0004 .w32 7) waiting).inputs = [.write 0x0004 .w32 7] := by decide

theorem witness_WindowReadsBackWhatWasWritten :
    (pending (.write 0x1F80 .w32 3) t17).inputs = [.write 0x1F80 .w32 3] ∧ t17.rst = false ∧ t17.engine = .idle
    ∧ (0x1F80 : Offset).toNat % 4 = 0 ∧ 0x18 ≤ (0x1F80 : Offset).toNat ∧ 0x18 ≤ (0x18 : Offset).toNat
    ∧ Memory.wf (withBuf [1, 0, 2] t17).buf := by decide

theorem witness_WindowIsBigEndian :
    (pending (.read 0x0018 .w32) t17).inputs = [.read 0x0018 .w32] ∧ (0x0018 : Offset).toNat % 4 = 0 ∧ t17.rst = false
    ∧ t17.engine = .idle ∧ ReservedOffset (0x1FFC : Offset).toNat ∧ (0x1FFC : Offset).toNat % 4 = 0
    ∧ 15 < 16 ∧ 31 < 32 := by
  unfold ReservedOffset
  decide

theorem witness_CurveOkGuardsEveryCommand :
    ({ t17 with curve := { t17.curve with cw := 65 } } : State).curveOk = false ∧ (Instr.sign 0 1 2 3).WellFormed
    ∧ Instr.sign 0 1 2 3 ≠ .nop ∧ (∀ id, Instr.sign 0 1 2 3 ≠ .curveSel id)
    ∧ (∀ a, Instr.sign 0 1 2 3 ≠ .schk a ∧ Instr.sign 0 1 2 3 ≠ .pchk a ∧ Instr.sign 0 1 2 3 ≠ .pkchk a)
    ∧ (Instr.pkchk 15).WellFormed ∧ Instr.pkchk 15 ≠ .nop ∧ (∀ id, Instr.pkchk 15 ≠ .curveSel id)
    ∧ ∃ t, exec (.curveSel .secp256k1) State.reset = .next t :=
  ⟨by decide +kernel, by decide, nofun, nofun, fun _ => ⟨nofun, nofun, nofun⟩, by decide, nofun, nofun, _, rfl⟩

theorem witness_EveryTurnEndsInOneOfThreeWays : ∃ t, exec (.rsample 2) t17 = .next t := ⟨_, rfl⟩

theorem witness_OnlyCurveSelWritesTheCurve :
    (∃ t, exec (.pdecomp 2) t23 = .next t) ∧ ∀ id, Instr.pdecomp 2 ≠ .curveSel id := ⟨⟨_, rfl⟩, nofun⟩

/-- T17 with S0 = 1. -/
def one17 : State := t17.writeS 0 1

theorem witness_OnlyPredicatesSetResult :
    ∃ t, exec (.schk 0) one17 = .next t ∧ t.engine = .idle ∧ t.result = true := by
  refine ⟨commit (predicate one17 (one17.validScalar (one17.readS 0))) one17, rfl, ?_, ?_⟩ <;> decide +kernel

theorem witness_OnlyRsampleAndSignRequestBytes :
    ∃ t, exec (.rsample 2) t17 = .next t ∧ t.rngRequest = true ∧ t17.rngRequest = false :=
  ⟨_, rfl, by decide +kernel, rfl⟩

theorem witness_OperandsAreHeldInFlight :
    waiting.busy = true ∧ ∃ t, step (pending (.write 0x0400 .w32 5) waiting) = .next t ∧ t.busy = true :=
  ⟨rfl, _, rfl, by decide +kernel⟩

theorem witness_HostLearnsNothingInFlight :
    SameOutsideOperands (pending (.read 0x0400 .w32) waiting) (pending (.read 0x0400 .w32) { waiting with buflen := 5 })
    ∧ waiting.busy = true ∧ (pending (.read 0x0400 .w32) waiting).inputs = [.read 0x0400 .w32]
    ∧ Event.read 0x0400 .w32 ≠ .engine :=
  ⟨⟨rfl, rfl, rfl, rfl, rfl, rfl, rfl, rfl, rfl, rfl, rfl, rfl⟩, rfl, rfl, nofun⟩

theorem witness_UnansweredRequestHangs :
    waiting.rngwait = true ∧ ∀ e ∈ ({ waiting with inputs := [.read 0x000C .w32, .write 0x0400 .w32 1, .rngWithdrawn .failure, .engine] } : State).inputs,
      e.quiet := by
  refine ⟨rfl, fun e he => ?_⟩
  fin_cases he <;> trivial

theorem witness_EngineTurnMakesProgress :
    (pending .engine (flight (.padd 0 1 2) .ready t17)).inputs = [.engine]
    ∧ (flight (.padd 0 1 2) .ready t17).busy = true ∧ (flight (.padd 0 1 2) .ready t17).rngwait = false := by decide

theorem witness_AnswersAreTakenOnce :
    (pending (.rng .failure) waiting).inputs = [.rng .failure] ∧ waiting.engine = .busy (.waiting [])
    ∧ (pending (.rng .failure) t17).rngwait = false := by decide

theorem witness_NopCompletes : (0x00FFFFFF : Word).toNat < 2 ^ 24 ∧ (0x00FFFFFF : Word) ≠ 0 ∧ (1 : Word) ≠ 0 := by decide

theorem witness_CurveSelLoadsThePreset : 2 ≤ (2 : Fin 16).val ∧ 2 ≤ (15 : Fin 16).val := by decide

/-- For MODADD, MODSUB, MODMUL and MODINV: both cases of curve_ok, and a value with and one without an inverse. -/
theorem witness_ModularCommands :
    t17.curveOk = true ∧ State.reset.curveOk = false
    ∧ Nat.gcd ((t17.writeS 0 18).readS 0 % modulusValue t17 .n) (modulusValue t17 .n) = 1
    ∧ Nat.gcd (t17.readS 0 % modulusValue t17 .p) (modulusValue t17 .p) ≠ 1 := by decide +kernel

theorem witness_InverseIsUniqueAndFermat :
    2 ≤ 2 ∧ Nat.gcd (1 % 2) 2 = 1 ∧ Nat.Prime 17 ∧ 16 % 17 ≠ 0 := by decide +kernel

theorem witness_PaddIsTheGroupLaw :
    2 ≤ 17 ∧ (5 % 17 = 22 % 17 ∧ (1 + 16) % 17 = 0) ∧ (5 % 17 = 22 % 17 ∧ 1 % 17 = 18 % 17 ∧ (1 + 18) % 17 ≠ 0)
    ∧ (5 % 17 = 5 % 17 ∧ 1 % 17 ≠ 7 % 17 ∧ (1 + 7) % 17 ≠ 0)
    ∧ (0 % 15 ≠ 5 % 15 ∧ Nat.gcd ((5 + (15 - 0 % 15)) % 15) 15 ≠ 1)
    ∧ (5 % 17 ≠ 6 % 17 ∧ Nat.gcd ((6 + (17 - 5 % 17)) % 17) 17 = 1) := by decide

theorem witness_PdblIsTheTangentLaw :
    2 ≤ 2 ∧ 17 % 17 = 0 ∧ (1 % 2 ≠ 0 ∧ Nat.gcd (2 * 1 % 2) 2 ≠ 1) ∧ (1 % 17 ≠ 0 ∧ Nat.gcd (2 * 1 % 17) 17 = 1) := by decide

theorem witness_ArithmeticErrorsOfThePointUnits : 2 ≤ 2 ∧ Nat.Prime 3 ∧ 3 ≠ 2 ∧ ∃ e, padd 3 0 (.aff 0 0) (.aff 0 1) = .error e :=
  ⟨by decide, by decide, by decide, .arithmetic, by decide⟩

theorem witness_PaddCommand :
    t17.curveOk = true
    ∧ padd 17 2 (((t17.writePT 0 (.aff 5 1)).writePT 1 (.aff 6 3)).readPT 0) (((t17.writePT 0 (.aff 5 1)).writePT 1 (.aff 6 3)).readPT 1)
        = .ok (.aff 10 6)
    ∧ padd 17 2 (((t17.writePT 0 (.aff 5 1)).writePT 1 (.aff 5 7)).readPT 0) (((t17.writePT 0 (.aff 5 1)).writePT 1 (.aff 5 7)).readPT 1)
        = .error .arithmetic
    ∧ State.reset.curveOk = false := by decide +kernel

theorem witness_PdblCommand :
    pdbl 17 2 ((t17.writePT 0 (.aff 9 16)).readPT 0) = .ok (.aff 7 11)
    ∧ ({ t17 with curve := { t17.curve with p := 2 } } : State).curveOk = true
    ∧ pdbl 2 2 ((t17.writePT 0 (.aff 0 1)).readPT 0) = .error .arithmetic := by decide +kernel

/-- For PSMUL and PBMUL, with the operand S[k] = 1 and one that fails on the composite p = 15. -/
theorem witness_ScalarMultiplications :
    psmul 17 2 (.aff 5 1) ((t17.writeS 0 18).readS 0) = .ok (.aff 5 16) ∧ (t17.writeS 0 1).readS 0 = 1
    ∧ ({ t17 with curve := { t17.curve with p := 15 } } : State).curveOk = true
    ∧ psmul 15 0 (.aff 1 5) ((t17.writeS 0 2).readS 0) = .error .arithmetic := by decide +kernel

theorem witness_RsampleCommand :
    t17.curveOk = true ∧ (flight (.rsample 2) .ready t17).engine = .busy .ready
    ∧ (flight (.rsample 2) (.answered [] .failure) t17).engine = .busy (.answered [] .failure)
    ∧ ([] : List Byte).length + 1 < ({ t17 with curve := { t17.curve with cw := 2 } } : State).curve.cw.toNat
    ∧ t17.curve.cw.toNat ≤ ([] : List Byte).length + 1 ∧ ¬ ValidScalar t17 (bytesValue [] * 256 + (19 : Byte).toNat)
    ∧ ValidScalar t17 (bytesValue [] * 256 + (18 : Byte).toNat) := by
  unfold ValidScalar
  decide +kernel

theorem witness_RsampleRunYieldsFirstValidDraw :
    t17.curveOk = true ∧ (flight (.rsample 2) .ready t17).cmd = encode (.rsample 2)
    ∧ (∀ draw ∈ [[(0 : Byte)], [19]], draw.length = t17.curve.cw.toNat ∧ ¬ ValidScalar t17 (bytesValue draw))
    ∧ [(18 : Byte)].length = t17.curve.cw.toNat ∧ ValidScalar t17 (bytesValue [18])
    ∧ ({ flight (.rsample 2) .ready t17 with inputs := drawEvents [0, 19, 18] } : State).inputs
        = drawEvents ([[0], [19]].flatten ++ [18]) ++ [] := by
  unfold ValidScalar
  decide +kernel

theorem witness_DeriveCommand :
    ¬ ValidScalar t17 ((t17.writeS 0 19).readS 0) ∧ ValidScalar t17 ((t17.writeS 0 18).readS 0)
    ∧ psmul 17 2 (.aff 5 1) ((t17.writeS 0 18).readS 0) = .ok (.aff 5 16)
    ∧ ValidScalar { t17 with curve := { t17.curve with p := 15, gx := 1, gy := 5 } } ((t17.writeS 0 2).readS 0)
    ∧ psmul 15 2 (.aff 1 5) ((t17.writeS 0 2).readS 0) = .error .arithmetic := by
  unfold ValidScalar
  decide +kernel

theorem witness_SignChecksThenDraws :
    (2 : SReg) ≠ 3 ∧ State.reset.curveOk = false ∧ t17.curveOk = true ∧ ¬ ValidScalar t17 (t17.readS 1)
    ∧ ValidScalar t17 ((t17.writeS 1 18).readS 1) ∧ (flight (.sign 2 3 4 1) .ready t17).engine = .busy .ready
    ∧ t17.curve.cw.toNat ≤ ([] : List Byte).length + 1 ∧ ¬ ValidScalar t17 (bytesValue [] * 256 + (0 : Byte).toNat) := by
  unfold ValidScalar
  decide +kernel

/-- The three ends of a nonce on T17 (V-EC-20, V-EC-22, V-EC-26), and a nonce without an inverse for n = 9. -/
theorem witness_SignNonceEquation :
    ValidScalar t17 3 ∧ psmul 17 2 (.aff 5 1) 3 = .ok (.aff 10 6) ∧ 10 % 19 = 10 ∧ Nat.gcd 3 19 = 1
    ∧ 3 * 14 % 19 = (10 + 10 * 7) % 19 ∧ 3 * 0 % 19 = (6 + 10 * 7) % 19
    ∧ psmul 17 2 (.aff 5 1) 7 = .ok (.aff 0 6) ∧ 0 % 19 = 0
    ∧ ValidScalar { t17 with curve := { t17.curve with n := 9 } } 3 ∧ 10 % 9 ≠ 0 ∧ Nat.gcd 3 9 ≠ 1
    ∧ ValidScalar { t17 with curve := { t17.curve with n := 20 } } 19 ∧ psmul 17 2 (.aff 5 1) 19 = .ok .inf := by
  unfold ValidScalar
  decide +kernel

theorem witness_VerifyCommand :
    t17.curveOk = true ∧ ValidScalar t17 10 ∧ ValidScalar t17 14 ∧ ValidKey t17 (.aff 0 6) ∧ ¬ ValidKey t17 .inf
    ∧ 15 < 19 ∧ 14 * 15 % 19 = 1
    ∧ psmul 17 2 (.aff 5 1) (10 * 15 % 19) = .ok (.aff 6 14) ∧ psmul 17 2 (.aff 0 6) (10 * 15 % 19) = .ok (.aff 9 16)
    ∧ padd 17 2 (.aff 6 14) (.aff 9 16) = .ok (.aff 10 6) := by
  refine ⟨by decide +kernel, ⟨by decide, by decide +kernel⟩, ⟨by decide, by decide +kernel⟩, (pkValid_iff _ _).1 (by decide +kernel), ?_,
    by decide⟩
  rintro ⟨x, y, h, -⟩
  cases h

theorem witness_PencCommand :
    Memory.wf t23.buf ∧ t23.curveOk = true ∧ (t23.writePT 0 .inf).readPT 0 = .inf
    ∧ (t23.writePT 0 (.aff 255 255)).readPT 0 = .aff 255 255 ∧ 255 < 2 ^ (8 * t23.curve.cw.toNat)
    ∧ (t23.writePT 0 (.aff 256 0)).readPT 0 = .aff 256 0 ∧ 2 ^ (8 * t23.curve.cw.toNat) ≤ 256 := by decide +kernel

theorem witness_PdecCommand :
    t23.curveOk = true ∧ (withBuf [23, 5] t23).buflen.toNat = 2 * t23.curve.cw.toNat
    ∧ (withBuf [23] t23).buflen.toNat ≠ 2 * t23.curve.cw.toNat := by decide +kernel

theorem witness_PcompCommand :
    Memory.wf t23.buf ∧ t23.curveOk = true ∧ ValidKey t23 (.aff 7 20) ∧ ¬ ValidKey t23 ((t23.writePT 0 (.aff 300 1)).readPT 0) := by
  refine ⟨by decide, by decide +kernel, (pkValid_iff _ _).1 (by decide +kernel), fun h => ?_⟩
  exact absurd ((pkValid_iff _ _).2 h) (by decide +kernel)

/-- The checks of PDECOMP at their boundaries: the length, the tag, p mod 4, x = p - 1 and x = p, the root, the parity. -/
theorem witness_PdecompCommand :
    t23.curveOk = true ∧ (withBuf [2, 22] t23).buflen.toNat = t23.curve.cw.toNat + 1
    ∧ (withBuf [2] t23).buflen.toNat ≠ t23.curve.cw.toNat + 1 ∧ (Memory.read (withBuf [2, 22] t23).buf 0).toNat = 2
    ∧ (Memory.read (withBuf [4, 22] t23).buf 0).toNat = 4 ∧ 23 % 4 = 3 ∧ 17 % 4 ≠ 3 ∧ 22 < 23 ∧ 23 ≤ 23
    ∧ (22 ^ 3 + 1 * 22 + 4) % 23 = 2 ∧ 2 ^ ((23 + 1) / 4) % 23 = 18 ∧ 18 * 18 % 23 = 2
    ∧ (2 ^ 3 + 1 * 2 + 4) % 23 = 14 ∧ (14 ^ ((23 + 1) / 4) % 23) * (14 ^ ((23 + 1) / 4) % 23) % 23 ≠ 14
    ∧ (0 ^ 3 + 1 * 0 + 0) % 23 = 0 := by decide +kernel

theorem witness_DecodingAnEncodedPointGivesItBack :
    Memory.wf (t23.writePT 0 (.aff 22 22)).buf ∧ (t23.writePT 0 (.aff 22 22)).curveOk = true
    ∧ (t23.writePT 0 (.aff 22 22)).readPT 0 = .aff 22 22 ∧ 22 < t23.curve.p.toNat
    ∧ ∃ t, exec (.penc 0) (t23.writePT 0 (.aff 22 22)) = .next t :=
  ⟨by decide +kernel, by decide +kernel, by decide +kernel, by decide +kernel, _, rfl⟩

theorem witness_DecompressingACompressedKeyGivesItBack :
    Memory.wf t23.buf ∧ t23.curveOk = true ∧ t23.curve.p.toNat.Prime ∧ t23.curve.p.toNat % 4 = 3
    ∧ ValidKey (t23.writePT 0 (.aff 7 20)) ((t23.writePT 0 (.aff 7 20)).readPT 0)
    ∧ ∃ t, exec (.pcomp 0) (t23.writePT 0 (.aff 7 20)) = .next t :=
  ⟨by decide +kernel, by decide +kernel, by rw [show t23.curve.p.toNat = 23 by decide +kernel]; norm_num, by decide +kernel,
    (pkValid_iff _ _).1 (by decide +kernel), _, rfl⟩

end Sys2Proof.Tests
end

section
/-! PROOFS. The control registers of the window (10_state.md): the bits of STATUS and the irq output (R24, R40), CMD
(R23), ID and VERSION (R27). -/

namespace Sys2Proof.Machine

/-! ### The views of the engine (R24, R38, R39) -/

theorem busy_iff (s : State) : s.busy = true ↔ s.engine ≠ .idle := by
  unfold State.busy
  cases s.engine <;> simp

theorem rngwait_iff (s : State) : s.rngwait = true ↔ ∃ drawn, s.engine = .busy (.waiting drawn) := by
  unfold State.rngwait
  rcases s.engine with _ | _ | _ | _ <;> simp

/-! ### One bit of a bus word -/

theorem toNat_bitAt (b : Bool) {i : Nat} (hi : i < 32) : (bitAt b i).toNat = 2 ^ i * b.toNat := by
  have hlt : 2 ^ i < 2 ^ 32 := Nat.pow_lt_pow_right (by decide) hi
  cases b
  · simp [bitAt]
  · simpa [bitAt, Nat.shiftLeft_eq] using hlt

theorem getElem_bitAt (b : Bool) (i : Nat) {j : Nat} (hj : j < 32) :
    (bitAt b i)[j] = (decide (j = i) && b) := by
  rcases lt_trichotomy j i with h | rfl | h
  · simp [bitAt, h, h.ne]
  · simp [bitAt]
  · have : j - i ≠ 0 := by omega
    simp [bitAt, h.ne', this]

/-- A bit above every bit of a word adds its weight to it. -/
theorem toNat_or_bitAt {x : Word} (b : Bool) {i : Nat} (hi : i < 32) (hx : x.toNat < 2 ^ i) :
    (x ||| bitAt b i).toNat = x.toNat + 2 ^ i * b.toNat := by
  rw [BitVec.toNat_or, toNat_bitAt b hi, Nat.or_comm, ← Nat.two_pow_add_eq_or_of_lt hx, Nat.add_comm]

theorem or_bitAt_lt {x : Word} (b : Bool) {i : Nat} (hi : i < 32) (hx : x.toNat < 2 ^ i) :
    (x ||| bitAt b i).toNat < 2 ^ (i + 1) := by
  rw [toNat_or_bitAt b hi hx, pow_succ]
  have := Nat.mul_le_mul_left (2 ^ i) b.toNat_le
  omega

/-! ### STATUS (R24) -/

/-- STATUS is the sum of its eight bits, each with the weight of its place. -/
theorem statusWord_toNat (s : State) :
    s.statusWord.toNat
      = s.busy.toNat + 2 * s.done.toNat + 4 * s.err.toNat + 8 * s.result.toNat + 16 * s.cmdovr.toNat
        + 32 * s.wbusy.toNat + 64 * s.rngwait.toNat + 128 * s.irqBit.toNat := by
  have h0 : (bitAt s.busy 0).toNat < 2 ^ 1 := by
    rw [toNat_bitAt _ (by decide), pow_zero, one_mul]
    exact s.busy.toNat_lt
  have h1 := or_bitAt_lt s.done (by decide) h0
  have h2 := or_bitAt_lt s.err (by decide) h1
  have h3 := or_bitAt_lt s.result (by decide) h2
  have h4 := or_bitAt_lt s.cmdovr (by decide) h3
  have h5 := or_bitAt_lt s.wbusy (by decide) h4
  have h6 := or_bitAt_lt s.rngwait (by decide) h5
  rw [State.statusWord, toNat_or_bitAt _ (by decide) h6, toNat_or_bitAt _ (by decide) h5,
    toNat_or_bitAt _ (by decide) h4, toNat_or_bitAt _ (by decide) h3, toNat_or_bitAt _ (by decide) h2,
    toNat_or_bitAt _ (by decide) h1, toNat_or_bitAt _ (by decide) h0, toNat_bitAt _ (by decide)]
  norm_num

/-- Bit 7 of STATUS is the irq output (R40). -/
theorem statusWord_getLsbD_seven (s : State) : s.statusWord.getLsbD 7 = s.irq := by
  simp [State.statusWord, getElem_bitAt, State.irq]

/-- A STATUS write clears the W1C bits written as 1 and does nothing else, in every engine state. -/
theorem step_write_status {s : State} {v : Word} {rest : List Event}
    (h : s.inputs = .write 0x000C .w32 v :: rest) (hr : s.rst = false) :
    step s = .next { s.writeStatus v with inputs := rest, response := some .ack } := by
  rw [step_performed_write h hr (by decide)]
  rfl

/-- Settles O17: STATUS as the sum of its bits, and the irq output as its bit 7. -/
theorem statusBitsAndIrq : Obligations.StatusBitsAndIrq := by
  unfold Obligations.StatusBitsAndIrq
  refine ⟨fun s => ?_, fun s v rest h hr => ⟨.ack, step_write_status h hr⟩, rfl⟩
  exact ⟨statusWord_toNat s, rfl, (statusWord_getLsbD_seven s).symm, busy_iff s, rngwait_iff s, rfl⟩

/-! ### CMD (R23) -/

theorem writeCmd_idle {s : State} (h : s.engine = .idle) (v : Word) : s.writeCmd v = accept v s := by
  simp [State.writeCmd, State.busy, h]

theorem writeCmd_busy {s : State} (h : s.busy = true) (v : Word) : s.writeCmd v = { s with cmdovr := true } := by
  simp [State.writeCmd, h]

/-- What a CMD write does is independent of the pending events and of the last response. -/
theorem writeCmd_with_events (s : State) (v : Word) (rest : List Event) (r : Option BusResponse) :
    ({ s with inputs := rest, response := r } : State).writeCmd v
      = { s.writeCmd v with inputs := rest, response := r } := by
  unfold State.writeCmd
  change (if s.busy then _ else _) = _
  split <;> rfl

theorem step_write_cmd {s : State} {w : Word} {rest : List Event}
    (h : s.inputs = .write 0x0008 .w32 w :: rest) (hr : s.rst = false) :
    step s = .next { s.writeCmd w with inputs := rest, response := some .ack } := by
  rw [step_performed_write h hr (by decide)]
  exact congrArg (fun t : State => Host.Outcome.next { t with response := some .ack })
    (writeCmd_with_events s w rest none)

/-- CMD is no held offset, so a read shows it in every engine state (R158). -/
theorem readWindow_cmd (s : State) : s.readWindow 0x08 = s.cmd := by
  have ht : target 0x08 = .cmd := rfl
  simp [State.readWindow, ht, Target.held, State.readTarget]

/-- Settles O12: accepted when IDLE, dropped when BUSY. -/
theorem cmdWriteIssuesOrIsDropped : Obligations.CmdWriteIssuesOrIsDropped := by
  unfold Obligations.CmdWriteIssuesOrIsDropped
  refine ⟨fun s w rest h hr hidle => ⟨.ack, ?_⟩, fun s w rest h hr hbusy => ⟨.ack, ?_⟩,
    fun s rest h hr => ?_, rfl⟩
  · rw [step_write_cmd h hr, writeCmd_idle hidle]
    rfl
  · rw [step_write_cmd h hr, writeCmd_busy hbusy]
  · rw [step_performed_read h hr (by decide), ← readWindow_cmd s]
    rfl

/-! ### ID and VERSION (R27) -/

theorem readWindow_id (s : State) : s.readWindow 0x00 = 0x45434453 := by
  have ht : target 0x00 = .id := rfl
  simp [State.readWindow, ht, Target.held, State.readTarget, idWord]

theorem readWindow_version (s : State) : s.readWindow 0x04 = 0x00000001 := by
  have ht : target 0x04 = .version := rfl
  simp [State.readWindow, ht, Target.held, State.readTarget, versionWord]

/-- A write whose target is read-only is acknowledged and ignored. -/
theorem step_write_ignored {s : State} {off : Offset} {v : Word} {rest : List Event}
    (h : s.inputs = .write off .w32 v :: rest) (hr : s.rst = false) (ha : off.toNat % 4 = 0)
    (ht : target off.toNat = .id ∨ target off.toNat = .version ∨ target off.toNat = .errcode) :
    step s = .next { s with inputs := rest, response := some .ack } := by
  have hw (t : State) : t.writeWindow off.toNat v = t := by
    rcases ht with ht | ht | ht <;> simp [State.writeWindow, ht]
  rw [step_performed_write h hr ha, hw]

/-- Settles O18: neither offset is held while BUSY, and neither is writable. -/
theorem idAndVersionAreConstants : Obligations.IdAndVersionAreConstants := by
  unfold Obligations.IdAndVersionAreConstants
  refine fun s v rest hr => ⟨fun h => ?_, fun h => ?_, fun h => ⟨.ack, ?_⟩, fun h => ⟨.ack, ?_⟩⟩
  · rw [step_performed_read h hr (by decide), ← readWindow_id s]
    rfl
  · rw [step_performed_read h hr (by decide), ← readWindow_version s]
    rfl
  · exact step_write_ignored h hr (by decide) (.inl rfl)
  · exact step_write_ignored h hr (by decide) (.inr (.inl rfl))

end Sys2Proof.Machine
end

section
/-! PROOFS. The illegal words (R73): clauses (a) to (f) read off a word's number against the decoder's refusals, and the
completion of a command in flight whose word is illegal. -/

namespace Sys2Proof

/-! ### The decoder's refusals, check by check -/

/-- What whenUnused refuses (R73 (c)). -/
theorem whenUnused_refuses {u : List (Fin 16)} {i : Instr} :
    (∃ e, whenUnused u i = .error e) ↔ ∃ x ∈ u, x ≠ 0 := by
  unfold whenUnused
  split
  · next h => simpa using h
  · next h => simpa using h

/-- What whenPlain refuses (R73 (c), (d)). -/
theorem whenPlain_refuses {m : Bool} {u : List (Fin 16)} {i : Instr} :
    (∃ e, whenPlain m u i = .error e) ↔ (∃ x ∈ u, x ≠ 0) ∨ m = true := by
  cases m <;> simp [whenPlain, whenUnused_refuses]

/-- The ids of the presets are the two below 2 (R73 (e), R91). -/
theorem presetId_lt (id : Preset) : (presetId id).val < 2 := by cases id <;> decide

/-- What presetOf refuses (R73 (e)). -/
theorem presetOf_error {fa : Fin 16} {e : Illegal} (h : presetOf fa = .error e) : 2 ≤ fa.val := by
  by_contra hlt
  have hfa : fa = 0 ∨ fa = 1 := by omega
  rcases hfa with rfl | rfl <;> cases h

/-- Which words decode refuses: by RSV (R73 (b)), or by the other fields. -/
theorem decode_refuses {w : Word} :
    (∃ e, decode w = .error e) ↔ rsvField w ≠ 0#7
      ∨ ∃ e, decodeFields (opField w) (faField w) (fbField w) (fcField w) (fdField w) (mField w) = .error e := by
  unfold decode
  by_cases h : rsvField w = 0#7 <;> simp [h]

/-! ### The clauses on the fields of a word -/

/-- Clauses (a) and (c) to (f) of R73 on the fields of a word: no row has the opcode, or its row refuses a field. -/
def IllegalFields (op : BitVec 8) (fa fb fc fd : Fin 16) (m : Bool) : Prop :=
  ∀ u ∈ Machine.rowUse op.toNat,
    (u.fa = false ∧ fa ≠ 0) ∨ (u.fb = false ∧ fb ≠ 0) ∨ (u.fc = false ∧ fc ≠ 0) ∨ (u.fd = false ∧ fd ≠ 0)
      ∨ (u.m = false ∧ m = true) ∨ (op.toNat = 0x01 ∧ 2 ≤ fa.val) ∨ (op.toNat = 0x42 ∧ fa = fb)

/-- IllegalWord reads the fields off the word's number; these are the fields of R70. -/
theorem illegalWord_iff {w : Word} :
    Machine.IllegalWord w ↔ rsvField w ≠ 0#7
      ∨ IllegalFields (opField w) (faField w) (fbField w) (fcField w) (fdField w) (mField w) := by
  have hrsv : rsvField w = 0#7 ↔ w.toNat / 2 % 128 = 0 := by
    rw [← rsvField_toNat, ← BitVec.toNat_inj]
    rfl
  have hm : mField w = true ↔ w.toNat % 2 = 1 := by
    rw [← mField_toNat]
    cases mField w <;> simp
  unfold Machine.IllegalWord IllegalFields
  simp only [ne_eq, hrsv, hm, Fin.ext_iff, Fin.val_zero, opField_toNat, faField_val, fbField_val, fcField_val,
    fdField_val]
  cases Machine.rowUse (w.toNat / 2 ^ 24) <;> simp

/-- Row by row of R72: the decoder refuses the fields exactly when the row does. The rows of CURVE_SEL and SIGN have a
check of their own; every other row has the checks of whenUnused and whenPlain only. -/
theorem decodeFields_refuses {op : BitVec 8} {fa fb fc fd : Fin 16} {m : Bool} :
    (∃ e, decodeFields op fa fb fc fd m = .error e) ↔ IllegalFields op fa fb fc fd m := by
  unfold decodeFields IllegalFields
  split
  case h_2 hop => -- CURVE_SEL: clause (e)
    cases hid : presetOf fa with
    | error e => simp [hop, Machine.rowUse, presetOf_error hid]
    | ok id =>
      have hlt : ¬ 2 ≤ fa.val := by
        rw [presetOf_ok.1 hid, not_le]
        exact presetId_lt id
      simp [hop, Machine.rowUse, whenPlain_refuses, hlt, or_assoc]
  case h_16 hop => -- SIGN: clause (f)
    by_cases hab : fa = fb <;> simp [hop, Machine.rowUse, whenPlain_refuses, hab]
  all_goals simp [*, Machine.rowUse, whenUnused_refuses, whenPlain_refuses, or_assoc]

end Sys2Proof

namespace Sys2Proof.Machine

theorem illegalWord_iff_decode_refuses (w : Word) : IllegalWord w ↔ ∃ e, decode w = .error e := by
  rw [illegalWord_iff, decode_refuses, decodeFields_refuses]

/-- A turn on a command in flight whose word is illegal completes with code 6 and writes no register (R73, R135). -/
theorem step_engine_illegal {s : State} {rest : List Event} (h : s.inputs = .engine :: rest)
    (he : s.engine = .busy .ready) (hw : IllegalWord s.cmd) :
    ∃ t, step s = .next t ∧ CompletedError 6 { s with inputs := rest, response := none } t := by
  obtain ⟨e, hd⟩ := (illegalWord_iff_decode_refuses s.cmd).1 hw
  exact ⟨_, (step_engine h).trans (engineTurn_illegal he (by simp) hd), completeError_spec .illegalCommand _⟩

/-- Settles O4: the clauses against the decoder, and the completion of an illegal word in flight. -/
theorem illegalWordsRaiseIllegalCommand : Obligations.IllegalWordsRaiseIllegalCommand := by
  unfold Obligations.IllegalWordsRaiseIllegalCommand
  exact ⟨illegalWord_iff_decode_refuses, fun s rest => step_engine_illegal⟩

end Sys2Proof.Machine
end

section
/-! PROOFS. NOP (R90): its word is the only legal one with its opcode, and its turn completes in every state. -/

namespace Sys2Proof.Machine

/-- Opcode 0x00 uses no field, so any other bit set beside it makes the word illegal (R73 (b) to (d)). -/
theorem illegalWord_of_opcode_zero {w : Word} (hop : w.toNat < 2 ^ 24) (hw : w ≠ 0) : IllegalWord w := by
  have h0 : w.toNat / 2 ^ 24 = 0 := Nat.div_eq_of_lt hop
  have hne : w.toNat ≠ 0 := fun h => hw (BitVec.eq_of_toNat_eq h)
  simp only [IllegalWord, h0, rowUse, true_and]
  omega

/-- NOP's meaning (R90): it commits no write, RESULT = 0, and does not read curve_ok. -/
theorem exec_nop_completes (s : State) : exec .nop s = .next (completeOk [] false s) := rfl

/-- Settles O31: the word by its layout, its neighbours by the clauses of R73, the completion with no write. -/
theorem nopCompletes : Obligations.NopCompletes := by
  unfold Obligations.NopCompletes
  refine ⟨toNat_wordOf .., fun w hop hw => ?_, fun s => ⟨_, exec_nop_completes s, ?_, ?_⟩⟩
  · exact (illegalWord_iff_decode_refuses w).1 (illegalWord_of_opcode_zero hop hw)
  · exact completeOk_spec [] false s
  · exact completeOk_nil_kept false s

end Sys2Proof.Machine
end

section
/-! PROOFS. The MOD commands (R94 to R99): their words with the M bit, the three ends their frame can reach, and the
one unit whose result still has to be read as a congruence (the floor difference of R97). -/

namespace Sys2Proof.Machine

/-! ### The words -/

theorem toNat_modulusBit (m : Modulus) : (modulusBit m).toNat = modulusNumber m := by cases m <;> rfl

/-- The number of a MOD command's word: M selects the modulus (R70, R95). -/
theorem toNat_wordOf_modulusBit (op : BitVec 8) (fa fb fc fd : Fin 16) (m : Modulus) :
    (wordOf op fa fb fc fd (modulusBit m)).toNat = wordNumber op.toNat fa fb fc fd (modulusNumber m) := by
  rw [toNat_wordOf, toNat_modulusBit]
  rfl

/-! ### The ends of a constructive command (R133, R135) -/

section Ends
variable {i : Instr} {s : State}

/-- Without curve_ok a constructive command raises CurveConfigError, whatever it would evaluate to (R31, R137). -/
theorem raises_curveConfig {e : Effect} (hx : exec i s = .next (commit (constructive s e) s))
    (h : s.curveOk = false) : Raises i 7 s := by
  rw [constructive_not h] at hx
  exact ⟨_, hx, completeError_spec .curveConfig s⟩

/-- With curve_ok a constructive command whose evaluation fails raises that error. -/
theorem raises_error {e : ErrorKind} (hx : exec i s = .next (commit (constructive s (.error e)) s))
    (h : s.curveOk = true) : Raises i e.code.toNat s := by
  rw [constructive_ok h] at hx
  exact ⟨_, hx, completeError_spec e s⟩

/-- With curve_ok a constructive command that evaluates to one scalar completes and writes it. -/
theorem completes_scalar {d : SReg} {v : Nat}
    (hx : exec i s = .next (commit (constructive s (.ok [.scalar d v] false)) s))
    (h : s.curveOk = true) (hv : v < 2 ^ 512) :
    ∃ t, exec i s = .next t ∧ CompletedOk false s t ∧ WritesScalar d v s t := by
  rw [constructive_ok h] at hx
  exact ⟨_, hx, completeOk_spec _ false s, completeOk_scalar d hv false s⟩

end Ends

/-- With curve_ok the modulus is at least 2 (R31, R95). -/
theorem modulusValue_ge_two {s : State} (h : s.curveOk = true) (m : Modulus) : 2 ≤ modulusValue s m :=
  modulus_eq s m ▸ modulus_ge_two h m

theorem modulusValue_pos {s : State} (h : s.curveOk = true) (m : Modulus) : 0 < modulusValue s m :=
  two_pos.trans_le (modulusValue_ge_two h m)

/-- A value reduced by the modulus fits a scalar register. -/
theorem lt_of_lt_modulusValue {s : State} {m : Modulus} {v : Nat} (h : v < modulusValue s m) : v < 2 ^ 512 :=
  h.trans (modulus_eq s m ▸ modulus_lt s m)

/-! ### The meanings (R96 to R99), with the modulus read as R95 says -/

theorem exec_modadd (s : State) (d a b : SReg) (m : Modulus) :
    exec (.modadd d a b m) s = .next (commit (constructive s
      (.ok [.scalar d (addm (s.readS a) (s.readS b) (modulusValue s m))] false)) s) := by
  rw [← modulus_eq]
  rfl

theorem exec_modsub (s : State) (d a b : SReg) (m : Modulus) :
    exec (.modsub d a b m) s = .next (commit (constructive s
      (.ok [.scalar d (subm (s.readS a) (s.readS b) (modulusValue s m))] false)) s) := by
  rw [← modulus_eq]
  rfl

theorem exec_modmul (s : State) (d a b : SReg) (m : Modulus) :
    exec (.modmul d a b m) s = .next (commit (constructive s
      (.ok [.scalar d (mulm (s.readS a) (s.readS b) (modulusValue s m))] false)) s) := by
  rw [← modulus_eq]
  rfl

theorem exec_modinv (s : State) (d a : SReg) (m : Modulus) :
    exec (.modinv d a m) s = .next (commit (constructive s
      (writing (.scalar d) (invm (s.readS a) (modulusValue s m)))) s) := by
  rw [← modulus_eq]
  rfl

/-- MODINV of an invertible value evaluates to one scalar. -/
theorem exec_modinv_of_coprime {s : State} {d a : SReg} {m : Modulus}
    (h : Nat.gcd (s.readS a % modulusValue s m) (modulusValue s m) = 1) :
    exec (.modinv d a m) s = .next (commit (constructive s
      (.ok [.scalar d (inverse (s.readS a) (modulusValue s m))] false)) s) := by
  rw [exec_modinv, invm_ok h]
  rfl

/-- MODINV of a value that is not invertible evaluates to ArithmeticError. -/
theorem exec_modinv_of_not_coprime {s : State} {d a : SReg} {m : Modulus}
    (h : Nat.gcd (s.readS a % modulusValue s m) (modulusValue s m) ≠ 1) :
    exec (.modinv d a m) s = .next (commit (constructive s (.error .arithmetic)) s) := by
  rw [exec_modinv, invm_error h]
  rfl

/-- The floor difference is the solution of `v + b = a` modulo m (R11, R97). -/
theorem subm_add_modEq {u v m : Nat} (h : 0 < m) : subm u v m + v ≡ u [MOD m] := by
  rw [← Int.natCast_modEq_iff, Nat.cast_add, subm_cast h]
  calc ((u : Int) - v) % m + v
      ≡ (u - v) + v [ZMOD m] := (Int.mod_modEq _ _).add_right _
    _ = u := sub_add_cancel _ _

/-! ### The obligations -/

/-- Settles O33: the sum reduced by m fits the register, so the one write of the frame stores it. -/
theorem modaddWritesTheReducedSum : Obligations.ModaddWritesTheReducedSum := by
  unfold Obligations.ModaddWritesTheReducedSum
  intro s d a b m
  have hx := exec_modadd s d a b m
  refine ⟨toNat_wordOf_modulusBit .., fun hok => ?_, raises_curveConfig hx⟩
  have hm := modulusValue_pos hok m
  exact completes_scalar hx hok (lt_of_lt_modulusValue (addm_lt hm))

/-- Settles O34: the value written is the floor difference, below m and congruent to S[a] - S[b]. -/
theorem modsubWritesTheNormalisedDifference : Obligations.ModsubWritesTheNormalisedDifference := by
  unfold Obligations.ModsubWritesTheNormalisedDifference
  intro s d a b m
  have hx := exec_modsub s d a b m
  refine ⟨toNat_wordOf_modulusBit .., fun hok => ?_, raises_curveConfig hx⟩
  have hm := modulusValue_pos hok m
  obtain ⟨t, ht, hc, hw⟩ := completes_scalar hx hok (lt_of_lt_modulusValue (subm_lt hm))
  exact ⟨t, _, ht, hc, hw, subm_lt hm, subm_add_modEq hm⟩

/-- Settles O35: the product is formed in full before it is reduced by m, and then fits the register. -/
theorem modmulWritesTheReducedProduct : Obligations.ModmulWritesTheReducedProduct := by
  unfold Obligations.ModmulWritesTheReducedProduct
  intro s d a b m
  have hx := exec_modmul s d a b m
  refine ⟨toNat_wordOf_modulusBit .., fun hok => ?_, raises_curveConfig hx⟩
  have hm := modulusValue_pos hok m
  exact completes_scalar hx hok (lt_of_lt_modulusValue (mulm_lt hm))

/-- Settles O36: by the gcd, either Euclid's inverse is written or the evaluation fails with ArithmeticError. -/
theorem modinvWritesTheInverse : Obligations.ModinvWritesTheInverse := by
  unfold Obligations.ModinvWritesTheInverse
  intro s d a m
  refine ⟨toNat_wordOf_modulusBit .., fun hok hg => ?_, fun hok hg => ?_, raises_curveConfig (exec_modinv s d a m)⟩
  · obtain ⟨hpos, hlt, hmul⟩ := inverse_spec (modulusValue_ge_two hok m) hg
    obtain ⟨t, ht, hc, hw⟩ :=
      completes_scalar (exec_modinv_of_coprime hg) hok (lt_of_lt_modulusValue hlt)
    exact ⟨t, _, ht, hc, hw, hpos, hlt, hmul⟩
  · exact raises_error (exec_modinv_of_not_coprime hg) hok

end Sys2Proof.Machine
end

section
/-! PROOFS. The point units (R102 to R104): padd and pdbl case by case, the line construction they share read as
congruences, and psmul as double-and-add on the bits of k. -/

namespace Sys2Proof.Machine

/-! ### Reduced values as residues -/

/-- A congruence of the statements, read in the residue ring. -/
theorem emod_eq_zero_iff_residue {p : Nat} (z : Int) : z % p = 0 ↔ (z : ZMod p) = 0 := by
  rw [ZMod.intCast_zmod_eq_zero_iff_dvd, Int.dvd_iff_emod_eq_zero]

/-- Values below the modulus with the same residue are equal. -/
theorem eq_of_residue_eq {p u v : Nat} (hu : u < p) (hv : v < p) (h : (u : ZMod p) = v) : u = v := by
  rwa [ZMod.natCast_eq_natCast_iff', Nat.mod_eq_of_lt hu, Nat.mod_eq_of_lt hv] at h

/-- The difference of reduced operands, with the sum the statements write for it. -/
theorem subm_mod_mod {p : Nat} (hp : 0 < p) (u v : Nat) : subm (u % p) (v % p) p = (u + (p - v % p)) % p := by
  refine eq_of_residue_eq (subm_lt hp) (Nat.mod_lt _ hp) ?_
  rw [subm_residue hp, ZMod.natCast_mod (u + _), Nat.cast_add, Nat.cast_sub (Nat.mod_lt v hp).le]
  simp [sub_eq_add_neg]

/-- Subtracting twice is subtracting the sum: the one difference between the X of pdbl and of padd. -/
theorem subm_addm {p : Nat} (hp : 0 < p) (u v w : Nat) : subm u (addm v w p) p = subm (subm u v p) w p := by
  refine eq_of_residue_eq (subm_lt hp) (subm_lt hp) ?_
  simp only [subm_residue hp, addm_residue]
  ring

/-- padd's test for opposite points: `y1 = -y2` exactly when the sum of the y vanishes. -/
theorem mod_eq_subm_zero_iff {p : Nat} (hp : 0 < p) (u v : Nat) :
    u % p = subm 0 (v % p) p ↔ (u + v) % p = 0 := by
  have hsum : (u + v) % p = 0 ↔ (u : ZMod p) + v = 0 := by
    rw [← Nat.dvd_iff_mod_eq_zero, ← ZMod.natCast_eq_zero_iff, Nat.cast_add]
  have hneg : ((subm 0 (v % p) p : Nat) : ZMod p) = -v := by simp [subm_residue hp]
  rw [hsum, ← eq_neg_iff_add_eq_zero, ← hneg]
  constructor
  · intro h
    rw [← h, ZMod.natCast_mod]
  · intro h
    exact eq_of_residue_eq (Nat.mod_lt _ hp) (subm_lt hp) (by rwa [ZMod.natCast_mod])

/-- The gcd padd tests for its denominator, as the statements write it. -/
theorem gcd_subm_mod_mod {p : Nat} (hp : 0 < p) (u v : Nat) :
    Nat.gcd (subm (u % p) (v % p) p % p) p = Nat.gcd ((u + (p - v % p)) % p) p := by
  rw [subm_mod_mod hp, Nat.mod_mod]

/-- The gcd pdbl tests for its denominator, as the statements write it. -/
theorem gcd_addm_mod_self (p v : Nat) : Nat.gcd (addm (v % p) (v % p) p % p) p = Nat.gcd (2 * v % p) p := by
  rw [addm, ← Nat.add_mod, ← two_mul, Nat.mod_mod]

/-! ### The line through two points -/

/-- The x of the third point of a line of slope `lam` through points with the given x (R102, R103). -/
def lineX (p lam px qx : Nat) : Nat := subm (subm (mulm lam lam p) (px % p) p) (qx % p) p

/-- The y of the sum, from the line's slope and the first point (R102, R103). -/
def lineY (p lam px py x : Nat) : Nat := subm (mulm lam (subm (px % p) x p) p) (py % p) p

/-- The slope of the line through two points (R102). -/
def secantSlope (p px py qx qy : Nat) : Nat :=
  mulm (subm (qy % p) (py % p) p) (inverse (subm (qx % p) (px % p) p) p) p

/-- The slope of the tangent at a point (R103). -/
def tangentSlope (p a px py : Nat) : Nat :=
  mulm (addm (mulm 3 (mulm (px % p) (px % p) p) p) a p) (inverse (addm (py % p) (py % p) p) p) p

theorem lineX_congruence {p : Nat} (hp : 0 < p) (lam px qx : Nat) :
    ((lineX p lam px qx : Int) - (lam ^ 2 - px - qx)) % p = 0 := by
  rw [emod_eq_zero_iff_residue]
  simp only [Int.cast_sub, Int.cast_pow, Int.cast_natCast, lineX, subm_residue hp, mulm_residue, ZMod.natCast_mod]
  ring

theorem lineY_congruence {p : Nat} (hp : 0 < p) (lam px py x : Nat) :
    ((lineY p lam px py x : Int) - (lam * (px - x) - py)) % p = 0 := by
  rw [emod_eq_zero_iff_residue]
  simp only [Int.cast_sub, Int.cast_mul, Int.cast_natCast, lineY, subm_residue hp, mulm_residue, ZMod.natCast_mod]
  ring

/-- The slope times the difference of the x is the difference of the y. -/
theorem secantSlope_congruence {p px qx : Nat} (hp : 2 ≤ p)
    (hg : Nat.gcd ((qx + (p - px % p)) % p) p = 1) (py qy : Nat) :
    ((secantSlope p px py qx qy : Int) * ((qx : Int) - px) - (qy - py)) % p = 0 := by
  have h0 : 0 < p := by omega
  have hinv := inverse_residue hp ((gcd_subm_mod_mod h0 qx px).trans hg)
  rw [emod_eq_zero_iff_residue]
  simp only [subm_residue h0, ZMod.natCast_mod] at hinv
  simp only [Int.cast_sub, Int.cast_mul, Int.cast_natCast, secantSlope, subm_residue h0, mulm_residue,
    ZMod.natCast_mod]
  linear_combination ((qy : ZMod p) - py) * hinv

/-- The slope times 2y is 3x² + a. -/
theorem tangentSlope_congruence {p py : Nat} (hp : 2 ≤ p)
    (hg : Nat.gcd (2 * py % p) p = 1) (a px : Nat) :
    ((tangentSlope p a px py : Int) * (2 * (py : Int)) - (3 * px ^ 2 + a)) % p = 0 := by
  have hinv := inverse_residue hp ((gcd_addm_mod_self p py).trans hg)
  rw [emod_eq_zero_iff_residue]
  simp only [addm_residue, ZMod.natCast_mod] at hinv
  simp only [Int.cast_sub, Int.cast_add, Int.cast_mul, Int.cast_pow, Int.cast_natCast, Int.cast_ofNat,
    Nat.cast_ofNat, tangentSlope, addm_residue, mulm_residue, ZMod.natCast_mod]
  linear_combination (3 * (px : ZMod p) ^ 2 + a) * hinv

/-! ### pdbl, case by case (R103) -/

theorem pdbl_of_y_zero {p a px py : Nat} (hy : py % p = 0) : pdbl p a (.aff px py) = .ok .inf := by
  simp [pdbl, hy]

theorem pdbl_of_not_invertible {p a px py : Nat} (hy : py % p ≠ 0)
    (hg : Nat.gcd (2 * py % p) p ≠ 1) : pdbl p a (.aff px py) = .error .arithmetic := by
  simp only [pdbl, if_neg hy, invm_error ((gcd_addm_mod_self p py).trans_ne hg)]

theorem pdbl_tangent {p a px py : Nat} (hp : 0 < p) (hy : py % p ≠ 0)
    (hg : Nat.gcd (2 * py % p) p = 1) :
    pdbl p a (.aff px py) = .ok (.aff (lineX p (tangentSlope p a px py) px px)
      (lineY p (tangentSlope p a px py) px py (lineX p (tangentSlope p a px py) px px))) := by
  simp only [pdbl, if_neg hy, invm_ok ((gcd_addm_mod_self p py).trans hg), subm_addm hp]
  rfl

/-- pdbl reduces the coordinates it reads. -/
theorem pdbl_mod (p a px py : Nat) : pdbl p a (.aff (px % p) (py % p)) = pdbl p a (.aff px py) := by
  simp only [pdbl, Nat.mod_mod]

/-- Settles O39: pdbl's tests in order; the tangent's slope and the line through it give the congruences. -/
theorem pdblIsTheTangentLaw : Obligations.PdblIsTheTangentLaw := by
  unfold Obligations.PdblIsTheTangentLaw
  intro p a hp
  have h0 : 0 < p := by omega
  refine ⟨rfl, fun px py => ⟨pdbl_of_y_zero, pdbl_of_not_invertible, fun hy hg => ?_⟩⟩
  refine ⟨_, _, _, pdbl_tangent h0 hy hg, subm_lt h0, subm_lt h0, tangentSlope_congruence hp hg a px, ?_,
    lineY_congruence h0 ..⟩
  rw [two_mul, ← sub_sub]
  exact lineX_congruence h0 ..

/-! ### padd, case by case (R102) -/

section Affine
variable {p a px py qx qy : Nat}

theorem padd_inf_right (q : Point) : padd p a q .inf = .ok q := by cases q <;> rfl

theorem padd_of_opposite (hp : 0 < p) (hx : px % p = qx % p) (hy : (py + qy) % p = 0) :
    padd p a (.aff px py) (.aff qx qy) = .ok .inf :=
  if_pos ⟨hx, (mod_eq_subm_zero_iff hp py qy).2 hy⟩

theorem padd_of_equal (hp : 0 < p) (hx : px % p = qx % p) (hy : py % p = qy % p) (hs : (py + qy) % p ≠ 0) :
    padd p a (.aff px py) (.aff qx qy) = pdbl p a (.aff px py) := by
  have hopp : ¬ (px % p = qx % p ∧ py % p = subm 0 (qy % p) p) := fun h =>
    hs ((mod_eq_subm_zero_iff hp py qy).1 h.2)
  simp only [padd, if_neg hopp, if_pos (And.intro hx hy), pdbl_mod]

/-- Points neither opposite nor equal whose difference of x is not invertible (R110). -/
theorem padd_of_not_invertible (hp : 0 < p) (hopp : ¬ (px % p = qx % p ∧ (py + qy) % p = 0))
    (heq : ¬ (px % p = qx % p ∧ py % p = qy % p)) (hg : Nat.gcd ((qx + (p - px % p)) % p) p ≠ 1) :
    padd p a (.aff px py) (.aff qx qy) = .error .arithmetic := by
  rw [← mod_eq_subm_zero_iff hp] at hopp
  simp only [padd, if_neg hopp, if_neg heq, invm_error ((gcd_subm_mod_mod hp qx px).trans_ne hg)]

theorem padd_secant (hp : 0 < p) (hx : px % p ≠ qx % p) (hg : Nat.gcd ((qx + (p - px % p)) % p) p = 1) :
    padd p a (.aff px py) (.aff qx qy) = .ok (.aff (lineX p (secantSlope p px py qx qy) px qx)
      (lineY p (secantSlope p px py qx qy) px py (lineX p (secantSlope p px py qx qy) px qx))) := by
  simp only [padd, hx, false_and, if_false, invm_ok ((gcd_subm_mod_mod hp qx px).trans hg)]
  rfl

/-- Equal x leave the difference 0, which no modulus from 2 on inverts. -/
theorem gcd_sub_ne_one_of_eq (hp : 2 ≤ p) (hx : px % p = qx % p) : Nat.gcd ((qx + (p - px % p)) % p) p ≠ 1 := by
  have hz : subm (qx % p) (px % p) p = 0 := by simp [subm, hx]
  rw [← subm_mod_mod (by omega), hz, Nat.gcd_zero_left]
  omega

end Affine

/-- Settles O38: padd's tests in order; the secant's slope and the line through it give the congruences. -/
theorem paddIsTheGroupLaw : Obligations.PaddIsTheGroupLaw := by
  unfold Obligations.PaddIsTheGroupLaw
  intro p a hp
  have h0 : 0 < p := by omega
  refine ⟨fun q => rfl, padd_inf_right, fun px py qx qy => ⟨padd_of_opposite h0, padd_of_equal h0,
    fun hx hy hs => ?_, fun hx hg => ?_, fun hx hg => ?_⟩⟩
  · exact padd_of_not_invertible h0 (fun h => hs h.2) (fun h => hy h.2) (gcd_sub_ne_one_of_eq hp hx)
  · exact padd_of_not_invertible h0 (fun h => hx h.1) (fun h => hx h.1) hg
  · exact ⟨_, _, _, padd_secant h0 hx hg, subm_lt h0, subm_lt h0, secantSlope_congruence hp hg py qy,
      lineX_congruence h0 .., lineY_congruence h0 ..⟩

/-! ### psmul on the bits of k (R104) -/

section Scalar
variable {p a : Nat} {base : Point}

/-- One turn doubles, then adds the base point when the bit is 1. -/
theorem psmulBit_false (acc : Point) : psmulBit p a base false acc = pdbl p a acc := by
  unfold psmulBit
  cases pdbl p a acc <;> rfl

theorem psmulBit_true (acc : Point) :
    psmulBit p a base true acc = (pdbl p a acc).bind (fun q => padd p a q base) := by
  unfold psmulBit
  cases pdbl p a acc <;> rfl

theorem psmulLoop_succ (k i : Nat) (acc : Point) :
    psmulLoop p a base k (i + 1) acc = (psmulBit p a base (k.testBit i) acc).bind (psmulLoop p a base k i) := by
  rw [psmulLoop]
  cases psmulBit p a base (k.testBit i) acc <;> rfl

/-- The loop over `2k + b` is the loop over `k` and then the turn of `b`. -/
theorem psmulLoop_bit (k : Nat) (b : Bool) (i : Nat) (acc : Point) :
    psmulLoop p a base (2 * k + b.toNat) (i + 1) acc = (psmulLoop p a base k i acc).bind (psmulBit p a base b) := by
  induction i generalizing acc with
  | zero =>
    have hbit : (2 * k + b.toNat).testBit 0 = b := by cases b <;> simp
    rw [psmulLoop_succ, hbit]
    exact bind_pure (psmulBit p a base b acc)
  | succ i ih =>
    have hbit : (2 * k + b.toNat).testBit (i + 1) = k.testBit i := by
      rw [Nat.testBit_succ]
      congr 1
      have := b.toNat_lt
      omega
    rw [psmulLoop_succ, hbit, psmulLoop_succ k i]
    cases psmulBit p a base (k.testBit i) acc with
    | error e => rfl
    | ok q => exact ih q

@[simp] theorem psmul_zero : psmul p a base 0 = .ok .inf := rfl

/-- psmul reads the bits of k from the most significant down. -/
theorem psmul_bit (k : Nat) (b : Bool) :
    psmul p a base (2 * k + b.toNat) = (psmul p a base k).bind (psmulBit p a base b) := by
  by_cases hz : 2 * k + b.toNat = 0
  · obtain ⟨rfl, rfl⟩ : k = 0 ∧ b = false := by cases b <;> simp_all
    rfl
  · rw [psmul, bitlen_bit k b hz, psmulLoop_bit]
    rfl

theorem psmulLoop_inf (k i : Nat) : psmulLoop p a .inf k i .inf = .ok .inf := by
  induction i with
  | zero => rfl
  | succ i ih =>
    rw [psmulLoop_succ]
    cases k.testBit i <;> exact ih

end Scalar

/-- Settles O40: k = 0, 1 and 2j + b by the last bit of k, P = INF by the loop. -/
theorem psmulIsDoubleAndAdd : Obligations.PsmulIsDoubleAndAdd := by
  unfold Obligations.PsmulIsDoubleAndAdd
  intro p a base
  refine ⟨psmul_zero, psmul_bit 0 true, fun k => psmulLoop_inf k _, fun k => ?_, fun k => ?_⟩
  · exact (psmul_bit k false).trans (congrArg _ (funext psmulBit_false))
  · calc psmul p a base (2 * k + 1)
        = (psmul p a base k).bind (psmulBit p a base true) := psmul_bit k true
      _ = ((psmul p a base k).bind (pdbl p a)).bind (fun q => padd p a q base) := by
        cases psmul p a base k with
        | error e => rfl
        | ok q => exact psmulBit_true q

end Sys2Proof.Machine
end

section
/-! PROOFS. PADD and PDBL (R105, R106), through the three ends of a command that evaluates a point unit. -/

namespace Sys2Proof.Machine

/-- The three ends of a command that evaluates a point unit into `PT[d]` (R105 to R108): the point, its
ArithmeticError, or CurveConfigError. -/
theorem pointCommand_ends {i : Instr} {s : State} {d : PReg} {r : Except ErrorKind Point}
    (hx : exec i s = .next (commit (constructive s (writing (.point d) r)) s))
    (hfits : ∀ {pt}, 0 < s.p → r = .ok pt → pt.Fits) (hkind : ∀ {e}, r = .error e → e = .arithmetic) :
    (∀ pt, s.curveOk = true → r = .ok pt →
      ∃ t, exec i s = .next t ∧ CompletedOk false s t ∧ WritesPoint d pt s t)
    ∧ (∀ e, s.curveOk = true → r = .error e → Raises i 2 s)
    ∧ (s.curveOk = false → Raises i 7 s) := by
  refine ⟨fun pt hok hr => ?_, fun e hok hr => ?_, raises_curveConfig hx⟩
  · have hp : 0 < s.p := two_pos.trans_le (modulus_ge_two hok .p)
    have hpt := hfits hp hr
    subst hr
    rw [constructive_ok hok] at hx
    exact ⟨_, hx, completeOk_spec _ false s, completeOk_point d hpt false s⟩
  · cases hkind hr
    subst hr
    exact raises_error hx hok

/-- Settles O42: padd answers a point that fits PT[d], or ArithmeticError. -/
theorem paddCommand : Obligations.PaddCommand := by
  unfold Obligations.PaddCommand
  exact fun s d a b => ⟨toNat_wordOf .., pointCommand_ends rfl
    (fun hp => padd_fits hp (p_lt s) (fits_readPT s a) (fits_readPT s b)) padd_error_kind⟩

/-- Settles O43: pdbl answers a point that fits PT[d], or ArithmeticError. -/
theorem pdblCommand : Obligations.PdblCommand := by
  unfold Obligations.PdblCommand
  exact fun s d a => ⟨toNat_wordOf .., pointCommand_ends rfl (fun hp => pdbl_fits hp (p_lt s)) pdbl_error_kind⟩

end Sys2Proof.Machine
end

section
/-! PROOFS. SCHK, PCHK and PKCHK (R114 to R116), through the one end of a validation command. -/

namespace Sys2Proof.Machine

/-- A validation command completes without error in every state and writes no operand register; RESULT is its
test under curve_ok (R31, R133). -/
theorem predicate_completes {i : Instr} {s : State} {test : Bool} {Holds : Prop}
    (hx : exec i s = .next (commit (predicate s test) s)) (htest : test = true ↔ Holds) :
    ∃ t b, exec i s = .next t ∧ CompletedOk b s t ∧ OperandsKept s t ∧ (b = true ↔ s.curveOk = true ∧ Holds) := by
  rw [predicate_eq, commit_ok] at hx
  refine ⟨_, s.curveOk && test, hx, completeOk_spec [] _ s, completeOk_nil_kept _ s, ?_⟩
  rw [Bool.and_eq_true, htest]

/-- Settles O46: the test is valid_scalar of the stored scalar (R111). -/
theorem schkCommand : Obligations.SchkCommand := by
  unfold Obligations.SchkCommand
  exact fun s a => ⟨toNat_wordOf .., predicate_completes rfl (validScalar_iff s (s.readS a))⟩

/-- Settles O47: the test is on_curve of the stored point (R112). -/
theorem pchkCommand : Obligations.PchkCommand := by
  unfold Obligations.PchkCommand
  exact fun s a => ⟨toNat_wordOf .., predicate_completes rfl (onCurve_iff s (s.readPT a))⟩

/-- Settles O48: the test is pk_valid of the stored point (R113). -/
theorem pkchkCommand : Obligations.PkchkCommand := by
  unfold Obligations.PkchkCommand
  exact fun s a => ⟨toNat_wordOf .., predicate_completes rfl (pkValid_iff s (s.readPT a))⟩

end Sys2Proof.Machine
end

section
/-! PROOFS. VERIFY (R124, R125): verify as "checks, then the inverse of s, then the sum u1 G + u2 Q, then the test of
its x", and the command through the three ends its effect can reach. -/

namespace Sys2Proof.Machine

/-! ### The inverse of step 2 (R124) -/

/-- A value with an inverse w below m is invertible, and invm answers w (R12). -/
theorem invm_of_inverse {u m w : Nat} (hm : 2 ≤ m) (hw : w < m) (hmul : u * w % m = 1) : invm u m = .ok w := by
  have hcop : Nat.gcd (u % m) m = 1 := by
    rw [gcd_mod_left]
    exact Nat.Coprime.coprime_mul_right (k := w) (by rw [Nat.Coprime, ← gcd_mod_left, hmul, Nat.gcd_one_left])
  rw [invm_ok hcop, ← inverse_unique hm hw hmul]

/-! ### The sum of step 3 and the test of step 4 (R124) -/

/-- `padd(psmul(G, u1), psmul(Q, u2))` (R124, step 3). -/
def State.verifySum (s : State) (q : Point) (u1 u2 : Nat) : Except ErrorKind Point := do
  let p1 ← psmul s.p s.a s.generator u1
  let p2 ← psmul s.p s.a q u2
  padd s.p s.a p1 p2

/-- `P != INF and (P.x mod n) = r` (R124, step 4). -/
def State.acceptsSum (s : State) (r : Nat) : Point → Bool
  | .inf => false
  | .aff x _ => decide (x % s.n = r)

section
variable {s : State} {h r sig : Nat} {q : Point}

theorem acceptsSum_iff (pt : Point) : s.acceptsSum r pt = true ↔ ∃ x y, pt = .aff x y ∧ x % s.n = r := by
  cases pt <;> simp [State.acceptsSum]

theorem verifySum_ok {u1 u2 : Nat} {p1 p2 : Point} (h1 : psmul s.p s.a s.generator u1 = .ok p1)
    (h2 : psmul s.p s.a q u2 = .ok p2) : s.verifySum q u1 u2 = padd s.p s.a p1 p2 := by
  rw [State.verifySum, h1, h2]
  rfl

theorem verifySum_first_error {u1 u2 : Nat} {e : ErrorKind} (h1 : psmul s.p s.a s.generator u1 = .error e) :
    s.verifySum q u1 u2 = .error .arithmetic := by
  rw [State.verifySum, h1, psmul_error_kind h1]
  rfl

/-- A failing psmul(Q, u2) fails the sum with the same error whichever way psmul(G, u1) ends: ArithmeticError is the
only one (R110). -/
theorem verifySum_second_error {u1 u2 : Nat} {e : ErrorKind} (h2 : psmul s.p s.a q u2 = .error e) :
    s.verifySum q u1 u2 = .error .arithmetic := by
  cases h1 : psmul s.p s.a s.generator u1 with
  | error e1 => exact verifySum_first_error h1
  | ok p1 =>
    rw [State.verifySum, h1, h2, psmul_error_kind h2]
    rfl

/-! ### verify, by the order of its checks (R124) -/

/-- A signature or key that is merely wrong is answered false (R124, step 1). -/
theorem verify_of_not_valid (hbad : ¬ (ValidScalar s r ∧ ValidScalar s sig ∧ ValidKey s q)) :
    s.verify h r sig q = .ok false := by
  unfold State.verify
  split_ifs with hsig hkey
  · rfl
  · rfl
  · simp only [Bool.or_eq_true, not_or, Bool.not_eq_true', Bool.not_eq_false, validScalar_iff, pkValid_iff] at hsig hkey
    exact absurd (and_assoc.1 ⟨hsig, hkey⟩) hbad

/-- With valid operands verify comes to the inverse of s. -/
theorem verify_of_valid (hr : ValidScalar s r) (hs : ValidScalar s sig) (hq : ValidKey s q) :
    s.verify h r sig q = (invm sig s.n).bind fun w =>
      (s.verifySum q (h * w % s.n) (r * w % s.n)).map (s.acceptsSum r) := by
  rw [← validScalar_iff] at hr hs
  rw [← pkValid_iff] at hq
  simp only [State.verify, State.verifySum, hr, hs, hq, Bool.not_true, Bool.or_self, Bool.false_eq_true, if_false]
  cases invm sig s.n with
  | error e => rfl
  | ok w =>
    dsimp only [Except.bind]
    cases psmul s.p s.a s.generator (h * w % s.n) with
    | error e => rfl
    | ok p1 =>
      dsimp only
      cases psmul s.p s.a q (r * w % s.n) with
      | error e => rfl
      | ok p2 =>
        dsimp only
        change _ = (padd s.p s.a p1 p2).map (s.acceptsSum r)
        rcases padd s.p s.a p1 p2 with e | _ | ⟨x, y⟩ <;> rfl

/-- An s with no inverse is an ArithmeticError (R124). -/
theorem verify_of_not_coprime (hr : ValidScalar s r) (hs : ValidScalar s sig) (hq : ValidKey s q)
    (hg : Nat.gcd sig s.n ≠ 1) : s.verify h r sig q = .error .arithmetic := by
  rw [verify_of_valid hr hs hq, invm_error (by rwa [gcd_mod_left])]
  rfl

/-- With an inverse w of s, verify is the test of the sum (R124, steps 2 to 4). -/
theorem verify_of_inverse {w : Nat} (hn : 2 ≤ s.n) (hr : ValidScalar s r) (hs : ValidScalar s sig) (hq : ValidKey s q)
    (hw : w < s.n) (hmul : sig * w % s.n = 1) :
    s.verify h r sig q = (s.verifySum q (h * w % s.n) (r * w % s.n)).map (s.acceptsSum r) := by
  rw [verify_of_valid hr hs hq, invm_of_inverse hn hw hmul]
  rfl

end

/-! ### The ends of the command (R125) -/

section
variable {s : State} {h r sr : SReg} {q : PReg}

/-- With curve_ok VERIFY leaves the answer of verify in RESULT and writes no operand register. -/
theorem verify_completes {b : Bool} (hok : s.curveOk = true)
    (hv : s.verify (s.readS h) (s.readS r) (s.readS sr) (s.readPT q) = .ok b) :
    ∃ t, exec (.verify h r sr q) s = .next t ∧ CompletedOk b s t ∧ OperandsKept s t := by
  refine ⟨completeOk [] b s, ?_, completeOk_spec [] b s, completeOk_nil_kept b s⟩
  simp only [exec, execVerify, hv, constructive_ok hok, commit_ok]

/-- With curve_ok VERIFY raises the ArithmeticError of verify. -/
theorem verify_raises (hok : s.curveOk = true)
    (hv : s.verify (s.readS h) (s.readS r) (s.readS sr) (s.readPT q) = .error .arithmetic) :
    Raises (.verify h r sr q) 2 s := by
  refine raises_error (e := .arithmetic) ?_ hok
  simp only [exec, execVerify, hv]

end

/-- Settles O54: the checks come first, then the inverse, then the sum; each failing unit is ArithmeticError. -/
theorem verifyCommand : Obligations.VerifyCommand := by
  unfold Obligations.VerifyCommand
  intro s h r sr q
  refine ⟨toNat_wordOf .., raises_curveConfig rfl, fun hok hbad => verify_completes hok (verify_of_not_valid hbad),
    fun hok hr hs hq => ⟨fun hg => verify_raises hok (verify_of_not_coprime hr hs hq hg), ?_⟩⟩
  rintro w u1 u2 hw hmul rfl rfl
  have hn : 2 ≤ s.n := modulus_ge_two hok .n
  have hv := verify_of_inverse (h := s.readS h) hn hr hs hq hw hmul
  have hraise : s.verifySum (s.readPT q) (s.readS h * w % s.n) (s.readS r * w % s.n) = .error .arithmetic →
      Raises (.verify h r sr q) 2 s := fun hsum => verify_raises hok (by rw [hv, hsum]; rfl)
  refine ⟨fun e h1 => hraise (verifySum_first_error h1), fun e h2 => hraise (verifySum_second_error h2),
    fun p1 p2 h1 h2 => ?_⟩
  have hsum : s.verifySum (s.readPT q) (s.readS h * w % s.n) (s.readS r * w % s.n) = padd s.p s.a p1 p2 :=
    verifySum_ok h1 h2
  refine ⟨fun e h3 => hraise (hsum.trans (padd_error_kind h3 ▸ h3)), fun pt h3 => ?_⟩
  obtain ⟨t, ht, hc, hk⟩ := verify_completes hok (hv.trans (congrArg (Except.map _) (hsum.trans h3)))
  exact ⟨t, _, ht, hc, hk, acceptsSum_iff pt⟩

end Sys2Proof.Machine
end

section
/-! PROOFS. The point codec (R127 to R131): each unit by the checks of its rule in their order, the bytes it writes, and
the four commands through the ends of a command that writes one point or one byte string. -/

namespace Sys2Proof.Machine

/-! ### The ends of a command that writes one value (R133, R135) -/

section
variable {i : Instr} {s : State} (hok : s.curveOk = true)
include hok

/-- With curve_ok a command whose unit fails raises the unit's error. -/
theorem writing_raises {α : Type} {w : α → Write} {r : Except ErrorKind α} {e : ErrorKind}
    (hx : exec i s = .next (commit (constructive s (writing w r)) s)) (hr : r = .error e) :
    Raises i e.code.toNat s := by
  subst hr
  exact raises_error hx hok

/-- With curve_ok a command whose unit answers a point completes and writes it. -/
theorem writing_point_completes {d : PReg} {r : Except ErrorKind Point} {pt : Point}
    (hx : exec i s = .next (commit (constructive s (writing (.point d) r)) s)) (hr : r = .ok pt) (hpt : pt.Fits) :
    ∃ t, exec i s = .next t ∧ CompletedOk false s t ∧ WritesPoint d pt s t := by
  subst hr
  rw [constructive_ok hok] at hx
  exact ⟨_, hx, completeOk_spec _ false s, completeOk_point d hpt false s⟩

/-- With curve_ok a command whose unit answers a byte string completes and writes it to BUF. -/
theorem writing_buffer_completes {r : Except ErrorKind (List Byte)} {bs : List Byte} {len : Nat} {f : Nat → Nat}
    (hx : exec i s = .next (commit (constructive s (writing .buffer r)) s)) (hr : r = .ok bs) (hwf : Memory.wf s.buf)
    (hlen : bs.length = len) (hlt : len < 256) (hf : ∀ j (h : j < bs.length), bs[j].toNat = f j) :
    ∃ t, exec i s = .next t ∧ CompletedOk false s t ∧ WritesBuffer len f s t := by
  subst hr hlen
  rw [constructive_ok hok] at hx
  exact ⟨_, hx, completeOk_spec _ false s, completeOk_buffer hlt hf false hwf⟩

end

/-- With curve_ok CW is at most MAX_CW (R31). -/
theorem cw_le {s : State} (hok : s.curveOk = true) : s.cw ≤ 64 := by
  obtain ⟨-, hle, -⟩ := (curveOk_iff s).1 hok
  exact hle

/-! ### The meanings (R127, R128, R129, R131) -/

theorem exec_penc (s : State) (a : PReg) :
    exec (.penc a) s = .next (commit (constructive s (writing .buffer (s.encodePoint (s.readPT a)))) s) := rfl

theorem exec_pdec (s : State) (d : PReg) :
    exec (.pdec d) s = .next (commit (constructive s (writing (.point d) s.decodePoint)) s) := rfl

theorem exec_pcomp (s : State) (a : PReg) :
    exec (.pcomp a) s = .next (commit (constructive s (writing .buffer (s.compress (s.readPT a)))) s) := rfl

theorem exec_pdecomp (s : State) (d : PReg) :
    exec (.pdecomp d) s = .next (commit (constructive s (writing (.point d) s.decompress)) s) := rfl

/-! ### PENC (R127) -/

section
variable {s : State} {x y : Nat}

theorem encodePoint_too_wide (h : 2 ^ (8 * s.cw) ≤ x ∨ 2 ^ (8 * s.cw) ≤ y) :
    s.encodePoint (.aff x y) = .error .encoding := if_pos h

theorem encodePoint_fits (hx : x < 2 ^ (8 * s.cw)) (hy : y < 2 ^ (8 * s.cw)) :
    s.encodePoint (.aff x y) = .ok (bytesOf s.cw x ++ bytesOf s.cw y) :=
  if_neg (not_or.2 ⟨hx.not_ge, hy.not_ge⟩)

end

/-- Byte `j` of two coordinates laid side by side (R127). -/
theorem getElem_bytesOf_append (len x y j : Nat) (h : j < (bytesOf len x ++ bytesOf len y).length) :
    (bytesOf len x ++ bytesOf len y)[j].toNat = if j < len then beByte len x j else beByte len y (j - len) := by
  split_ifs with hj
  · rw [List.getElem_append_left (by simpa using hj), getElem_bytesOf]
    rfl
  · rw [List.getElem_append_right (by simpa using hj), getElem_bytesOf]
    simp [beByte]

/-- Settles O55: INF and a coordinate too wide fail the unit, every other point is its two coordinates side by side. -/
theorem pencCommand : Obligations.PencCommand := by
  unfold Obligations.PencCommand
  intro s a
  have hexec := exec_penc s a
  refine ⟨toNat_wordOf .., fun hok ha => ?_, fun x y hok ha hwide => ?_, fun x y hwf hok ha hx hy => ?_,
    raises_curveConfig hexec⟩
  · rw [ha] at hexec
    exact writing_raises hok hexec rfl
  · rw [ha] at hexec
    exact writing_raises hok hexec (encodePoint_too_wide hwide)
  · rw [ha] at hexec
    have hr := encodePoint_fits hx hy
    have hlt : 2 * s.cw < 256 := by have := cw_le hok; omega
    exact writing_buffer_completes hok hexec hr hwf (encodePoint_length hr) hlt (getElem_bytesOf_append s.cw x y)

/-! ### PDEC (R128) -/

/-- Bytes of BUF no more than CW in number have a value that fits a coordinate register (R13, R34). -/
theorem bufferValue_lt {s : State} (hok : s.curveOk = true) (a : Nat) : bufferValue s a s.cw < 2 ^ 512 := by
  have hlt := bytesValue_lt (Memory.readBytes s.buf a s.cw)
  rw [length_readBytes, bytesValue_readBytes] at hlt
  calc bufferValue s a s.cw
      < 256 ^ s.cw := hlt
    _ ≤ 256 ^ 64 := Nat.pow_le_pow_right (by decide) (cw_le hok)
    _ = 2 ^ 512 := by rw [show (256 : Nat) = 2 ^ 8 from rfl, ← pow_mul]

theorem decodePoint_wrong_length {s : State} (h : s.buflen.toNat ≠ 2 * s.cw) : s.decodePoint = .error .decoding :=
  if_pos h

theorem decodePoint_ok {s : State} (h : s.buflen.toNat = 2 * s.cw) :
    s.decodePoint = .ok (.aff (bufferValue s 0 s.cw) (bufferValue s s.cw s.cw)) := by
  rw [State.decodePoint, if_neg (not_not.2 h), bytesValue_readBytes, bytesValue_readBytes]

/-- Settles O56: the length is the unit's one check, and each half of BUF fits its coordinate register. -/
theorem pdecCommand : Obligations.PdecCommand := by
  unfold Obligations.PdecCommand
  intro s d
  have hexec := exec_pdec s d
  refine ⟨toNat_wordOf .., fun hok hlen => ?_, fun hok hlen => ?_, raises_curveConfig hexec⟩
  · exact writing_raises hok hexec (decodePoint_wrong_length hlen)
  · exact writing_point_completes hok hexec (decodePoint_ok hlen) ⟨bufferValue_lt hok 0, bufferValue_lt hok s.cw⟩

/-! ### PCOMP (R129) -/

theorem compress_of_not_validKey {s : State} {pt : Point} (h : ¬ ValidKey s pt) :
    s.compress pt = .error .invalidKey := by
  cases pt with
  | inf => rfl
  | aff x y => exact if_neg (mt (pkValid_iff s _).1 h)

theorem compress_of_validKey {s : State} {x y : Nat} (h : ValidKey s (.aff x y)) :
    s.compress (.aff x y) = .ok (BitVec.ofNat 8 (2 + y % 2) :: bytesOf s.cw x) :=
  if_pos ((pkValid_iff s _).2 h)

/-- Byte `j` of a compressed key: the parity byte, then X (R129). -/
theorem getElem_parity_cons_bytesOf (len x y j : Nat)
    (h : j < (BitVec.ofNat 8 (2 + y % 2) :: bytesOf len x).length) :
    (BitVec.ofNat 8 (2 + y % 2) :: bytesOf len x)[j].toNat = if j = 0 then 2 + y % 2 else beByte len x (j - 1) := by
  cases j with
  | zero =>
    simp only [List.getElem_cons_zero, BitVec.toNat_ofNat, if_true]
    omega
  | succ j =>
    rw [List.getElem_cons_succ, getElem_bytesOf]
    rfl

/-- Settles O57: a point that is no valid key fails the unit, a valid key is its parity byte and X. -/
theorem pcompCommand : Obligations.PcompCommand := by
  unfold Obligations.PcompCommand
  intro s a
  have hexec := exec_pcomp s a
  refine ⟨toNat_wordOf .., fun hok hkey => ?_, fun x y hwf hok ha hkey => ?_, raises_curveConfig hexec⟩
  · exact writing_raises hok hexec (compress_of_not_validKey hkey)
  · rw [ha] at hexec
    have hr := compress_of_validKey hkey
    have hlt : s.cw + 1 < 256 := by have := cw_le hok; omega
    exact writing_buffer_completes hok hexec hr hwf (compress_length hr) hlt (getElem_parity_cons_bytesOf s.cw x y)

/-! ### The square root of PDECOMP (R130) -/

/-- The candidate root of `t` for p ≡ 3 (mod 4) (R130). -/
def rootCandidate (p t : Nat) : Nat := t ^ ((p + 1) / 4) % p

/-- sqrtp checks its candidate (R130). -/
theorem sqrtp_eq {p : Nat} (hp : 0 < p) (t : Nat) :
    sqrtp p t = if rootCandidate p t * rootCandidate p t % p = t then some (rootCandidate p t) else none := by
  rw [sqrtp, powMod_eq hp]
  rfl

/-- The negation of a root is a root. -/
theorem sub_mul_sub_mod {p y : Nat} (hy : y ≤ p) : (p - y) * (p - y) % p = y * y % p := by
  have hneg : ((p - y : Nat) : ZMod p) = -y := by rw [Nat.cast_sub hy, ZMod.natCast_self, zero_sub]
  refine (ZMod.natCast_eq_natCast_iff' _ _ p).1 ?_
  rw [Nat.cast_mul, Nat.cast_mul, hneg, neg_mul_neg]

section
variable {p x y t : Nat}

/-- No root of odd parity: 0 is its own negation (R131). -/
theorem chooseRoot_zero_odd : chooseRoot p x 0 1 = .error .decoding := rfl

/-- For odd p, of a root and its negation one has the parity asked for, unless the root is 0 and the parity 1 (R131). -/
theorem chooseRoot_ok (hp : p % 2 = 1) (hy : y < p) (ht : t = 2 ∨ t = 3) (h0 : y ≠ 0 ∨ t = 2) :
    ∃ yy, chooseRoot p x y (t - 2) = .ok (.aff x yy) ∧ yy < p ∧ yy % 2 = t - 2 ∧ (yy = y ∨ yy = p - y) := by
  unfold chooseRoot
  by_cases hpar : y % 2 = t - 2
  · exact ⟨y, if_neg (not_not.2 hpar), hy, hpar, .inl rfl⟩
  · have hy0 : y ≠ 0 := by
      rintro rfl
      omega
    exact ⟨p - y, by rw [if_pos hpar, if_neg hy0], by omega, by omega, .inr rfl⟩

end

/-! ### PDECOMP, check by check (R131) -/

/-- The tag, `BUF[0]` (R131). -/
def State.keyTag (s : State) : Nat := (Memory.read s.buf 0).toNat

/-- The coordinate x after the tag (R131). -/
def State.keyX (s : State) : Nat := bufferValue s 1 s.cw

/-- The right side of the curve equation at x (R131). -/
def State.keyRhs (s : State) : Nat := (s.keyX ^ 3 + s.a * s.keyX + s.b) % s.p

/-- The candidate root of the right side (R130, R131). -/
def State.keyRoot (s : State) : Nat := rootCandidate s.p s.keyRhs

section
variable {s : State}

/-- With x below p, a root of the right side at x and its negation both give a valid key (R113). -/
theorem validKey_of_root {yy : Nat} (hx : s.keyX < s.p) (hroot : s.keyRoot * s.keyRoot % s.p = s.keyRhs) (hyy : yy < s.p)
    (h : yy = s.keyRoot ∨ yy = s.p - s.keyRoot) : ValidKey s (.aff s.keyX yy) := by
  have hlt : s.keyRoot < s.p := Nat.mod_lt _ (by omega)
  have hsq : yy * yy % s.p = s.keyRoot * s.keyRoot % s.p := by
    rcases h with rfl | rfl
    · rfl
    · exact sub_mul_sub_mod hlt.le
  refine ⟨s.keyX, yy, rfl, hx, hyy, s.keyX, yy, rfl, ?_⟩
  rw [pow_two]
  exact hsq.trans hroot

theorem decompress_wrong_length (hlen : s.buflen.toNat ≠ s.cw + 1) : s.decompress = .error .decoding := if_pos hlen

variable (hlen : s.buflen.toNat = s.cw + 1)
include hlen

theorem decompress_wrong_tag (h2 : s.keyTag ≠ 2) (h3 : s.keyTag ≠ 3) : s.decompress = .error .decoding := by
  rw [State.decompress, if_neg (not_not.2 hlen)]
  exact if_pos ⟨h2, h3⟩

variable (htag : s.keyTag = 2 ∨ s.keyTag = 3)
include htag

/-- Past the checks of the length and of the tag. -/
theorem decompress_of_length_of_tag : s.decompress =
    if s.p % 4 ≠ 3 then .error .unsupportedCurve
    else if s.p ≤ s.keyX then .error .decoding
    else (sqrtp s.p s.keyRhs).elim (.error .decoding) fun y => chooseRoot s.p s.keyX y (s.keyTag - 2) := by
  have hok : ¬ (s.keyTag ≠ 2 ∧ s.keyTag ≠ 3) := by omega
  have hx : bytesValue (Memory.readBytes s.buf 1 s.cw) = s.keyX := bytesValue_readBytes s 1 s.cw
  have hrhs : (s.keyX * s.keyX * s.keyX + s.a * s.keyX + s.b) % s.p = s.keyRhs := by
    rw [State.keyRhs, pow_succ, pow_two]
  rw [State.decompress, if_neg (not_not.2 hlen)]
  refine (if_neg hok).trans ?_
  simp only [hx, hrhs]
  cases sqrtp s.p s.keyRhs <;> rfl

theorem decompress_unsupported (hp : s.p % 4 ≠ 3) : s.decompress = .error .unsupportedCurve := by
  rw [decompress_of_length_of_tag hlen htag, if_pos hp]

variable (hp : s.p % 4 = 3)
include hp

theorem decompress_x_too_large (hx : s.p ≤ s.keyX) : s.decompress = .error .decoding := by
  rw [decompress_of_length_of_tag hlen htag, if_neg (not_not.2 hp), if_pos hx]

variable (hx : s.keyX < s.p)
include hx

theorem decompress_no_root (hroot : s.keyRoot * s.keyRoot % s.p ≠ s.keyRhs) : s.decompress = .error .decoding := by
  rw [decompress_of_length_of_tag hlen htag, if_neg (not_not.2 hp), if_neg hx.not_ge, sqrtp_eq (by omega)]
  exact congrArg (Option.elim · _ _) (if_neg hroot)

theorem decompress_root (hroot : s.keyRoot * s.keyRoot % s.p = s.keyRhs) :
    s.decompress = chooseRoot s.p s.keyX s.keyRoot (s.keyTag - 2) := by
  rw [decompress_of_length_of_tag hlen htag, if_neg (not_not.2 hp), if_neg hx.not_ge, sqrtp_eq (by omega)]
  exact congrArg (Option.elim · _ _) (if_pos hroot)

variable (hroot : s.keyRoot * s.keyRoot % s.p = s.keyRhs)
include hroot

theorem decompress_zero_root_odd_tag (h0 : s.keyRoot = 0) (h3 : s.keyTag = 3) : s.decompress = .error .decoding := by
  rw [decompress_root hlen htag hp hx hroot, h0, h3]
  exact chooseRoot_zero_odd

theorem decompress_ok (h0 : s.keyRoot ≠ 0 ∨ s.keyTag = 2) :
    ∃ yy, s.decompress = .ok (.aff s.keyX yy) ∧ yy < s.p ∧ ValidKey s (.aff s.keyX yy)
      ∧ yy % 2 = s.keyTag - 2 ∧ (yy = s.keyRoot ∨ yy = s.p - s.keyRoot) := by
  have hlt : s.keyRoot < s.p := Nat.mod_lt _ (by omega)
  obtain ⟨yy, hc, hyy, hpar, hor⟩ := chooseRoot_ok (x := s.keyX) (by omega) hlt htag h0
  exact ⟨yy, (decompress_root hlen htag hp hx hroot).trans hc, hyy, validKey_of_root hx hroot hyy hor, hpar, hor⟩

end

/-- Settles O58: each check of the unit in turn, then the root of the parity asked for. -/
theorem pdecompCommand : Obligations.PdecompCommand := by
  unfold Obligations.PdecompCommand
  rintro s d t x rhs y rfl rfl rfl rfl
  have hexec := exec_pdecomp s d
  refine ⟨toNat_wordOf .., raises_curveConfig hexec, fun hok => ⟨fun hlen => ?_, fun hlen => ⟨fun h2 h3 => ?_,
    fun htag => ⟨fun hp => ?_, fun hp => ⟨fun hx => ?_, fun hx => ⟨fun hroot => ?_, fun hroot => ⟨fun h0 h3 => ?_,
      fun h0 => ?_⟩⟩⟩⟩⟩⟩⟩
  · exact writing_raises hok hexec (decompress_wrong_length hlen)
  · exact writing_raises hok hexec (decompress_wrong_tag hlen h2 h3)
  · exact writing_raises hok hexec (decompress_unsupported hlen htag hp)
  · exact writing_raises hok hexec (decompress_x_too_large hlen htag hp hx)
  · exact writing_raises hok hexec (decompress_no_root hlen htag hp hx hroot)
  · exact writing_raises hok hexec (decompress_zero_root_odd_tag hlen htag hp hx hroot h0 h3)
  · obtain ⟨yy, hr, hyy, hkey, hpar, hor⟩ := decompress_ok hlen htag hp hx hroot h0
    have hfits : (Point.aff s.keyX yy).Fits := ⟨bufferValue_lt hok 1, hyy.trans (p_lt s)⟩
    obtain ⟨u, hu, hdone, hwrites⟩ := writing_point_completes hok hexec hr hfits
    exact ⟨u, yy, hu, hdone, hwrites, hkey, hpar, hor⟩

end Sys2Proof.Machine
end

section
/-! PROOFS. The hazards of a BUSY engine (R156 to R158): accesses of the held offsets, the six registers below them, and
the two overrun bits, CMDOVR and WBUSY, which only a STATUS write or the reset input clears. -/

namespace Sys2Proof.Machine

/-! ### Accesses of the window while BUSY (R157, R158) -/

/-- A write of a held offset while BUSY is dropped (R157). -/
theorem writeWindow_of_busy_held {s : State} {off : Nat} (hb : s.busy = true) (ht : (target off).held = true)
    (v : Word) : s.writeWindow off v = s.dropWrite (target off) := by
  unfold State.writeWindow
  split
  case h_7 => exact if_pos hb
  all_goals next hname => simp [hname, Target.held] at ht

/-- A read of a held offset while BUSY shows 0 (R158). -/
theorem readWindow_of_busy_held {s : State} {off : Nat} (hb : s.busy = true) (ht : (target off).held = true) :
    s.readWindow off = 0 := by
  simp [State.readWindow, hb, ht]

/-- A read of an offset that is not held shows its register in every engine state (R158). -/
theorem readWindow_of_not_held (s : State) {off : Nat} (ht : (target off).held = false) :
    s.readWindow off = s.readTarget (target off) := by
  simp [State.readWindow, ht]

theorem readWindow_status (s : State) : s.readWindow 0x0C = s.statusWord := readWindow_of_not_held s rfl

theorem readWindow_errcode_toNat (s : State) : (s.readWindow 0x10).toNat = s.errcode.toNat := by
  have hlt := s.errcode.isLt
  rw [readWindow_of_not_held s rfl]
  exact (BitVec.toNat_setWidth ..).trans (Nat.mod_eq_of_lt (by omega))

theorem readWindow_irqEn_toNat (s : State) : (s.readWindow 0x14).toNat = s.irqEn.toNat := by
  rw [readWindow_of_not_held s rfl]
  exact (toNat_bitAt s.irqEn (by decide)).trans (one_mul _)

/-- A step on a write from 0x0018 up while BUSY drops it (R157). -/
theorem step_write_held {s : State} {off : Offset} {v : Word} {rest : List Event}
    (h : s.inputs = .write off .w32 v :: rest) (hr : s.rst = false) (ha : off.toNat % 4 = 0)
    (hoff : 0x18 ≤ off.toNat) (hb : s.busy = true) :
    step s = .next { ({ s with inputs := rest, response := none } : State).dropWrite (target off.toNat) with
      response := some .ack } := by
  have hbusy : ({ s with inputs := rest, response := none } : State).busy = true := hb
  rw [step_performed_write h hr ha, writeWindow_of_busy_held hbusy (target_held ha hoff off.isLt).1]

theorem step_write_irqEn {s : State} {v : Word} {rest : List Event}
    (h : s.inputs = .write 0x0014 .w32 v :: rest) (hr : s.rst = false) :
    step s = .next { s with irqEn := v.getLsbD 0, inputs := rest, response := some .ack } := by
  rw [step_performed_write h hr (by decide)]
  rfl

/-! ### The overrun bits (R156, R157) -/

/-- CMDOVR and WBUSY, where they are 1, stay 1. -/
def OverrunsKept (s t : State) : Prop :=
  (s.cmdovr = true → t.cmdovr = true) ∧ (s.wbusy = true → t.wbusy = true)

/-- The event is a STATUS write, which leaves each overrun bit unless it writes a 1 to it (R24). -/
def OverrunsWritten (e : Event) (s t : State) : Prop :=
  ∃ v, e = .write 0x000C .w32 v ∧ t.cmdovr = (s.cmdovr && !v.getLsbD 4) ∧ t.wbusy = (s.wbusy && !v.getLsbD 5)

theorem OverrunsKept.of_eq {s t : State} (hc : t.cmdovr = s.cmdovr) (hw : t.wbusy = s.wbusy) : OverrunsKept s t :=
  ⟨hc.trans, hw.trans⟩

theorem OverrunsKept.of_control {s t : State} (h : ControlKept s t) : OverrunsKept s t := by
  obtain ⟨-, hc, hw, -⟩ := h
  exact .of_eq hc hw

theorem writeCmd_keeps_overruns (s : State) (v : Word) : OverrunsKept s (s.writeCmd v) := by
  unfold State.writeCmd
  split
  · exact ⟨fun _ => rfl, id⟩
  · exact .of_eq rfl rfl

theorem dropWrite_keeps_overruns (s : State) (t : Target) : OverrunsKept s (s.dropWrite t) := by
  unfold State.dropWrite
  split
  · exact .of_eq rfl rfl
  · exact ⟨id, fun _ => rfl⟩

theorem writeOperand_keeps_overruns (s : State) (t : Target) (v : Word) : OverrunsKept s (s.writeOperand t v) := by
  cases t <;> exact .of_eq rfl rfl

/-- Of the registers of the window only STATUS clears an overrun bit. -/
theorem writeWindow_keeps_overruns (s : State) {off : Nat} (ht : target off ≠ .status) (v : Word) :
    OverrunsKept s (s.writeWindow off v) := by
  unfold State.writeWindow
  split
  case h_4 => exact writeCmd_keeps_overruns s v
  case h_5 hs => exact absurd hs ht
  case h_7 =>
    split
    · exact dropWrite_keeps_overruns s _
    · exact writeOperand_keeps_overruns s _ v
  all_goals exact .of_eq rfl rfl

/-- STATUS stands at one offset (R21). -/
theorem eq_of_target_status {off : Offset} (ha : off.toNat % 4 = 0) (ht : target off.toNat = .status) :
    off = 0x000C := by
  have hoff := offsetOfTarget_target ha off.isLt
  simp only [ht, reduceCtorEq, false_or] at hoff
  exact BitVec.eq_of_toNat_eq hoff.symm

theorem rngAnswer_keeps_overruns (a : RngAnswer) (s : State) : OverrunsKept s (rngAnswer a s) := by
  unfold rngAnswer
  split <;> exact .of_eq rfl rfl

/-- The end of an evaluation writes no control register. -/
theorem commit_control (e : Effect) (s : State) : ControlKept s (commit e s) := by
  cases e with
  | ok ws b =>
    obtain ⟨-, -, -, -, -, hc⟩ := completeOk_spec ws b s
    exact hc
  | error e =>
    obtain ⟨-, -, -, -, -, hc, -⟩ := completeError_spec e s
    exact hc
  | wait d => exact ControlKept.refl s

theorem engineTurn_keeps_overruns {s t : State} (h : engineTurn s = .next t) : OverrunsKept s t := by
  rcases engineTurn_cases s with ⟨ht, -⟩ | ⟨-, -, -, -, -, ht⟩ | ⟨-, -, e, -, -, -, ht, -⟩ <;>
    obtain rfl := Host.Outcome.next.inj (h.symm.trans ht)
  · exact .of_eq rfl rfl
  · exact .of_control (commit_control (.error .illegalCommand) s)
  · exact .of_control (commit_control e s)

/-- All an event can do to the overrun bits: keep them, write STATUS, or drive the reset input. -/
theorem handle_overruns {e : Event} {s t : State} (h : handle e s = .next t) :
    OverrunsKept s t ∨ OverrunsWritten e s t ∨ ∃ level, e = .rst level := by
  cases e with
  | read off w =>
    obtain rfl := Host.Outcome.next.inj h
    obtain ⟨r, hread⟩ := hostRead_cases off w s
    rw [hread]
    exact .inl (.of_eq rfl rfl)
  | write off w v =>
    obtain rfl := Host.Outcome.next.inj h
    rcases hostWrite_cases off w v s with ⟨r, hwrite⟩ | ⟨rfl, ha, -, hwrite⟩ <;> rw [hwrite]
    · exact .inl (.of_eq rfl rfl)
    · by_cases ht : target off.toNat = .status
      · obtain rfl := eq_of_target_status ha ht
        exact .inr (.inl ⟨v, rfl, rfl, rfl⟩)
      · exact .inl (writeWindow_keeps_overruns s ht v)
  | rng a =>
    obtain rfl := Host.Outcome.next.inj h
    exact .inl (rngAnswer_keeps_overruns a s)
  | rngWithdrawn a =>
    obtain rfl := Host.Outcome.next.inj h
    exact .inl (.of_eq rfl rfl)
  | rst level => exact .inr (.inr ⟨level, rfl⟩)
  | engine => exact .inl (engineTurn_keeps_overruns h)

/-- All a step can do to the overrun bits. -/
theorem step_overruns {s t : State} (h : step s = .next t) :
    OverrunsKept s t ∨ ∃ e rest, s.inputs = e :: rest ∧ (OverrunsWritten e s t ∨ ∃ level, e = .rst level) := by
  cases hin : s.inputs with
  | nil =>
    have hturn := engineTurn_keeps_overruns ((step_nil hin).symm.trans h)
    exact .inl hturn
  | cons e rest =>
    rcases handle_overruns ((step_cons hin).symm.trans h) with hkept | hother
    · exact .inl hkept
    · exact .inr ⟨e, rest, rfl, hother⟩

/-- A W1C bit that is 1 stays 1 unless a 1 is written to it (R24). -/
theorem w1c_sticky {bit bit' wr : Bool} (hs : bit = true) (h : bit' = (bit && !wr)) : bit' = true ∨ wr = true := by
  subst hs h
  cases wr
  · exact .inl rfl
  · exact .inr rfl

theorem step_cmdovr_sticky {s t : State} (hs : s.cmdovr = true) (h : step s = .next t) :
    t.cmdovr = true
      ∨ (∃ v rest, s.inputs = .write 0x000C .w32 v :: rest ∧ v.getLsbD 4 = true)
      ∨ (∃ level rest, s.inputs = .rst level :: rest) := by
  rcases step_overruns h with ⟨hc, -⟩ | ⟨e, rest, hin, ⟨v, rfl, hc, -⟩ | ⟨level, rfl⟩⟩
  · exact .inl (hc hs)
  · exact (w1c_sticky hs hc).imp_right fun hv => .inl ⟨v, rest, hin, hv⟩
  · exact .inr (.inr ⟨level, rest, hin⟩)

theorem step_wbusy_sticky {s t : State} (hs : s.wbusy = true) (h : step s = .next t) :
    t.wbusy = true
      ∨ (∃ v rest, s.inputs = .write 0x000C .w32 v :: rest ∧ v.getLsbD 5 = true)
      ∨ (∃ level rest, s.inputs = .rst level :: rest) := by
  rcases step_overruns h with ⟨-, hw⟩ | ⟨e, rest, hin, ⟨v, rfl, -, hw⟩ | ⟨level, rfl⟩⟩
  · exact .inl (hw hs)
  · exact (w1c_sticky hs hw).imp_right fun hv => .inl ⟨v, rest, hin, hv⟩
  · exact .inr (.inr ⟨level, rest, hin⟩)

/-! ### The obligations -/

/-- Settles O13: the dropped write by the CMD write rule, the stickiness by all a step can do to the overrun bits. -/
theorem cmdOverrunIsDroppedAndSticky : Obligations.CmdOverrunIsDroppedAndSticky := by
  unfold Obligations.CmdOverrunIsDroppedAndSticky
  refine ⟨fun s w rest h hr hb => ?_, fun s t => step_cmdovr_sticky⟩
  rw [step_write_cmd h hr, writeCmd_busy hb]
  exact ⟨_, rfl, rfl, rfl, rfl, OperandsKept.refl s, rfl⟩

/-- Settles O14: what is dropped is decided by the target of the offset, which is reserved as R21 says. -/
theorem heldWritesAreDroppedWhileBusy : Obligations.HeldWritesAreDroppedWhileBusy := by
  unfold Obligations.HeldWritesAreDroppedWhileBusy
  refine ⟨fun s off v rest h hr ha hoff hb => ?_, fun s t => step_wbusy_sticky,
    fun s v rest h hr => ⟨.ack, step_write_status h hr⟩, fun s v rest h hr => ⟨.ack, step_write_irqEn h hr⟩,
    fun s off v rest h hr hoff => ⟨.ack, ?_⟩⟩
  · have hres := (target_held ha hoff off.isLt).2
    rw [step_write_held h hr ha hoff hb]
    refine ⟨fun hro => ⟨.ack, ?_⟩, fun hro => ⟨.ack, ?_⟩⟩
    · rw [State.dropWrite, if_pos (hres.2 hro)]
    · rw [State.dropWrite, if_neg (mt hres.1 hro)]
  · rcases hoff with rfl | rfl | rfl
    · exact step_write_ignored h hr (by decide) (.inl rfl)
    · exact step_write_ignored h hr (by decide) (.inr (.inl rfl))
    · exact step_write_ignored h hr (by decide) (.inr (.inr rfl))

/-- Settles O15: a held offset shows 0 while BUSY, and the six offsets below 0x0018 are not held. -/
theorem heldReadsReturnZeroWhileBusy : Obligations.HeldReadsReturnZeroWhileBusy := by
  unfold Obligations.HeldReadsReturnZeroWhileBusy
  refine ⟨fun s off rest h hr ha hoff hb => ?_, fun s off v rest h hr hv => ?_⟩
  · rw [step_performed_read h hr ha, readWindow_of_busy_held hb (target_held ha hoff off.isLt).1]
  · have hread : off.toNat % 4 = 0 ∧ s.readWindow off.toNat = v := by
      rcases hv with ⟨rfl, rfl⟩ | ⟨rfl, rfl⟩ | ⟨rfl, rfl⟩ | ⟨rfl, rfl⟩ | ⟨rfl, hv⟩ | ⟨rfl, hv⟩
      · exact ⟨rfl, readWindow_id s⟩
      · exact ⟨rfl, readWindow_version s⟩
      · exact ⟨rfl, readWindow_cmd s⟩
      · exact ⟨rfl, readWindow_status s⟩
      · exact ⟨rfl, BitVec.eq_of_toNat_eq ((readWindow_errcode_toNat s).trans hv.symm)⟩
      · exact ⟨rfl, BitVec.eq_of_toNat_eq ((readWindow_irqEn_toNat s).trans hv.symm)⟩
    rw [step_performed_read h hr hread.1, hread.2]

end Sys2Proof.Machine
end

section
/-! PROOFS. The command word (R70 to R74): the decoder and the encoder are inverse to each other on the legal words,
and the opcode table's match and mask columns select exactly the words the decoder reads. -/

namespace Sys2Proof

/-! ### The encoder and the decoder -/

/-- What decode accepts: RSV is zero (R73 (b)), and the other fields name the command. -/
theorem decode_ok {w : Word} {i : Instr} :
    decode w = .ok i ↔ rsvField w = 0#7
      ∧ decodeFields (opField w) (faField w) (fbField w) (fcField w) (fdField w) (mField w) = .ok i := by
  unfold decode
  by_cases h : rsvField w = 0#7 <;> simp [h]

/-- SIGN is legal when its destinations differ (R73 (f)). -/
theorem wellFormed_sign {r s h key : SReg} : (Instr.sign r s h key).WellFormed ↔ r ≠ s := by
  simp [Instr.WellFormed, Instr.wellFormed]

/-- Row by row of R72: the decoder reads each field back from the place the encoder lays it in. -/
theorem decode_encode {i : Instr} (h : i.WellFormed) : decode (encode i) = .ok i := by
  cases i
  case sign r s _ _ =>
    have hne : r ≠ s := wellFormed_sign.1 h
    simp [encode, decode_wordOf, decodeFields, whenPlain, whenUnused, hne]
  all_goals simp [encode, decode_wordOf, decodeFields, whenPlain, whenUnused]

/-- Row by row of R72: fields that decode are those the encoder lays out, the unused ones being zero. -/
theorem encode_of_decodeFields {op : BitVec 8} {fa fb fc fd : Fin 16} {m : Bool} {i : Instr}
    (h : decodeFields op fa fb fc fd m = .ok i) : i.WellFormed ∧ encode i = wordOf op fa fb fc fd m := by
  have hop : op = BitVec.ofNat 8 op.toNat := by simp
  unfold decodeFields at h
  split at h
  case h_2 hv => -- CURVE_SEL
    rw [hv] at hop
    split at h
    · cases h
    · next id hid =>
      obtain ⟨rfl, hu, rfl⟩ := whenPlain_ok.1 h
      simp_all [encode, presetOf_ok, Instr.WellFormed, Instr.wellFormed]
  case h_16 hv => -- SIGN
    rw [hv] at hop
    split at h
    · cases h
    · next hne =>
      obtain ⟨rfl, -, rfl⟩ := whenPlain_ok.1 h
      exact ⟨wellFormed_sign.2 hne, by simp [encode, hop]⟩
  case h_22 => cases h
  case h_3 hv | h_4 hv | h_5 hv | h_6 hv => -- the MOD commands
    rw [hv] at hop
    obtain ⟨hu, rfl⟩ := whenUnused_ok.1 h
    simp_all [encode, Instr.WellFormed, Instr.wellFormed]
  all_goals
    next hv =>
    rw [hv] at hop
    obtain ⟨rfl, hu, rfl⟩ := whenPlain_ok.1 h
    simp_all [encode, Instr.WellFormed, Instr.wellFormed]

/-- A word that decodes is a legal command's word (R74). -/
theorem encode_of_decode {w : Word} {i : Instr} (h : decode w = .ok i) : i.WellFormed ∧ encode i = w := by
  obtain ⟨hrsv, hfields⟩ := decode_ok.1 h
  obtain ⟨hwf, henc⟩ := encode_of_decodeFields hfields
  exact ⟨hwf, henc.trans (wordOf_fields hrsv)⟩

/-! ### The match and mask columns of the opcode table (R74) -/

/-- Words are equal when their fields are (R70). -/
theorem word_eq_iff_fields {w v : Word} :
    w = v ↔ opField w = opField v ∧ faField w = faField v ∧ fbField w = fbField v ∧ fcField w = fcField v
      ∧ fdField w = fdField v ∧ rsvField w = rsvField v ∧ mField w = mField v := by
  refine ⟨fun h => by simp [h], fun ⟨hop, hfa, hfb, hfc, hfd, hrsv, hm⟩ => ?_⟩
  have hop := congrArg BitVec.toNat hop
  have hrsv := congrArg BitVec.toNat hrsv
  have hm := congrArg Bool.toNat hm
  simp only [Fin.ext_iff, opField_toNat, faField_val, fbField_val, fcField_val, fdField_val, rsvField_toNat,
    mField_toNat] at hop hfa hfb hfc hfd hrsv hm
  apply BitVec.eq_of_toNat_eq
  omega

section
variable (w v : Word)

theorem toFin_extractLsb'_and (i : Nat) :
    ((w &&& v).extractLsb' i 4).toFin = (w.extractLsb' i 4).toFin &&& (v.extractLsb' i 4).toFin := by
  rw [BitVec.extractLsb'_and, BitVec.toFin_and]

theorem opField_and : opField (w &&& v) = opField w &&& opField v := BitVec.extractLsb'_and
theorem faField_and : faField (w &&& v) = faField w &&& faField v := toFin_extractLsb'_and w v 20
theorem fbField_and : fbField (w &&& v) = fbField w &&& fbField v := toFin_extractLsb'_and w v 16
theorem fcField_and : fcField (w &&& v) = fcField w &&& fcField v := toFin_extractLsb'_and w v 12
theorem fdField_and : fdField (w &&& v) = fdField w &&& fdField v := toFin_extractLsb'_and w v 8
theorem rsvField_and : rsvField (w &&& v) = rsvField w &&& rsvField v := BitVec.extractLsb'_and
theorem mField_and : mField (w &&& v) = (mField w && mField v) := BitVec.getLsbD_and

end
end Sys2Proof

namespace Sys2Proof.Machine

/-- The mask of a register field: a row that marks the field 0 compares all of it (R72). -/
def fieldMask (used : Bool) : Fin 16 := if used then 0 else 15

/-- The mask of FA: CURVE_SEL compares its upper three bits, which are 0 in the legal ids 0 and 1 (R73 (e)). -/
def faMask (op : BitVec 8) (u : RowUse) : Fin 16 := if op.toNat = 0x01 then 14 else fieldMask u.fa

/-- A row's columns against the fields it uses: the pattern is its opcode alone, the mask covers OP, RSV, the unused
fields, and M outside the MOD commands. Only SIGN has SIGN's opcode, and CURVE_SEL uses FA. -/
def ColumnsMatch (row : OpcodeRow) (u : RowUse) : Prop :=
  (row.name = "SIGN" ↔ (opField row.pattern).toNat = 0x42)
    ∧ row.pattern = wordOf (opField row.pattern) 0 0 0 0 false
    ∧ opField row.mask = BitVec.allOnes 8 ∧ faField row.mask = faMask (opField row.pattern) u
    ∧ fbField row.mask = fieldMask u.fb ∧ fcField row.mask = fieldMask u.fc ∧ fdField row.mask = fieldMask u.fd
    ∧ rsvField row.mask = BitVec.allOnes 7 ∧ mField row.mask = !u.m
    ∧ ((opField row.pattern).toNat = 0x01 → u.fa = true)

theorem opcodeRows_columns : ∀ row ∈ opcodeRows, ∃ u ∈ rowUse (opField row.pattern).toNat, ColumnsMatch row u := by
  unfold ColumnsMatch
  decide

theorem and_fieldMask_eq_zero : ∀ (used : Bool) (x : Fin 16), x &&& fieldMask used = 0 ↔ (used = false → x = 0) := by
  decide

theorem and_faMask_eq_zero {op : BitVec 8} {u : RowUse} (hu : op.toNat = 0x01 → u.fa = true) (x : Fin 16) :
    x &&& faMask op u = 0 ↔ (u.fa = false → x = 0) ∧ (op.toNat = 0x01 → ¬ 2 ≤ x.val) := by
  have hsel : ∀ x : Fin 16, x &&& 14 = 0 ↔ ¬ 2 ≤ x.val := by decide
  unfold faMask
  split
  · next hop => simp [hsel, hop, hu hop]
  · next hop => simp [and_fieldMask_eq_zero, hop]

/-- What a row's columns test of a word. -/
theorem and_mask_eq_pattern_iff {row : OpcodeRow} {u : RowUse} (hcol : ColumnsMatch row u) (w : Word) :
    w &&& row.mask = row.pattern ↔ opField w = opField row.pattern
      ∧ ((u.fa = false → faField w = 0) ∧ ((opField row.pattern).toNat = 0x01 → ¬ 2 ≤ (faField w).val))
      ∧ (u.fb = false → fbField w = 0) ∧ (u.fc = false → fcField w = 0) ∧ (u.fd = false → fdField w = 0)
      ∧ rsvField w = 0#7 ∧ (u.m = false → mField w = false) := by
  obtain ⟨-, hpat, hop, hfa, hfb, hfc, hfd, hrsv, hm, hsel⟩ := hcol
  generalize opField row.pattern = op at *
  rw [hpat, word_eq_iff_fields]
  simp only [opField_and, faField_and, fbField_and, fcField_and, fdField_and, rsvField_and, mField_and, hop, hfa, hfb,
    hfc, hfd, hrsv, hm, BitVec.and_allOnes, and_fieldMask_eq_zero, and_faMask_eq_zero hsel, opField_wordOf,
    faField_wordOf, fbField_wordOf, fcField_wordOf, fdField_wordOf, rsvField_wordOf, mField_wordOf]
  cases u.m <;> simp

/-- No clause of R73 holds of a word whose opcode has a row. -/
theorem not_illegalWord_iff {w : Word} {u : RowUse} (hu : rowUse (opField w).toNat = some u) :
    ¬ IllegalWord w ↔ rsvField w = 0#7 ∧ (u.fa = false → faField w = 0) ∧ (u.fb = false → fbField w = 0)
      ∧ (u.fc = false → fcField w = 0) ∧ (u.fd = false → fdField w = 0) ∧ (u.m = false → mField w = false)
      ∧ ((opField w).toNat = 0x01 → ¬ 2 ≤ (faField w).val) ∧ ((opField w).toNat = 0x42 → faField w ≠ fbField w) := by
  simp [illegalWord_iff, IllegalFields, hu]

/-- A word selects a row, SIGN with FA = FB apart, exactly when it has the row's opcode and no clause of R73 makes it
illegal. -/
theorem selects_iff {row : OpcodeRow} (hrow : row ∈ opcodeRows) (w : Word) :
    (w &&& row.mask = row.pattern ∧ ¬ (row.name = "SIGN" ∧ faField w = fbField w))
      ↔ opField w = opField row.pattern ∧ ¬ IllegalWord w := by
  obtain ⟨u, hu, hcol⟩ := opcodeRows_columns row hrow
  have hmask := and_mask_eq_pattern_iff hcol w
  obtain ⟨hsign, -⟩ := hcol
  by_cases hop : opField w = opField row.pattern
  · rw [← hop] at hu hmask hsign
    rw [hmask, hsign, not_illegalWord_iff hu]
    constructor
    · rintro ⟨⟨-, ⟨hfa, hid⟩, hfb, hfc, hfd, hrsv, hm⟩, hsame⟩
      exact ⟨hop, hrsv, hfa, hfb, hfc, hfd, hm, hid, fun h42 heq => hsame ⟨h42, heq⟩⟩
    · rintro ⟨-, hrsv, hfa, hfb, hfc, hfd, hm, hid, hsame⟩
      exact ⟨⟨rfl, ⟨hfa, hid⟩, hfb, hfc, hfd, hrsv, hm⟩, fun ⟨h42, heq⟩ => hsame h42 heq⟩
  · simp [hmask, hop]

theorem opcodeRows_opcodes_distinct : ∀ row ∈ opcodeRows, ∀ row' ∈ opcodeRows,
    opField row.pattern = opField row'.pattern → row = row' := by decide

theorem opcodeRows_names_distinct : ∀ row ∈ opcodeRows, ∀ row' ∈ opcodeRows, row.name = row'.name → row = row' := by
  decide

/-- A word that selects a row has its opcode. -/
theorem opField_of_selects {row : OpcodeRow} (hrow : row ∈ opcodeRows) {w : Word} (h : w &&& row.mask = row.pattern) :
    opField w = opField row.pattern := by
  obtain ⟨u, -, hcol⟩ := opcodeRows_columns row hrow
  exact ((and_mask_eq_pattern_iff hcol w).1 h).1

/-- The lemma of Laws/PerInstr.lean for each command. -/
theorem wordShape : ∀ i : Instr, Laws.WordShape.Statement i
  | .nop => Laws.WordShape.nop
  | .curveSel id => Laws.WordShape.curveSel id
  | .modadd d a b m => Laws.WordShape.modadd d a b m
  | .modsub d a b m => Laws.WordShape.modsub d a b m
  | .modmul d a b m => Laws.WordShape.modmul d a b m
  | .modinv d a m => Laws.WordShape.modinv d a m
  | .padd d a b => Laws.WordShape.padd d a b
  | .pdbl d a => Laws.WordShape.pdbl d a
  | .psmul d a k => Laws.WordShape.psmul d a k
  | .pbmul d k => Laws.WordShape.pbmul d k
  | .schk a => Laws.WordShape.schk a
  | .pchk a => Laws.WordShape.pchk a
  | .pkchk a => Laws.WordShape.pkchk a
  | .rsample d => Laws.WordShape.rsample d
  | .derive d key => Laws.WordShape.derive d key
  | .sign r s h key => Laws.WordShape.sign r s h key
  | .verify h r s q => Laws.WordShape.verify h r s q
  | .penc a => Laws.WordShape.penc a
  | .pdec d => Laws.WordShape.pdec d
  | .pcomp a => Laws.WordShape.pcomp a
  | .pdecomp d => Laws.WordShape.pdecomp d

/-- Every command's word carries the opcode of its own row (R72). -/
theorem encode_has_row (i : Instr) :
    ∃ row ∈ opcodeRows, row.name = mnemonic i ∧ opField (encode i) = opField row.pattern := by
  obtain ⟨row, hrow, hname, hop, -⟩ := wordShape i
  exact ⟨row, hrow, hname, hop⟩

/-- A word decodes to a command of a row exactly when it has the row's opcode and is legal. -/
theorem decodes_to_row_iff {row : OpcodeRow} (hrow : row ∈ opcodeRows) (w : Word) :
    (∃ i, decode w = .ok i ∧ mnemonic i = row.name) ↔ opField w = opField row.pattern ∧ ¬ IllegalWord w := by
  rw [illegalWord_iff_decode_refuses]
  have row_of {i : Instr} (hi : decode w = .ok i) :
      ∃ row' ∈ opcodeRows, row'.name = mnemonic i ∧ opField w = opField row'.pattern := by
    rw [← (encode_of_decode hi).2]
    exact encode_has_row i
  constructor
  · rintro ⟨i, hi, hname⟩
    obtain ⟨row', hrow', hname', hop⟩ := row_of hi
    obtain rfl := opcodeRows_names_distinct row' hrow' row hrow (hname'.trans hname)
    exact ⟨hop, by simp [hi]⟩
  · rintro ⟨hop, hlegal⟩
    cases hi : decode w with
    | error e => exact absurd ⟨e, hi⟩ hlegal
    | ok i =>
      obtain ⟨row', hrow', hname', hop'⟩ := row_of hi
      obtain rfl := opcodeRows_opcodes_distinct row' hrow' row hrow (hop'.symm.trans hop)
      exact ⟨i, rfl, hname'.symm⟩

/-- Settles O1: every field of every row comes back from its place in the word. -/
theorem decodeOfEncodeIsIdentity : Obligations.DecodeOfEncodeIsIdentity := by
  unfold Obligations.DecodeOfEncodeIsIdentity
  exact fun i => decode_encode

/-- Settles O2: an accepted word has zero RSV bits and no bit outside the fields of its row. -/
theorem encodeOfDecodeIsIdentity : Obligations.EncodeOfDecodeIsIdentity := by
  unfold Obligations.EncodeOfDecodeIsIdentity
  exact fun w i => encode_of_decode

/-- Settles O3: both sides of the table's reading are "the row's opcode, and no clause of R73". -/
theorem decoderAgreesWithOpcodeTable : Obligations.DecoderAgreesWithOpcodeTable := by
  unfold Obligations.DecoderAgreesWithOpcodeTable
  refine ⟨fun w row hrow => (selects_iff hrow w).trans (decodes_to_row_iff hrow w).symm,
    fun w row row' hrow hrow' h h' => ?_, fun i => ?_⟩
  · exact opcodeRows_opcodes_distinct row hrow row' hrow'
      ((opField_of_selects hrow h).symm.trans (opField_of_selects hrow' h'))
  · obtain ⟨row, hrow, hname, -⟩ := encode_has_row i
    exact ⟨row, hrow, hname⟩

/-- Settles O5: evaluates the decoder on the eight words. -/
theorem sampleWordsDecode : Obligations.SampleWordsDecode := by
  unfold Obligations.SampleWordsDecode
  decide

end Sys2Proof.Machine
end

section
/-! PROOFS. The turns of the engine (R16, R133, R154): what the effect a command commits can be, and the steps that take
a turn, a port answer or an access the core does not perform. -/

namespace Sys2Proof.Machine

/-! ### What a turn can leave (R16, R30, R37, R39) -/

/-- Whatever exec answers is the end of one effect the command may have. -/
theorem exec_next {i : Instr} {s t : State} (h : exec i s = .next t) : ∃ e, t = commit e s ∧ e.Allowed i s := by
  obtain ⟨e, he, ha⟩ := exec_spec i s
  exact ⟨e, Host.Outcome.next.inj (h.symm.trans he), ha⟩

/-- Settles O22: the three ends of commit. -/
theorem everyTurnEndsInOneOfThreeWays : Obligations.EveryTurnEndsInOneOfThreeWays := by
  unfold Obligations.EveryTurnEndsInOneOfThreeWays
  intro s t i h
  obtain ⟨e, rfl, -⟩ := exec_next h
  rcases commit_cases e s with hok | ⟨k, hk⟩ | hwait
  · exact .inl hok
  · obtain ⟨hlow, hhigh⟩ := k.code_range
    exact .inr (.inl ⟨_, hlow, hhigh, hk⟩)
  · exact .inr (.inr hwait)

/-- Settles O23: only a completion without error writes, and only CURVE_SEL's writes name the curve. -/
theorem onlyCurveSelWritesTheCurve : Obligations.OnlyCurveSelWritesTheCurve := by
  unfold Obligations.OnlyCurveSelWritesTheCurve
  intro s t i h hi
  obtain ⟨e, rfl, ha⟩ := exec_next h
  cases e with
  | ok ws b =>
    obtain ⟨⟨id, rfl⟩ | hc, -⟩ := ha
    · exact absurd rfl (hi id)
    · exact applyWrites_curve hc s
  | error k => rfl
  | wait drawn => rfl

/-- Settles O24: an error clears RESULT and a request does not complete, so the effect is the predicate's own. -/
theorem onlyPredicatesSetResult : Obligations.OnlyPredicatesSetResult := by
  unfold Obligations.OnlyPredicatesSetResult
  intro s t i h hidle hresult
  obtain ⟨e, rfl, ha⟩ := exec_next h
  cases e with
  | ok ws b =>
    obtain ⟨-, -, hb⟩ := ha
    exact ⟨rfl, rfl, hb hresult⟩
  | error k => cases hresult
  | wait drawn => cases hidle

/-- Settles O25: a completion leaves the engine idle, so the effect is a request, which two commands may have. -/
theorem onlyRsampleAndSignRequestBytes : Obligations.OnlyRsampleAndSignRequestBytes := by
  unfold Obligations.OnlyRsampleAndSignRequestBytes
  intro s t i h hreq _
  obtain ⟨e, rfl, ha⟩ := exec_next h
  cases e with
  | ok ws b => cases hreq
  | error k => cases hreq
  | wait drawn =>
    obtain ⟨-, -, hd | ⟨r, sd, h, key, hi, -⟩⟩ := ha
    · exact .inl hd
    · exact .inr ⟨r, sd, h, key, hi⟩

/-! ### Steps that take a turn (R133, R154, R162) -/

/-- The turn does nothing in IDLE, and while the command waits on the port. -/
theorem engineTurn_stays {s : State} (h : s.engine = .idle ∨ ∃ drawn, s.engine = .busy (.waiting drawn)) :
    engineTurn s = .next s := by
  obtain h | ⟨drawn, h⟩ := h
  · exact engineTurn_idle h
  · exact engineTurn_waiting h

/-- Settles O6: with an engine turn oldest, or no event at all, the step is the turn. -/
theorem engineTurnRunsDecodedCommand : Obligations.EngineTurnRunsDecodedCommand := by
  unfold Obligations.EngineTurnRunsDecodedCommand
  refine ⟨fun s i p he hp hd => ⟨fun rest h => ?_, fun h => ?_⟩, fun s he => ⟨fun rest h => ?_, fun h => ?_⟩⟩
  · rw [step_engine h]
    exact engineTurn_legal he hp hd
  · rw [step_nil h]
    exact engineTurn_legal he hp hd
  · rw [step_engine h]
    exact engineTurn_stays he
  · rw [step_nil h]
    exact engineTurn_stays he

theorem engineTurn_goes_on (s : State) : ∃ t, engineTurn s = .next t := by
  rcases engineTurn_cases s with ⟨h, -⟩ | ⟨-, -, -, -, -, h⟩ | ⟨-, -, e, -, -, -, h, -⟩ <;> exact ⟨_, h⟩

/-- Settles O7: every event but the engine's turn answers a state by its definition, and so does the turn. -/
theorem everyStepGoesOn : Obligations.EveryStepGoesOn := by
  unfold Obligations.EveryStepGoesOn
  intro s
  cases h : s.inputs with
  | nil =>
    rw [step_nil h]
    exact engineTurn_goes_on _
  | cons e rest =>
    rw [step_cons h]
    cases e with
    | engine => exact engineTurn_goes_on _
    | _ => exact ⟨_, rfl⟩

/-- The end of an evaluation: completed, or waiting on the port with DONE as it was. -/
theorem commit_progress (e : Effect) (s : State) :
    ((commit e s).busy = false ∧ (commit e s).done = true)
      ∨ ((commit e s).rngwait = true ∧ (commit e s).done = s.done) := by
  cases e with
  | ok ws b => exact .inl ⟨rfl, rfl⟩
  | error k => exact .inl ⟨rfl, rfl⟩
  | wait drawn => exact .inr ⟨rfl, rfl⟩

/-- A turn on a command in flight that does not wait ends an evaluation (R133). -/
theorem engineTurn_commits {s : State} (hb : s.busy = true) (hw : s.rngwait = false) :
    ∃ e, engineTurn s = .next (commit e s) := by
  rcases engineTurn_cases s with ⟨-, hidle | hwait⟩ | ⟨-, -, -, -, -, h⟩ | ⟨-, -, e, -, -, -, h, -⟩
  · exact absurd hidle ((busy_iff s).1 hb)
  · exact absurd ((rngwait_iff s).2 hwait) (by simp [hw])
  · exact ⟨.error .illegalCommand, h⟩
  · exact ⟨e, h⟩

/-- Settles O29: the turn ends an evaluation, which completes or raises a request. -/
theorem engineTurnMakesProgress : Obligations.EngineTurnMakesProgress := by
  unfold Obligations.EngineTurnMakesProgress
  intro s rest h hb hw
  obtain ⟨e, he⟩ := engineTurn_commits (s := { s with inputs := rest, response := none }) hb hw
  obtain ⟨-, -, -, -, -, hinputs, -⟩ := commit_control e { s with inputs := rest, response := none }
  exact ⟨_, (step_engine h).trans he, hinputs, commit_progress e _⟩

/-! ### Port answers (R39, R163) -/

theorem rngAnswer_waiting {s : State} {drawn : List Byte} (h : s.engine = .busy (.waiting drawn)) (a : RngAnswer) :
    rngAnswer a s = { s with engine := .busy (.answered drawn a) } := by
  simp [rngAnswer, h]

theorem rngAnswer_not_waiting {s : State} (h : s.rngwait = false) (a : RngAnswer) : rngAnswer a s = s := by
  unfold rngAnswer
  split
  · next drawn he => exact absurd ((rngwait_iff s).2 ⟨drawn, he⟩) (by simp [h])
  · rfl

/-- A step on an answer with no request raised (log entry 8). -/
theorem step_rng_unasked {s : State} {a : RngAnswer} {rest : List Event} (h : s.inputs = .rng a :: rest)
    (hw : s.rngwait = false) : step s = .next { s with inputs := rest, response := none } :=
  (step_rng h).trans (congrArg _ (rngAnswer_not_waiting (s := { s with inputs := rest, response := none }) hw a))

/-- Settles O30: only a waiting engine takes the answer, and it waits no longer. -/
theorem answersAreTakenOnce : Obligations.AnswersAreTakenOnce := by
  unfold Obligations.AnswersAreTakenOnce
  refine fun s a rest h => ⟨fun drawn he => ⟨_, (step_rng h).trans ?_, rfl, rfl, rfl⟩, step_rng_unasked h⟩
  exact congrArg _ (rngAnswer_waiting (s := { s with inputs := rest, response := none }) he a)

/-! ### Accesses the core does not perform (R51) -/

/-- Settles O16: the access is none the core performs, at any level of rst. -/
theorem badAccessesGetABusError : Obligations.BadAccessesGetABusError := by
  unfold Obligations.BadAccessesGetABusError
  intro s off width v rest hbad
  have hillegal : legalAccess off width = false := by
    rw [legalAccess, Bool.and_eq_false_iff, decide_eq_false_iff_not, decide_eq_false_iff_not]
    exact hbad
  exact ⟨fun h => step_illegal (.inl h) hillegal, fun h => step_illegal (.inr ⟨v, h⟩) hillegal⟩

end Sys2Proof.Machine
end

section
/-! PROOFS. A command in flight (R52 (c), R155, R157, R158): no step changes what it reads, no event from outside shows
an operand register, and a request that is never answered keeps it waiting for ever. -/

namespace Sys2Proof.Machine

theorem OperandsKept.trans {s t u : State} (h : OperandsKept s t) (k : OperandsKept t u) : OperandsKept s u := by
  obtain ⟨hs, hp, hc, hl, hb⟩ := h
  obtain ⟨ks, kp, kc, kl, kb⟩ := k
  exact ⟨fun j => (ks j).trans (hs j), fun j => (kp j).trans (hp j), kc.trans hc, kl.trans hl,
    fun a => (kb a).trans (hb a)⟩

/-- The command in flight is as before: its word, its progress, the registers it may read, and the events to come. -/
def FlightKept (s t : State) : Prop :=
  t.engine = s.engine ∧ t.cmd = s.cmd ∧ t.inputs = s.inputs ∧ OperandsKept s t

theorem FlightKept.refl (s : State) : FlightKept s s := ⟨rfl, rfl, rfl, OperandsKept.refl s⟩

/-! ### Accesses while BUSY (R156 to R158) -/

/-- All a write of the window does while BUSY is to set or clear control bits. -/
theorem writeWindow_of_busy {s : State} (hb : s.busy = true) (off : Nat) (v : Word) :
    ∃ done err cmdovr wbusy irqEn, s.writeWindow off v
      = { s with done := done, err := err, cmdovr := cmdovr, wbusy := wbusy, irqEn := irqEn } := by
  by_cases hheld : (target off).held = true
  · rw [writeWindow_of_busy_held hb hheld, State.dropWrite]
    split <;> exact ⟨_, _, _, _, _, rfl⟩
  · unfold State.writeWindow
    cases ht : target off
    case cmd =>
      simp only [writeCmd_busy hb]
      exact ⟨_, _, _, _, _, rfl⟩
    case id | version | errcode | status | irqEn => exact ⟨_, _, _, _, _, rfl⟩
    all_goals exact absurd (congrArg Target.held ht) hheld

theorem hostRead_keeps_flight (off : Offset) (w : AccessWidth) (s : State) : FlightKept s (hostRead off w s) := by
  obtain ⟨r, h⟩ := hostRead_cases off w s
  rw [h]
  exact FlightKept.refl s

theorem hostWrite_keeps_flight {s : State} (hb : s.busy = true) (off : Offset) (w : AccessWidth) (v : Word) :
    FlightKept s (hostWrite off w v s) := by
  obtain ⟨r, h⟩ | ⟨-, -, -, h⟩ := hostWrite_cases off w v s
  · rw [h]
    exact FlightKept.refl s
  · obtain ⟨_, _, _, _, _, hw⟩ := writeWindow_of_busy hb off.toNat v
    rw [h, hw]
    exact FlightKept.refl s

/-! ### Operands are held (R52 (c)) -/

theorem rngAnswer_keeps_operands (a : RngAnswer) (s : State) :
    OperandsKept s (rngAnswer a s) ∧ (rngAnswer a s).cmd = s.cmd := by
  unfold rngAnswer
  split <;> exact ⟨OperandsKept.refl s, rfl⟩

/-- A turn that leaves the command in flight writes no register. -/
theorem engineTurn_keeps_operands {s t : State} (hb : s.busy = true) (h : engineTurn s = .next t) (ht : t.busy = true) :
    OperandsKept s t ∧ t.cmd = s.cmd := by
  by_cases hw : s.rngwait = true
  · obtain rfl := Host.Outcome.next.inj (h.symm.trans (engineTurn_stays (.inr ((rngwait_iff s).1 hw))))
    exact ⟨OperandsKept.refl _, rfl⟩
  · obtain ⟨e, he⟩ := engineTurn_commits hb (by simpa using hw)
    obtain rfl := Host.Outcome.next.inj (h.symm.trans he)
    cases e with
    | ok ws b => cases ht
    | error k => cases ht
    | wait drawn => exact ⟨OperandsKept.refl s, rfl⟩

/-- Event by event: while the command stays in flight its word and its operands are held. A reset does not leave it
in flight. -/
theorem handle_keeps_operands {e : Event} {s t : State} (hb : s.busy = true) (h : handle e s = .next t)
    (ht : t.busy = true) : OperandsKept s t ∧ t.cmd = s.cmd := by
  cases e with
  | read off w =>
    obtain rfl := Host.Outcome.next.inj h
    obtain ⟨-, hcmd, -, hops⟩ := hostRead_keeps_flight off w s
    exact ⟨hops, hcmd⟩
  | write off w v =>
    obtain rfl := Host.Outcome.next.inj h
    obtain ⟨-, hcmd, -, hops⟩ := hostWrite_keeps_flight hb off w v
    exact ⟨hops, hcmd⟩
  | rng a =>
    obtain rfl := Host.Outcome.next.inj h
    exact rngAnswer_keeps_operands a s
  | rngWithdrawn a =>
    obtain rfl := Host.Outcome.next.inj h
    exact ⟨OperandsKept.refl s, rfl⟩
  | rst level =>
    obtain rfl := Host.Outcome.next.inj h
    unfold driveReset at ht ⊢
    split at ht
    · cases ht
    · next hl =>
      rw [if_neg hl]
      exact ⟨OperandsKept.refl s, rfl⟩
  | engine => exact engineTurn_keeps_operands hb h ht

/-- Settles O26: the step's event, or the turn taken when there is none, holds them. -/
theorem operandsAreHeldInFlight : Obligations.OperandsAreHeldInFlight := by
  unfold Obligations.OperandsAreHeldInFlight
  intro s t hb h ht
  cases hin : s.inputs with
  | nil => exact engineTurn_keeps_operands (s := { s with response := none }) hb ((step_nil hin).symm.trans h) ht
  | cons e rest =>
    exact handle_keeps_operands (s := { s with inputs := rest, response := none }) hb ((step_cons hin).symm.trans h) ht

/-! ### Nothing shows outside (R158) -/

/-- A state with another's operand registers. -/
def State.withOperandsOf (s o : State) : State :=
  { s with buflen := o.buflen, curve := o.curve, sreg := o.sreg, pt := o.pt, buf := o.buf }

theorem sameOutsideOperands_withOperandsOf (s o : State) : SameOutsideOperands s (s.withOperandsOf o) :=
  ⟨rfl, rfl, rfl, rfl, rfl, rfl, rfl, rfl, rfl, rfl, rfl, rfl⟩

/-- States that differ in operand registers only: the one with the other's operands is the other. -/
theorem eq_withOperandsOf {s t : State} (h : SameOutsideOperands s t) : t = s.withOperandsOf t := by
  obtain ⟨hcmd, heng, hdone, herr, hres, hovr, hwb, hcode, hirq, hrst, hin, hresp⟩ := h
  cases t
  cases s
  simp_all [State.withOperandsOf]

section
variable (s o : State)

theorem readTarget_withOperandsOf {t : Target} (ht : t.held = false) :
    (s.withOperandsOf o).readTarget t = s.readTarget t := by
  cases t
  case id | version | cmd | status | errcode | irqEn => rfl
  all_goals cases ht

theorem rngAnswer_withOperandsOf (a : RngAnswer) :
    rngAnswer a (s.withOperandsOf o) = (rngAnswer a s).withOperandsOf o := by
  by_cases hw : s.rngwait = true
  · obtain ⟨drawn, he⟩ := (rngwait_iff s).1 hw
    rw [rngAnswer_waiting he, rngAnswer_waiting (s := s.withOperandsOf o) he]
    rfl
  · have hw : s.rngwait = false := by simpa using hw
    rw [rngAnswer_not_waiting hw, rngAnswer_not_waiting (s := s.withOperandsOf o) hw]

/-- A reset leaves the same state whatever the operand registers held. -/
theorem driveReset_withOperandsOf (level : Bool) :
    SameOutsideOperands (driveReset level s) (driveReset level (s.withOperandsOf o)) := by
  have hrst : (s.withOperandsOf o).rst = s.rst := rfl
  unfold driveReset
  rw [hrst]
  split <;> exact ⟨rfl, rfl, rfl, rfl, rfl, rfl, rfl, rfl, rfl, rfl, rfl, rfl⟩

end

section
variable {s : State} (hb : s.busy = true) (o : State)
include hb

/-- While BUSY the window shows no operand register. -/
theorem readWindow_withOperandsOf (off : Nat) : (s.withOperandsOf o).readWindow off = s.readWindow off := by
  cases ht : (target off).held with
  | true => rw [readWindow_of_busy_held hb ht, readWindow_of_busy_held (s := s.withOperandsOf o) hb ht]
  | false => rw [readWindow_of_not_held _ ht, readWindow_of_not_held _ ht, readTarget_withOperandsOf s o ht]

/-- While BUSY a write of the window reads no operand register and writes none. -/
theorem writeWindow_withOperandsOf (off : Nat) (v : Word) :
    (s.withOperandsOf o).writeWindow off v = (s.writeWindow off v).withOperandsOf o := by
  by_cases hheld : (target off).held = true
  · rw [writeWindow_of_busy_held hb hheld, writeWindow_of_busy_held (s := s.withOperandsOf o) hb hheld]
    unfold State.dropWrite
    split <;> rfl
  · unfold State.writeWindow
    cases ht : target off
    case cmd =>
      simp only [writeCmd_busy hb, writeCmd_busy (s := s.withOperandsOf o) hb]
      rfl
    case id | version | errcode | status | irqEn => rfl
    all_goals exact absurd (congrArg Target.held ht) hheld

theorem hostRead_withOperandsOf (off : Offset) (w : AccessWidth) :
    hostRead off w (s.withOperandsOf o) = (hostRead off w s).withOperandsOf o := by
  unfold hostRead hostAccess performRead
  rw [readWindow_withOperandsOf hb o]
  split <;> rfl

theorem hostWrite_withOperandsOf (off : Offset) (w : AccessWidth) (v : Word) :
    hostWrite off w v (s.withOperandsOf o) = (hostWrite off w v s).withOperandsOf o := by
  unfold hostWrite hostAccess performWrite
  rw [writeWindow_withOperandsOf hb o]
  have hrst : (s.withOperandsOf o).rst = s.rst := rfl
  rw [hrst]
  split
  · split <;> rfl
  · rfl

/-- Event by event, but for the engine's turn: the operand registers stay out of every other field. -/
theorem handle_withOperandsOf {e : Event} (he : e ≠ .engine) :
    ∃ t t', handle e s = .next t ∧ handle e (s.withOperandsOf o) = .next t' ∧ SameOutsideOperands t t' := by
  cases e with
  | read off w =>
    exact ⟨_, _, rfl, congrArg Host.Outcome.next (hostRead_withOperandsOf hb o off w),
      sameOutsideOperands_withOperandsOf _ o⟩
  | write off w v =>
    exact ⟨_, _, rfl, congrArg Host.Outcome.next (hostWrite_withOperandsOf hb o off w v),
      sameOutsideOperands_withOperandsOf _ o⟩
  | rng a =>
    exact ⟨_, _, rfl, congrArg Host.Outcome.next (rngAnswer_withOperandsOf s o a),
      sameOutsideOperands_withOperandsOf _ o⟩
  | rngWithdrawn a => exact ⟨_, _, rfl, rfl, sameOutsideOperands_withOperandsOf s o⟩
  | rst level => exact ⟨_, _, rfl, rfl, driveReset_withOperandsOf s o level⟩
  | engine => exact absurd rfl he

end

/-- Settles O27: the second state is the first with other operand registers, which no event from outside shows. -/
theorem hostLearnsNothingInFlight : Obligations.HostLearnsNothingInFlight := by
  unfold Obligations.HostLearnsNothingInFlight
  intro s s' e rest hsame hb hin he
  rw [eq_withOperandsOf hsame, step_cons hin, step_cons (s := s.withOperandsOf s') hin]
  exact handle_withOperandsOf (s := { s with inputs := rest, response := none }) hb s' he

/-! ### A request that is never answered (R155 (a)) -/

theorem engineTurn_waiting_keeps_flight {s : State} (hw : s.rngwait = true) :
    ∃ t, engineTurn s = .next t ∧ FlightKept s t :=
  ⟨s, engineTurn_stays (.inr ((rngwait_iff s).1 hw)), FlightKept.refl s⟩

/-- While the command waits, an event that neither answers it nor resets the core leaves it waiting. -/
theorem handle_quiet_keeps_flight {s : State} {e : Event} (hw : s.rngwait = true) (he : e.quiet) :
    ∃ t, handle e s = .next t ∧ FlightKept s t := by
  have hb : s.busy = true := by
    obtain ⟨drawn, hwait⟩ := (rngwait_iff s).1 hw
    simp [busy_iff, hwait]
  cases e with
  | read off w => exact ⟨_, rfl, hostRead_keeps_flight off w s⟩
  | write off w v => exact ⟨_, rfl, hostWrite_keeps_flight hb off w v⟩
  | rng a => exact he.elim
  | rngWithdrawn a => exact ⟨_, rfl, FlightKept.refl s⟩
  | rst level => exact he.elim
  | engine => exact engineTurn_waiting_keeps_flight hw

/-- One step of the wait: the oldest event goes, and the command stays as it is. -/
theorem step_quiet_keeps_flight {s : State} (hw : s.rngwait = true) (hq : ∀ e ∈ s.inputs, e.quiet) :
    ∃ t, step s = .next t ∧ FlightKept { s with inputs := s.inputs.tail } t := by
  cases hin : s.inputs with
  | nil =>
    rw [step_nil hin]
    obtain ⟨t, ht, heng, hcmd, hinputs, hops⟩ := engineTurn_waiting_keeps_flight (s := { s with response := none }) hw
    exact ⟨t, ht, heng, hcmd, hinputs.trans hin, hops⟩
  | cons e rest =>
    rw [step_cons hin]
    exact handle_quiet_keeps_flight (s := { s with inputs := rest, response := none }) hw (hq e (by simp [hin]))

theorem run_succ {s t : State} (h : step s = .next t) (k : Nat) : core.run (k + 1) s = core.run k t := by
  have hc : core.step s = .next t := h
  simp only [Host.Core.run, hc]

/-- Settles O28, by induction on the number of steps. -/
theorem unansweredRequestHangs : Obligations.UnansweredRequestHangs := by
  unfold Obligations.UnansweredRequestHangs
  intro k
  induction k with
  | zero => exact fun s hw _ => ⟨s, rfl, rfl, hw, rfl, OperandsKept.refl s⟩
  | succ k ih =>
    intro s hw hq
    obtain ⟨t, hstep, heng, hcmd, hin, hops⟩ := step_quiet_keeps_flight hw hq
    have hwt : t.rngwait = true := by rwa [State.rngwait, heng]
    have hqt : ∀ e ∈ t.inputs, e.quiet := by
      rw [hin]
      exact fun e he => hq e (List.mem_of_mem_tail he)
    obtain ⟨u, hrun, hengu, hwu, hcmdu, hopsu⟩ := ih t hwt hqt
    exact ⟨u, (run_succ hstep k).trans hrun, hengu.trans heng, hwu, hcmdu.trans hcmd, .trans hops hopsu⟩

end Sys2Proof.Machine
end

section
/-! PROOFS. The invariant (Inv): reset meets it, and every event of a step keeps it. -/

namespace Sys2Proof.Machine

/-! ### What the invariant reads -/

/-- DrawInFlight reads the engine state, CMD, the curve registers and the scalar registers only. -/
theorem DrawInFlight.of_eq {s t : State} (h : DrawInFlight s) (heng : t.engine = s.engine) (hcmd : t.cmd = s.cmd)
    (hcurve : t.curve = s.curve) (hsreg : t.sreg = s.sreg) : DrawInFlight t := by
  cases s
  cases t
  subst heng hcmd hcurve hsreg
  exact h

theorem drawInFlight_idle {s : State} (h : s.engine = .idle) : DrawInFlight s := by
  simp [DrawInFlight, h]

theorem drawInFlight_ready {s : State} (h : s.engine = .busy .ready) : DrawInFlight s := by
  simp [DrawInFlight, h]

/-- The events to come and the last response are free. -/
theorem Inv.with_events {s : State} (h : Inv s) (rest : List Event) (r : Option BusResponse) :
    Inv { s with inputs := rest, response := r } where
  bufCanonical := h.bufCanonical
  codeAssigned := h.codeAssigned
  errHasCode := h.errHasCode
  resultHasNoCode := h.resultHasNoCode
  busyCleared := h.busyCleared
  drawInFlight := h.drawInFlight
  resetHeld := fun hr => by
    have hs := h.resetHeld hr
    rw [hs]

/-- A command in flight means that rst is released: asserted, it holds the engine in IDLE. -/
theorem Inv.released_of_busy {s : State} (h : Inv s) (hb : s.busy = true) : s.rst = false := by
  by_contra hr
  have hs := h.resetHeld (by simpa using hr)
  rw [hs] at hb
  cases hb

/-- The invariant of a state with the engine in IDLE and rst released. -/
theorem Inv.of_idle {t : State} (hidle : t.engine = .idle) (hr : t.rst = false) (hwf : Memory.wf t.buf)
    (hcode : t.errcode.toNat ≤ 8) (herr : t.err = true → t.errcode.toNat ≠ 0)
    (hres : t.result = true → t.errcode.toNat = 0) : Inv t where
  bufCanonical := hwf
  codeAssigned := hcode
  errHasCode := herr
  resultHasNoCode := hres
  busyCleared := fun hb => absurd hidle ((busy_iff t).1 hb)
  drawInFlight := drawInFlight_idle hidle
  resetHeld := fun h => absurd h (by simp [hr])

/-- A new progress of the command in flight keeps the invariant when it is one the command can have made. -/
theorem Inv.with_progress {s : State} (h : Inv s) (hb : s.busy = true) {p : Progress}
    (hd : DrawInFlight { s with engine := .busy p }) : Inv { s with engine := .busy p } where
  bufCanonical := h.bufCanonical
  codeAssigned := h.codeAssigned
  errHasCode := h.errHasCode
  resultHasNoCode := h.resultHasNoCode
  busyCleared := fun _ => h.busyCleared hb
  drawInFlight := hd
  resetHeld := fun hr => absurd hr (by simp [h.released_of_busy hb])

/-- Control bits that are written with rst released, DONE and ERR only cleared, keep the invariant (R24). -/
theorem Inv.with_control {s : State} (h : Inv s) (hr : s.rst = false) {done err : Bool}
    (hdone : done = true → s.done = true) (herr : err = true → s.err = true) (cmdovr wbusy irqEn : Bool) :
    Inv { s with done := done, err := err, cmdovr := cmdovr, wbusy := wbusy, irqEn := irqEn } where
  bufCanonical := h.bufCanonical
  codeAssigned := h.codeAssigned
  errHasCode := fun he => h.errHasCode (herr he)
  resultHasNoCode := h.resultHasNoCode
  busyCleared := fun hb => by
    obtain ⟨hd, he, hrest⟩ := h.busyCleared hb
    rw [← Bool.not_eq_true] at hd he ⊢
    rw [← Bool.not_eq_true]
    exact ⟨mt hdone hd, mt herr he, hrest⟩
  drawInFlight := h.drawInFlight
  resetHeld := fun h' => absurd h' (by simp [hr])

/-! ### Reset (R41, R149) -/

/-- The reset values meet the invariant, at either level of rst. -/
theorem inv_reset (level : Bool) (inputs : List Event) : Inv { State.reset with rst := level, inputs := inputs } where
  bufCanonical := wf_reset
  codeAssigned := by simp [State.reset]
  errHasCode := by simp [State.reset]
  resultHasNoCode := by simp [State.reset]
  busyCleared := fun hb => nomatch hb
  drawInFlight := drawInFlight_idle rfl
  resetHeld := fun hr => by
    obtain rfl : level = true := hr
    rfl

/-- Settles O8: reset is one of the states that hold the reset values. -/
theorem resetMeetsInvariant : Obligations.ResetMeetsInvariant := by
  unfold Obligations.ResetMeetsInvariant
  exact inv_reset false []

theorem driveReset_keeps_inv {s : State} (h : Inv s) (level : Bool) : Inv (driveReset level s) := by
  unfold driveReset
  split
  · exact inv_reset level s.inputs
  · exact h

/-! ### Accesses -/

/-- The host's write of an operand register writes no control register (R28 to R36). -/
theorem writeOperand_keeps_control (s : State) (t : Target) (v : Word) :
    ControlKept s (s.writeOperand t v) ∧ (s.writeOperand t v).engine = s.engine ∧ (s.writeOperand t v).done = s.done
      ∧ (s.writeOperand t v).err = s.err ∧ (s.writeOperand t v).result = s.result
      ∧ (s.writeOperand t v).errcode = s.errcode := by
  cases t <;> exact ⟨ControlKept.refl s, rfl, rfl, rfl, rfl, rfl⟩

/-- The host's write of an operand register keeps BUF canonical (R36). -/
theorem wf_writeOperand {s : State} (h : Memory.wf s.buf) (t : Target) (v : Word) :
    Memory.wf (s.writeOperand t v).buf := by
  cases t
  case buf k => exact wf_putBufWord h k v
  all_goals exact h

theorem writeOperand_keeps_inv {s : State} (h : Inv s) (hidle : s.engine = .idle) (hr : s.rst = false) (t : Target)
    (v : Word) : Inv (s.writeOperand t v) := by
  obtain ⟨⟨-, -, -, -, hrst, -⟩, heng, -, herr, hres, hcode⟩ := writeOperand_keeps_control s t v
  refine .of_idle (heng.trans hidle) (hrst.trans hr) (wf_writeOperand h.bufCanonical t v) ?_ ?_ ?_
  · rw [hcode]
    exact h.codeAssigned
  · rw [herr, hcode]
    exact h.errHasCode
  · rw [hres, hcode]
    exact h.resultHasNoCode

theorem accept_keeps_inv {s : State} (h : Inv s) (hr : s.rst = false) (w : Word) : Inv (accept w s) where
  bufCanonical := h.bufCanonical
  codeAssigned := by simp
  errHasCode := by simp
  resultHasNoCode := by simp
  busyCleared := fun _ => ⟨rfl, rfl, rfl, rfl⟩
  drawInFlight := drawInFlight_ready rfl
  resetHeld := fun h' => absurd h' (by simp [hr])

/-- Every write of the window, with rst released, keeps the invariant. -/
theorem writeWindow_keeps_inv {s : State} (h : Inv s) (hr : s.rst = false) (off : Nat) (v : Word) :
    Inv (s.writeWindow off v) := by
  unfold State.writeWindow
  split
  case h_4 => -- CMD
    unfold State.writeCmd
    split
    · exact h.with_control hr id id true s.wbusy s.irqEn
    · exact accept_keeps_inv h hr v
  case h_5 => -- STATUS
    exact h.with_control hr Bool.and_elim_left Bool.and_elim_left _ _ s.irqEn
  case h_6 => exact h.with_control hr id id s.cmdovr s.wbusy _ -- IRQ_EN
  case h_7 => -- the held offsets
    split
    · unfold State.dropWrite
      split
      · exact h
      · exact h.with_control hr id id s.cmdovr true s.irqEn
    · next hb => exact writeOperand_keeps_inv h (by simpa [busy_iff] using hb) hr _ v
  all_goals exact h

theorem hostRead_keeps_inv {s : State} (h : Inv s) (off : Offset) (w : AccessWidth) : Inv (hostRead off w s) := by
  obtain ⟨r, hread⟩ := hostRead_cases off w s
  rw [hread]
  exact h.with_events s.inputs (some r)

theorem hostWrite_keeps_inv {s : State} (h : Inv s) (off : Offset) (w : AccessWidth) (v : Word) :
    Inv (hostWrite off w v s) := by
  obtain ⟨r, hwrite⟩ | ⟨-, -, hr, hwrite⟩ := hostWrite_cases off w v s <;> rw [hwrite]
  · exact h.with_events s.inputs (some r)
  · exact (writeWindow_keeps_inv h hr off.toNat v).with_events _ (some .ack)

/-! ### The random-number port (R39) -/

/-- The answer is kept beside the bytes drawn before it. -/
theorem rngAnswer_keeps_inv {s : State} (h : Inv s) (a : RngAnswer) : Inv (rngAnswer a s) := by
  by_cases hw : s.rngwait = true
  · obtain ⟨drawn, he⟩ := (rngwait_iff s).1 hw
    have hd := h.drawInFlight
    rw [rngAnswer_waiting he]
    simp only [DrawInFlight, he] at hd
    exact h.with_progress ((busy_iff s).2 (by simp [he])) hd
  · rwa [rngAnswer_not_waiting (by simpa using hw)]

/-! ### Turns of the engine (R133) -/

theorem completeError_keeps_inv {s : State} (h : Inv s) (hr : s.rst = false) (e : ErrorKind) :
    Inv (completeError e s) := by
  obtain ⟨hlow, hhigh⟩ := e.code_range
  exact .of_idle rfl hr h.bufCanonical hhigh (fun _ => Nat.pos_iff_ne_zero.1 hlow) (fun hres => nomatch hres)

theorem completeOk_keeps_inv {s : State} (h : Inv s) (hr : s.rst = false) {ws : List Write} (b : Bool)
    (hbuf : ∀ bs, Write.buffer bs ∈ ws → bs.length ≤ Config.bufBytes) : Inv (completeOk ws b s) := by
  obtain ⟨-, -, -, -, hrst, -⟩ := applyWrites_control ws s
  exact .of_idle rfl (hrst.trans hr) (applyWrites_wf hbuf h.bufCanonical) (by simp) (by simp) (by simp)

/-- A request of a turn that did not wait before leaves less than a whole draw, for a command that may draw (R39). -/
theorem drawInFlight_raiseRequest {s : State} {p : Progress} {i : Instr} {drawn : List Byte} (he : s.engine = .busy p)
    (hp : ∀ d, p ≠ .waiting d) (hi : decode s.cmd = .ok i) (ha : (Effect.wait drawn).Allowed i s) :
    DrawInFlight (raiseRequest drawn s) := by
  obtain ⟨hok, hlen, hdraws⟩ := ha
  have hlen : drawn.length < s.cw := hlen fun d hd => by
    rw [State.progress, he] at hd
    exact absurd hd (hp d)
  refine ⟨hok, hlen, ?_⟩
  rw [raiseRequest_cmd, hi]
  rcases hdraws with ⟨d, rfl⟩ | ⟨r, sd, hreg, key, rfl, hkey⟩
  · trivial
  · exact hkey

theorem engineTurn_keeps_inv {s t : State} (h : Inv s) (ht : engineTurn s = .next t) : Inv t := by
  rcases engineTurn_cases s with ⟨hs, -⟩ | ⟨p, -, he, -, -, hs⟩ | ⟨p, i, e, he, hp, hi, hs, ha⟩ <;>
    obtain rfl := Host.Outcome.next.inj (ht.symm.trans hs)
  · exact h
  · have hr := h.released_of_busy ((busy_iff s).2 (by simp [he]))
    exact completeError_keeps_inv h hr .illegalCommand
  · have hb : s.busy = true := (busy_iff s).2 (by simp [he])
    have hr := h.released_of_busy hb
    cases e with
    | ok ws b =>
      obtain ⟨-, hbuf, -⟩ := ha
      exact completeOk_keeps_inv h hr b hbuf
    | error k => exact completeError_keeps_inv h hr k
    | wait drawn => exact h.with_progress hb (drawInFlight_raiseRequest he hp hi ha)

/-! ### Every step -/

theorem handle_keeps_inv {e : Event} {s t : State} (h : Inv s) (ht : handle e s = .next t) : Inv t := by
  cases e with
  | read off w => exact Host.Outcome.next.inj ht ▸ hostRead_keeps_inv h off w
  | write off w v => exact Host.Outcome.next.inj ht ▸ hostWrite_keeps_inv h off w v
  | rng a => exact Host.Outcome.next.inj ht ▸ rngAnswer_keeps_inv h a
  | rngWithdrawn a => exact Host.Outcome.next.inj ht ▸ h
  | rst level => exact Host.Outcome.next.inj ht ▸ driveReset_keeps_inv h level
  | engine => exact engineTurn_keeps_inv h ht

/-- Settles O9: the step's event keeps the invariant, or the turn taken when there is none. -/
theorem everyStepKeepsInvariant : Obligations.EveryStepKeepsInvariant := by
  unfold Obligations.EveryStepKeepsInvariant
  intro s t h ht
  cases hin : s.inputs with
  | nil => exact engineTurn_keeps_inv (h.with_events s.inputs none) ((step_nil hin).symm.trans ht)
  | cons e rest => exact handle_keeps_inv (h.with_events rest none) ((step_cons hin).symm.trans ht)

end Sys2Proof.Machine
end

section
/-! PROOFS. The window of an IDLE core (R21 to R36): what stands at each offset, big-endian, and what the write of one
word leaves of every word. -/

namespace Sys2Proof.Machine

/-! ### Offsets and targets (R21) -/

theorem curveBlock_curveIndex (name : CurveName) : curveBlock (curveIndex name) = name := by cases name <;> rfl

theorem curveIndex_lt (name : CurveName) : curveIndex name < 6 := by cases name <;> decide

/-- The map finds each target at its offset. -/
theorem target_offsetOfTarget {t : Target} (ht : t ≠ .reserved) : target (offsetOfTarget t) = t := by
  generalize hoff : offsetOfTarget t = off
  cases t
  case reserved => exact absurd rfl ht
  case curve name k =>
    have hn := curveIndex_lt name
    simp only [offsetOfTarget] at hoff
    have hblock : (off - 0x100) / 0x40 = curveIndex name := by omega
    have hword : off % 0x40 / 4 = k.val := by omega
    simp (disch := omega) only [target, if_neg, if_pos, hblock, hword, curveBlock_curveIndex, Fin.ofNat_val_eq_self]
  case scalar | buf | pointX | pointY | pointTag =>
    simp only [offsetOfTarget] at hoff
    simp (disch := omega) only [target, pointTarget, if_neg, if_pos, Target.scalar.injEq, Target.buf.injEq,
      Target.pointX.injEq, Target.pointY.injEq, Target.pointTag.injEq, Fin.ext_iff, Fin.val_ofNat]
    omega
  all_goals exact hoff ▸ rfl

/-- Two offsets name one target only where it is the reserved one. -/
theorem target_eq_imp {off off' : Nat} (h4 : off % 4 = 0) (hb : off < 0x2000) (h4' : off' % 4 = 0) (hb' : off' < 0x2000)
    (h : target off' = target off) : off' = off ∨ target off = .reserved := by
  rcases offsetOfTarget_target h4 hb with hres | hoff
  · exact .inr hres
  · rcases offsetOfTarget_target h4' hb' with hres | hoff'
    · exact .inr (h.symm.trans hres)
    · exact .inl (by rw [← hoff', h, hoff])

/-- In IDLE no offset is hidden (R158). -/
theorem readWindow_idle {s : State} (h : s.engine = .idle) (off : Nat) :
    s.readWindow off = s.readTarget (target off) := by
  simp [State.readWindow, State.busy, h]

/-- In IDLE a target is read at its offset. -/
theorem readWindow_offsetOfTarget {s : State} (h : s.engine = .idle) {t : Target} (ht : t ≠ .reserved) :
    s.readWindow (offsetOfTarget t) = s.readTarget t := by
  rw [readWindow_idle h, target_offsetOfTarget ht]

/-- A reserved offset stands from 0x0018 up, and names the reserved target. -/
theorem target_of_reservedOffset {off : Nat} (h4 : off % 4 = 0) (hb : off < 0x2000) (h : ReservedOffset off) :
    target off = .reserved := by
  refine (target_held h4 ?_ hb).2.2 h
  unfold ReservedOffset at h
  omega

/-! ### The window is big-endian (R33, R36, R50) -/

/-- A byte laid below a word shifts it by 256. -/
theorem toNat_append_byte {n : Nat} (x : BitVec n) (y : Byte) : (x ++ y).toNat = x.toNat * 256 + y.toNat := by
  rw [BitVec.toNat_append, ← Nat.shiftLeft_add_eq_or_of_lt y.isLt, Nat.shiftLeft_eq]

/-- Word `k` of BUF as a number (R36). -/
theorem getBufWord_toNat (m : Memory) (k : Fin 32) :
    (getBufWord m k).toNat
      = ((Memory.read m (4 * k.val)).toNat * 256 + (Memory.read m (4 * k.val + 1)).toNat) * 2 ^ 16
        + (Memory.read m (4 * k.val + 2)).toNat * 256 + (Memory.read m (4 * k.val + 3)).toNat := by
  rw [getBufWord, toNat_append_byte, toNat_append_byte, toNat_append_byte]
  ring

/-- A byte register shows its value. -/
theorem toNat_setWidth_byte (x : Byte) : (x.setWidth 32).toNat = x.toNat := by
  have := x.isLt
  rw [BitVec.toNat_setWidth]
  omega

/-- Settles O20: in IDLE each target is read at its offset, and each kind of word is known as a number. -/
theorem windowIsBigEndian : Obligations.WindowIsBigEndian := by
  unfold Obligations.WindowIsBigEndian
  refine ⟨fun s off rest h hr ha => step_performed_read h hr ha, fun s off hidle ha hres => ?_,
    fun s i k hidle hi hk => ?_⟩
  · rw [readWindow_idle hidle, target_of_reservedOffset ha off.isLt hres]
    rfl
  · obtain ⟨i, rfl⟩ : ∃ i' : Fin 16, i = i'.val := ⟨⟨i, hi⟩, rfl⟩
    obtain ⟨k, rfl⟩ : ∃ k' : Fin 16, k = k'.val := ⟨⟨k, hk⟩, rfl⟩
    simp only [Fin.ofNat_val_eq_self]
    have shows {t : Target} (ht : t ≠ .reserved) {n : Nat} (hn : (s.readTarget t).toNat = n) :
        (s.readWindow (offsetOfTarget t)).toNat = n := by rw [readWindow_offsetOfTarget hidle ht, hn]
    refine ⟨shows (t := .scalar i k) nofun (getWord_toNat ..), shows (t := .pointX i k) nofun (getWord_toNat ..),
      shows (t := .pointY i k) nofun (getWord_toNat ..), shows (t := .pointTag i) nofun ?_,
      shows (t := .curve .p k) nofun (getWord_toNat ..), shows (t := .curve .n k) nofun (getWord_toNat ..),
      shows (t := .curve .a k) nofun (getWord_toNat ..), shows (t := .curve .b k) nofun (getWord_toNat ..),
      shows (t := .curve .gx k) nofun (getWord_toNat ..), shows (t := .curve .gy k) nofun (getWord_toNat ..),
      shows (t := .buflen) nofun (toNat_setWidth_byte _), shows (t := .curveCw) nofun (toNat_setWidth_byte _),
      fun j hj => shows (t := .buf ⟨j, hj⟩) nofun (getBufWord_toNat ..)⟩
    exact (toNat_bitAt _ (by decide)).trans (one_mul _)

/-! ### The bits of a word that the host may write (R22, R28 to R36) -/

/-- The bits of a target that the host may write. -/
def Target.writable : Target → Word
  | .buflen | .curveCw => 0xFF
  | .curve _ _ | .scalar _ _ | .buf _ | .pointX _ _ | .pointY _ _ => 0xFFFFFFFF
  | .pointTag _ => 1
  | .id | .version | .cmd | .status | .errcode | .irqEn | .reserved => 0

/-- The bits the map names at an offset are those of its target. -/
theorem writableBits_eq {off : Nat} (h4 : off % 4 = 0) (h18 : 0x18 ≤ off) (hb : off < 0x2000) :
    writableBits off = (target off).writable := by
  rcases offsetOfTarget_target h4 hb with hres | hoff
  · have hro := (target_held h4 h18 hb).2.1 hres
    rw [hres]
    unfold ReservedOffset at hro
    unfold writableBits
    split_ifs
    · omega
    · rfl
    · omega
    · rfl
    · omega
    · rfl
    · omega
    · omega
    · rfl
  · generalize target off = t at hoff ⊢
    cases t
    case curve name k =>
      have hn := curveIndex_lt name
      simp only [offsetOfTarget] at hoff
      simp (disch := omega) only [writableBits, if_pos, if_neg, Target.writable]
    case buflen | curveCw => exact hoff ▸ rfl
    all_goals
      simp only [offsetOfTarget] at hoff
      simp (disch := omega) only [writableBits, if_pos, if_neg, Target.writable] <;> omega

/-! ### The write of one word (R22, R33 to R36) -/

/-- The low byte of a word. -/
theorem setWidth_extractLsb'_low_byte (v : Word) : (v.extractLsb' 0 8).setWidth 32 = v &&& 0xFF := by
  apply BitVec.eq_of_toNat_eq
  rw [toNat_setWidth_byte, BitVec.toNat_and, BitVec.extractLsb'_toNat, Nat.shiftRight_zero]
  exact (Nat.and_two_pow_sub_one_eq_mod v.toNat 8).symm

theorem and_allBits (v : Word) : v &&& 0xFFFFFFFF = v := BitVec.and_allOnes

/-- The low bit of a word. -/
theorem bitAt_low_bit (v : Word) : bitAt (v.getLsbD 0) 0 = v &&& 1 := by
  apply BitVec.eq_of_toNat_eq
  rw [toNat_bitAt _ (by decide), BitVec.toNat_and, BitVec.getLsbD, Nat.toNat_testBit]
  simp

theorem get_put (c : CurveRegs) (name name' : CurveName) (v : Reg) :
    (c.put name v).get name' = if name' = name then v else c.get name' := by
  cases name <;> cases name' <;> rfl

/-- What a register file shows of each register, when a write keeps that of the register it writes. -/
theorem view_get_set {α β : Type} (view : α → β) (v : Vector α 16) (i j : Fin 16) {x : α}
    (h : j = i → view x = view (v.get i)) : view ((v.set i.val x).get j) = view (v.get j) := by
  rw [get_set]
  split
  · next e => rw [h e, e]
  · rfl

/-- A write reads back in the target's writable bits. -/
theorem readTarget_writeOperand_same {s : State} (hwf : Memory.wf s.buf) {t : Target} (ht : t.held = true) (v : Word) :
    (s.writeOperand t v).readTarget t = v &&& t.writable := by
  cases t
  case buflen | curveCw => exact setWidth_extractLsb'_low_byte v
  case curve | scalar | pointX | pointY =>
    rw [Target.writable, and_allBits]
    simp [State.readTarget, State.writeOperand, get_put]
  case buf k =>
    rw [Target.writable, and_allBits]
    exact (getBufWord_putBufWord hwf k k v).trans (if_pos rfl)
  case pointTag i => simpa [State.readTarget, State.writeOperand, Target.writable] using bitAt_low_bit v
  case reserved => exact BitVec.and_zero.symm
  all_goals cases ht

/-- A write leaves every other target as it was. -/
theorem readTarget_writeOperand_other {s : State} (hwf : Memory.wf s.buf) {t t' : Target} (h : t' ≠ t) (v : Word) :
    (s.writeOperand t v).readTarget t' = s.readTarget t' := by
  cases t with
  | buflen => cases t' with
    | buflen => exact absurd rfl h
    | _ => rfl
  | curveCw => cases t' with
    | curveCw => exact absurd rfl h
    | _ => rfl
  | curve name k => cases t' with
    | curve name' l =>
      simp only [State.readTarget, State.writeOperand, get_put]
      split
      · next e =>
        subst e
        exact getWord_putWord_other _ v fun e => h (by rw [e])
      · rfl
    | curveCw => cases name <;> rfl
    | _ => rfl
  | scalar i k => cases t' with
    | scalar j l =>
      refine view_get_set (getWord · l) s.sreg i j fun e => ?_
      exact getWord_putWord_other _ v fun e' => h (by rw [e, e'])
    | _ => rfl
  | buf k => cases t' with
    | buf l => exact (getBufWord_putBufWord hwf k l v).trans (if_neg fun e => h (by rw [e]))
    | _ => rfl
  | pointX i k => cases t' with
    | pointX j l =>
      refine view_get_set (fun r => getWord r.x l) s.pt i j fun e => ?_
      exact getWord_putWord_other _ v fun e' => h (by rw [e, e'])
    | pointY j l => refine view_get_set (fun r => getWord r.y l) s.pt i j fun _ => ?_; rfl
    | pointTag j => refine congrArg (bitAt · 0) (view_get_set PointReg.inf s.pt i j fun _ => ?_); rfl
    | _ => rfl
  | pointY i k => cases t' with
    | pointX j l => refine view_get_set (fun r => getWord r.x l) s.pt i j fun _ => ?_; rfl
    | pointY j l =>
      refine view_get_set (fun r => getWord r.y l) s.pt i j fun e => ?_
      exact getWord_putWord_other _ v fun e' => h (by rw [e, e'])
    | pointTag j => refine congrArg (bitAt · 0) (view_get_set PointReg.inf s.pt i j fun _ => ?_); rfl
    | _ => rfl
  | pointTag i => cases t' with
    | pointX j l => refine view_get_set (fun r => getWord r.x l) s.pt i j fun _ => ?_; rfl
    | pointY j l => refine view_get_set (fun r => getWord r.y l) s.pt i j fun _ => ?_; rfl
    | pointTag j => exact congrArg (bitAt · 0) (view_get_set PointReg.inf s.pt i j fun e => absurd (by rw [e]) h)
    | _ => rfl
  | _ => rfl

/-- A write from 0x0018 up to an IDLE core writes the operand register there (R22). -/
theorem writeWindow_idle {s : State} (h : s.engine = .idle) {off : Nat} (ht : (target off).held = true) (v : Word) :
    s.writeWindow off v = s.writeOperand (target off) v := by
  have hb : s.busy = false := by simp [State.busy, h]
  unfold State.writeWindow
  split
  case h_7 => exact if_neg (by simp [hb])
  all_goals next hname => simp [hname, Target.held] at ht

/-- The whole window after the write of one word to an IDLE core. -/
theorem readWindow_writeOperand {s : State} (h : s.engine = .idle) (hwf : Memory.wf s.buf) {off : Nat}
    (h4 : off % 4 = 0) (h18 : 0x18 ≤ off) (hb : off < 0x2000) (v : Word) {off' : Nat} (h4' : off' % 4 = 0)
    (hb' : off' < 0x2000) :
    (s.writeOperand (target off) v).readWindow off'
      = if off' = off then v &&& writableBits off else s.readWindow off' := by
  obtain ⟨-, heng, -⟩ := writeOperand_keeps_control s (target off) v
  rw [readWindow_idle (heng.trans h), readWindow_idle h]
  split
  · next e =>
    rw [e, writableBits_eq h4 h18 hb]
    exact readTarget_writeOperand_same hwf (target_held h4 h18 hb).1 v
  · next hne =>
    by_cases ht : target off' = target off
    · have hres := (target_eq_imp h4 hb h4' hb' ht).resolve_left hne
      rw [ht, hres]
      rfl
    · exact readTarget_writeOperand_other hwf ht v

/-- Settles O19: the write changes one target, and no two offsets share one that can be written. -/
theorem windowReadsBackWhatWasWritten : Obligations.WindowReadsBackWhatWasWritten := by
  unfold Obligations.WindowReadsBackWhatWasWritten
  intro s off v rest h hr hidle ha h18 hwf
  have hheld := (target_held ha h18 off.isLt).1
  have hread {off' : Nat} (h4' : off' % 4 = 0) (hb' : off' < 0x2000) :=
    readWindow_writeOperand (s := { s with inputs := rest, response := none }) hidle hwf ha h18 off.isLt v h4' hb'
  obtain ⟨⟨-, -, -, -, hrst, hin, -⟩, heng, hdone, herr, hres, hcode⟩ :=
    writeOperand_keeps_control { s with inputs := rest, response := none } (target off.toNat) v
  refine ⟨_, step_performed_write h hr ha, ?_⟩
  rw [writeWindow_idle (s := { s with inputs := rest, response := none }) hidle hheld]
  refine ⟨(hread ha off.isLt).trans (if_pos rfl), fun off' ha' hne => ?_, heng.trans hidle, hdone, herr, hres, hcode,
    hrst, hin, rfl⟩
  exact (hread ha' off'.isLt).trans (if_neg fun e => hne (BitVec.eq_of_toNat_eq e))

end Sys2Proof.Machine
end

section
/-! PROOFS. Reset (R41, R149, R150), curve_ok (R31) and the presets that establish it (R91, R92). -/

namespace Sys2Proof.Machine

/-! ### CURVE_SEL (R91, R92) -/

/-- CURVE_SEL's meaning: it commits the write of the preset and does not read curve_ok. -/
theorem exec_curveSel (s : State) (id : Preset) :
    exec (.curveSel id) s = .next (completeOk [.curve (presetCurve id)] false s) := rfl

/-- The constants of R92 have 256 bits, so the 512-bit registers hold them in full. -/
theorem mod_two_pow_512 {n : Nat} (h : n < 2 ^ 256) : n % 2 ^ 512 = n :=
  Nat.mod_eq_of_lt (h.trans_le (Nat.pow_le_pow_right (by decide) (by decide)))

theorem completeOk_curve_write (c : CurveRegs) (b : Bool) (s : State) : (completeOk [.curve c] b s).curve = c := rfl

/-- Both presets meet R31. -/
theorem curveOk_of_preset {t : State} {id : Preset} (h : t.curve = presetCurve id) : t.curveOk = true := by
  rw [curveOk_iff, cw_eq, p_eq, n_eq, h]
  cases id <;> simp [presetCurve, mod_two_pow_512]

/-- Of CURVE_SEL's ids only 0 and 1 are legal (R73 (e)). -/
theorem decode_refuses_presetId {id : Fin 16} (h : 2 ≤ id.val) :
    ∃ e, decode (wordOf 0x01 id 0 0 0 false) = .error e := by
  rw [decode_wordOf, decodeFields_refuses]
  simp [IllegalFields, h]

/-- Settles O32: the words by their layout, the registers by the write of the preset, whose constants are evaluated. -/
theorem curveSelLoadsThePreset : Obligations.CurveSelLoadsThePreset := by
  unfold Obligations.CurveSelLoadsThePreset
  refine ⟨toNat_wordOf .., toNat_wordOf .., fun id => decode_refuses_presetId, fun s id =>
    ⟨_, exec_curveSel s id, completeOk_spec _ false s, ScalarsKept.refl s, PointsKept.refl s, BufferKept.refl s, ?_⟩⟩
  rw [completeOk_curve_write]
  cases id <;> simp [presetCurve, mod_two_pow_512]

/-! ### Without curve_ok (R31) -/

/-- Every legal command but NOP, CURVE_SEL and the three predicates is under the frame of a constructive command. -/
theorem raises_of_not_curveOk {s : State} {i : Instr} (hok : s.curveOk = false) (hwf : i.WellFormed) (hnop : i ≠ .nop)
    (hsel : ∀ id, i ≠ .curveSel id) (hschk : ∀ a, i ≠ .schk a) (hpchk : ∀ a, i ≠ .pchk a)
    (hpkchk : ∀ a, i ≠ .pkchk a) : Raises i 7 s := by
  cases i
  case nop => exact absurd rfl hnop
  case curveSel id => exact absurd rfl (hsel id)
  case schk a => exact absurd rfl (hschk a)
  case pchk a => exact absurd rfl (hpchk a)
  case pkchk a => exact absurd rfl (hpkchk a)
  case sign r sd h key =>
    exact raises_curveConfig (congrArg (fun e => Host.Outcome.next (commit e s)) (if_neg (wellFormed_sign.1 hwf))) hok
  all_goals exact raises_curveConfig rfl hok

/-- Without curve_ok a predicate completes with RESULT = 0. -/
theorem predicate_of_not_curveOk {s : State} {i : Instr} {test : Bool} (hok : s.curveOk = false)
    (hx : exec i s = .next (commit (predicate s test) s)) :
    ∃ t, exec i s = .next t ∧ CompletedOk false s t ∧ OperandsKept s t := by
  obtain ⟨t, b, ht, hc, hk, hb⟩ := predicate_completes hx Iff.rfl
  obtain rfl : b = false := by
    rw [← Bool.not_eq_true, hb, hok]
    simp
  exact ⟨t, ht, hc, hk⟩

/-- Settles O21: curve_ok as R31 has it, the two frames without it, and the presets. -/
theorem curveOkGuardsEveryCommand : Obligations.CurveOkGuardsEveryCommand := by
  unfold Obligations.CurveOkGuardsEveryCommand
  refine ⟨curveOk_iff, fun s i hok hwf hnop hsel => ⟨?_, fun hpred => ?_⟩, fun s t id h => ?_⟩
  · rintro ⟨a, rfl | rfl | rfl⟩ <;> exact predicate_of_not_curveOk hok rfl
  · obtain ⟨hschk, hpchk, hpkchk⟩ : (∀ a, i ≠ .schk a) ∧ (∀ a, i ≠ .pchk a) ∧ ∀ a, i ≠ .pkchk a := by
      simpa only [forall_and] using hpred
    exact raises_of_not_curveOk hok hwf hnop hsel hschk hpchk hpkchk
  · obtain rfl := Host.Outcome.next.inj ((exec_curveSel s id).symm.trans h)
    exact curveOk_of_preset rfl

/-! ### The reset values (R41, R149) -/

/-- While rst is asserted, and on its release, the state takes its reset values (R149). -/
theorem driveReset_acts {level : Bool} {s : State} (h : level = true ∨ s.rst = true) :
    driveReset level s = { State.reset with rst := level, inputs := s.inputs } := by
  rw [driveReset, if_pos]
  simpa using h

theorem sreg_reset (j : SReg) : State.reset.sreg.get j = 0#512 := get_replicate _ j

theorem pt_reset (j : PReg) : State.reset.pt.get j = { inf := false, x := 0#512, y := 0#512 } := get_replicate _ j

theorem readS_reset (j : SReg) : State.reset.readS j = 0 := by
  rw [State.readS, sreg_reset, BitVec.toNat_zero]

theorem readPT_reset (j : PReg) : State.reset.readPT j = .aff 0 0 := by
  rw [State.readPT, pt_reset]
  simp [pointOf]

theorem generator_reset : State.reset.generator = .aff 0 0 := by simp [State.generator, State.reset]

theorem statusWord_reset : State.reset.statusWord = 0 := by decide

/-- Settles O10: the reset state field by field; with rst asserted no performed access reaches the window. -/
theorem resetTakesPrecedence : Obligations.ResetTakesPrecedence := by
  unfold Obligations.ResetTakesPrecedence
  refine ⟨fun s level rest h hr => ⟨_, (step_rst h).trans (congrArg _ (driveReset_acts hr)), ?_⟩,
    fun s off rest h hr ha => ?_, fun s off v rest h hr ha => ?_, fun s a rest => step_rngWithdrawn,
    fun s a rest => step_rng_unasked⟩
  · exact ⟨rfl, rfl, rfl, congrArg BitVec.toNat statusWord_reset, rfl, rfl, rfl, rfl, rfl, rfl, rfl, BitVec.toNat_zero,
      BitVec.toNat_zero, BitVec.toNat_zero, BitVec.toNat_zero, generator_reset, readS_reset, readPT_reset, fun _ => rfl,
      rfl, rfl, rfl⟩
  · rw [step_read h, hostRead, hostAccess_legal ha]
    simp only [performRead, hr, if_true]
  · rw [step_write h, hostWrite, hostAccess_legal ha]
    simp only [performWrite, hr, if_true]

/-! ### The window after reset (R150) -/

theorem getWord_zero (k : Fin 16) : getWord 0#512 k = 0 := by simp [getWord]

/-- After reset every register but ID and VERSION shows 0. -/
theorem readTarget_reset {t : Target} (hid : t ≠ .id) (hversion : t ≠ .version) : State.reset.readTarget t = 0 := by
  cases t
  case id => exact absurd rfl hid
  case version => exact absurd rfl hversion
  case status => exact statusWord_reset
  case curve name k => cases name <;> exact getWord_zero k
  case scalar i k => rw [State.readTarget, sreg_reset, getWord_zero]
  case pointX i k | pointY i k => simp only [State.readTarget, pt_reset, getWord_zero]
  case pointTag i =>
    rw [State.readTarget, pt_reset]
    rfl
  case buf k => simp [State.readTarget, State.reset, getBufWord, Memory.read]
  all_goals rfl

theorem readWindow_reset {off : Nat} (hb : off < 0x2000) (h4 : off % 4 = 0) :
    State.reset.readWindow off = if off = 0 then 0x45434453 else if off = 4 then 1 else 0 := by
  split_ifs with h0 h1
  · exact h0 ▸ readWindow_id State.reset
  · exact h1 ▸ readWindow_version State.reset
  · have hoff := offsetOfTarget_target h4 hb
    rw [readWindow_idle rfl]
    refine readTarget_reset (fun h => ?_) fun h => ?_
    · rw [h] at hoff
      exact absurd hoff (by simpa [offsetOfTarget] using Ne.symm h0)
    · rw [h] at hoff
      exact absurd hoff (by simpa [offsetOfTarget] using Ne.symm h1)

/-- Settles O11: the reset window target by target, and curve_ok false of the reset curve. -/
theorem nothingIsConfiguredAfterReset : Obligations.NothingIsConfiguredAfterReset := by
  unfold Obligations.NothingIsConfiguredAfterReset
  have hok : State.reset.curveOk = false := rfl
  refine ⟨fun off => readWindow_reset, readPT_reset, rfl, fun i => raises_of_not_curveOk hok, fun a i hi => ?_, ?_,
    fun id => ?_⟩
  · have hpred : ∃ t, exec i State.reset = .next t ∧ CompletedOk false State.reset t ∧ OperandsKept State.reset t := by
      simp only [List.mem_cons, List.not_mem_nil, or_false] at hi
      rcases hi with rfl | rfl | rfl <;> exact predicate_of_not_curveOk hok rfl
    obtain ⟨t, ht, hc, -⟩ := hpred
    exact ⟨t, ht, hc⟩
  · exact ⟨_, exec_nop_completes _, completeOk_spec [] false _⟩
  · exact ⟨_, exec_curveSel _ id, completeOk_spec _ false _, curveOk_of_preset rfl⟩

end Sys2Proof.Machine
end

section
/-! PROOFS. The modular inverse (R12) and the errors of the point units (R110): for a prime modulus every value that is
not 0 is invertible. -/

namespace Sys2Proof.Machine

/-! ### The inverse (R12) -/

/-- With a prime modulus every value that is not 0 is invertible. -/
theorem gcd_eq_one_of_prime {p u : Nat} (hp : p.Prime) (hu : u % p ≠ 0) : Nat.gcd (u % p) p = 1 := by
  rw [gcd_mod_left]
  exact ((hp.coprime_iff_not_dvd).2 fun hd => hu (Nat.mod_eq_zero_of_dvd hd)).symm

/-- Fermat's power is an inverse. -/
theorem mul_pow_sub_two_mod {p a : Nat} (hp : p.Prime) (ha : a % p ≠ 0) : a * ((a % p) ^ (p - 2) % p) % p = 1 := by
  have hcop : a.Coprime p := by rw [Nat.Coprime, ← gcd_mod_left]; exact gcd_eq_one_of_prime hp ha
  have hfermat : a ^ (p - 1) ≡ 1 [MOD p] := Nat.totient_prime hp ▸ Nat.ModEq.pow_totient hcop
  have hp2 := hp.two_le
  have hexp : p - 1 = p - 2 + 1 := by omega
  calc a * ((a % p) ^ (p - 2) % p) % p
      = a ^ (p - 1) % p := by rw [← Nat.pow_mod, Nat.mul_mod_mod, hexp, pow_succ']
    _ = 1 := by rw [hfermat, Nat.mod_eq_of_lt hp.one_lt]

/-- Settles O37: an inverse below m is the inverse, and for a prime m Fermat's power is one. -/
theorem inverseIsUniqueAndFermat : Obligations.InverseIsUniqueAndFermat := by
  unfold Obligations.InverseIsUniqueAndFermat
  refine ⟨fun a m x hm hg => ⟨fun ⟨_, hx, hmul⟩ => inverse_unique hm hx hmul, ?_⟩, fun a p hp ha => ?_⟩
  · rintro rfl
    exact inverse_spec hm hg
  · exact (inverse_unique hp.two_le (Nat.mod_lt _ hp.pos) (mul_pow_sub_two_mod hp ha)).symm

/-! ### The errors of pdbl and padd (R110) -/

/-- pdbl fails exactly when y is not 0 and 2y is not invertible. -/
theorem pdbl_error_iff {p a : Nat} {q : Point} {e : ErrorKind} (hp : 0 < p) :
    pdbl p a q = .error e ↔ e = .arithmetic ∧ ∃ px py, q = .aff px py ∧ py % p ≠ 0 ∧ Nat.gcd (2 * py % p) p ≠ 1 := by
  constructor
  · intro h
    refine ⟨pdbl_error_kind h, ?_⟩
    cases q with
    | inf => cases h
    | aff px py =>
      refine ⟨px, py, rfl, fun hy => ?_, fun hg => ?_⟩
      · cases (pdbl_of_y_zero hy).symm.trans h
      · by_cases hy : py % p = 0
        · cases (pdbl_of_y_zero hy).symm.trans h
        · cases (pdbl_tangent hp hy hg).symm.trans h
  · rintro ⟨rfl, px, py, rfl, hy, hg⟩
    exact pdbl_of_not_invertible hy hg

/-- The three ways two affine points fail to add (R110): equal x with y neither equal nor opposite, a difference of x
with no inverse, and equal points whose doubling fails. -/
def AdditionFails (p px py qx qy : Nat) : Prop :=
  (px % p = qx % p ∧ py % p ≠ qy % p ∧ (py + qy) % p ≠ 0)
    ∨ (px % p ≠ qx % p ∧ Nat.gcd ((qx + (p - px % p)) % p) p ≠ 1)
    ∨ (px % p = qx % p ∧ py % p = qy % p ∧ (py + qy) % p ≠ 0 ∧ Nat.gcd (2 * py % p) p ≠ 1)

/-- Of equal points the sum of the y is 2y. -/
theorem mod_ne_zero_of_equal {p py qy : Nat} (hy : py % p = qy % p) (hs : (py + qy) % p ≠ 0) : py % p ≠ 0 := by
  intro h0
  exact hs (by rw [Nat.add_mod, ← hy, h0, Nat.add_zero, Nat.zero_mod])

/-- padd of affine points fails exactly so, through padd's tests in order. -/
theorem padd_affine_error_iff {p a px py qx qy : Nat} {e : ErrorKind} (hp : 2 ≤ p) :
    padd p a (.aff px py) (.aff qx qy) = .error e ↔ e = .arithmetic ∧ AdditionFails p px py qx qy := by
  have h0 : 0 < p := by omega
  unfold AdditionFails
  by_cases hx : px % p = qx % p
  · by_cases hs : (py + qy) % p = 0
    · simp [padd_of_opposite h0 hx hs, hx, hs]
    by_cases hy : py % p = qy % p
    · have hne : qy % p ≠ 0 := hy ▸ mod_ne_zero_of_equal hy hs
      rw [padd_of_equal h0 hx hy hs, pdbl_error_iff h0]
      simp [hx, hy, hs, hne]
    · rw [padd_of_not_invertible h0 (fun h => hs h.2) (fun h => hy h.2) (gcd_sub_ne_one_of_eq hp hx)]
      simp [hx, hs, hy, eq_comm]
  · by_cases hg : Nat.gcd ((qx + (p - px % p)) % p) p = 1
    · simp [padd_secant h0 hx hg, hx, hg]
    · rw [padd_of_not_invertible h0 (fun h => hx h.1) (fun h => hx h.1) hg]
      simp [hx, hg, eq_comm]

/-- For an odd prime 2y is 0 only where y is. -/
theorem two_mul_mod_ne_zero {p py : Nat} (hp : p.Prime) (h2 : p ≠ 2) (hy : py % p ≠ 0) : 2 * py % p ≠ 0 := by
  intro h
  rcases hp.dvd_mul.1 (Nat.dvd_of_mod_eq_zero h) with h | h
  · exact h2 ((Nat.prime_dvd_prime_iff_eq hp Nat.prime_two).1 h)
  · exact hy (Nat.mod_eq_zero_of_dvd h)

/-- The difference of x that differ is not 0. -/
theorem sub_mod_ne_zero {p px qx : Nat} (hp : 0 < p) (hx : px % p ≠ qx % p) : (qx + (p - px % p)) % p ≠ 0 := by
  rw [← subm_mod_mod hp]
  intro h
  have hr := subm_residue (u := qx % p) (v := px % p) hp
  rw [h, Nat.cast_zero, eq_comm, sub_eq_zero, ZMod.natCast_mod, ZMod.natCast_mod, ZMod.natCast_eq_natCast_iff'] at hr
  exact hx hr.symm

theorem pdbl_ne_error_of_prime {p a : Nat} {q : Point} {e : ErrorKind} (hp : p.Prime) (h2 : p ≠ 2) :
    pdbl p a q ≠ .error e := by
  rw [Ne, pdbl_error_iff hp.pos]
  rintro ⟨-, px, py, -, hy, hg⟩
  exact hg (gcd_eq_one_of_prime hp (two_mul_mod_ne_zero hp h2 hy))

/-- For an odd prime only the first way is left. -/
theorem AdditionFails.of_prime {p px py qx qy : Nat} (hp : p.Prime) (h2 : p ≠ 2) (h : AdditionFails p px py qx qy) :
    px % p = qx % p ∧ py % p ≠ qy % p ∧ (py + qy) % p ≠ 0 := by
  rcases h with h | ⟨hx, hg⟩ | ⟨-, hy, hs, hg⟩
  · exact h
  · exact absurd (gcd_eq_one_of_prime hp (sub_mod_ne_zero hp.pos hx)) hg
  · have hne := two_mul_mod_ne_zero hp h2 (mod_ne_zero_of_equal hy hs)
    exact absurd (gcd_eq_one_of_prime hp hne) hg

theorem padd_error_iff {p a : Nat} {q r : Point} {e : ErrorKind} (hp : 2 ≤ p) :
    padd p a q r = .error e ↔
      e = .arithmetic ∧ ∃ px py qx qy, q = .aff px py ∧ r = .aff qx qy ∧ AdditionFails p px py qx qy := by
  cases q with
  | inf => simp [padd]
  | aff px py => cases r with
    | inf => simp [padd]
    | aff qx qy => simp [padd_affine_error_iff hp]

/-- Settles O41: by the cases of each unit, which for an odd prime leave the first. -/
theorem arithmeticErrorsOfThePointUnits : Obligations.ArithmeticErrorsOfThePointUnits := by
  unfold Obligations.ArithmeticErrorsOfThePointUnits
  refine ⟨fun p a q r e => padd_error_iff, fun p a q e hp => pdbl_error_iff (by omega),
    fun p a q r e hp h2 => ⟨pdbl_ne_error_of_prime hp h2, fun h => ?_⟩⟩
  obtain ⟨-, px, py, qx, qy, hq, hr, hfails⟩ := (padd_error_iff hp.two_le).1 h
  exact ⟨px, py, qx, qy, hq, hr, hfails.of_prime hp h2⟩

end Sys2Proof.Machine
end

section
/-! PROOFS. The scalar multiplications: PSMUL and PBMUL (R107, R108), and DERIVE (R120). -/

namespace Sys2Proof.Machine

/-! ### PSMUL and PBMUL (R107, R108) -/

/-- Settles O44: psmul answers a point that fits PT[d], or ArithmeticError. -/
theorem psmulCommand : Obligations.PsmulCommand := by
  unfold Obligations.PsmulCommand
  exact fun s d a k => ⟨toNat_wordOf .., pointCommand_ends rfl
    (fun hp => psmul_fits hp (p_lt s) (fits_readPT s a)) psmul_error_kind⟩

/-- A multiple of the generator fits a point register (R15, R104). -/
theorem psmul_generator_fits {s : State} {k : Nat} {pt : Point} (hp : 0 < s.p)
    (h : psmul s.p s.a s.generator k = .ok pt) : pt.Fits := psmul_fits hp (p_lt s) (generator_fits s) h

theorem psmul_one (p a : Nat) (base : Point) : psmul p a base 1 = .ok base := psmul_bit 0 true

/-- Settles O45: as PSMUL, with the generator, which psmul by 1 answers as stored. -/
theorem pbmulCommand : Obligations.PbmulCommand := by
  unfold Obligations.PbmulCommand
  intro s d k
  obtain ⟨hok, herr, hcurve⟩ := pointCommand_ends (i := .pbmul d k) (s := s) rfl psmul_generator_fits psmul_error_kind
  refine ⟨toNat_wordOf .., hok, fun hc h1 => hok _ hc ?_, herr, hcurve⟩
  rw [h1]
  exact psmul_one ..

/-! ### DERIVE (R120) -/

theorem derive_of_not_valid {s : State} {key : Nat} (h : ¬ ValidScalar s key) : s.derive key = .error .invalidKey :=
  if_neg (mt (validScalar_iff s key).1 h)

theorem derive_of_valid {s : State} {key : Nat} (h : ValidScalar s key) :
    s.derive key = psmul s.p s.a s.generator key := if_pos ((validScalar_iff s key).2 h)

theorem exec_derive (s : State) (d : PReg) (key : SReg) :
    exec (.derive d key) s = .next (commit (constructive s (writing (.point d) (s.derive (s.readS key)))) s) := rfl

/-- Settles O51: the key's check, then a multiple of the generator. -/
theorem deriveCommand : Obligations.DeriveCommand := by
  unfold Obligations.DeriveCommand
  intro s d key
  have hexec := exec_derive s d key
  refine ⟨toNat_wordOf .., fun hok hkey => writing_raises hok hexec (derive_of_not_valid hkey),
    fun pt hok hkey hpt => ?_, fun e hok hkey herr => ?_, raises_curveConfig hexec⟩
  · have hp : 0 < s.p := two_pos.trans_le (modulus_ge_two hok .p)
    exact writing_point_completes hok hexec ((derive_of_valid hkey).trans hpt) (psmul_generator_fits hp hpt)
  · cases psmul_error_kind herr
    exact writing_raises hok hexec ((derive_of_valid hkey).trans herr)

end Sys2Proof.Machine
end

section
/-! PROOFS. The draws of RSAMPLE and SIGN (R117, R118, R122, R123): turn by turn, and a run of RSAMPLE along the bytes
the port delivers. -/

namespace Sys2Proof.Machine

/-! ### A draw, byte by byte (R117) -/

section
variable {s : State} {drawn : List Byte} {v : Byte} (he : s.engine = .busy (.answered drawn (.byte v)))
include he

/-- A byte short of CW bytes is kept, and the next one is asked for. -/
theorem rsample_short (hlen : drawn.length + 1 < s.cw) : s.rsample = .need (drawn ++ [v]) :=
  (rsample_byte he).trans (if_pos hlen)

/-- A whole draw that is no valid scalar is discarded. -/
theorem rsample_rejected (hlen : s.cw ≤ drawn.length + 1) (hk : ¬ ValidScalar s (bytesValue drawn * 256 + v.toNat)) :
    s.rsample = .need [] := by
  rw [rsample_byte he, if_neg hlen.not_gt, if_neg (mt (validScalar_iff s _).1 hk)]

/-- A whole draw that is a valid scalar is the sample. -/
theorem rsample_accepted (hlen : s.cw ≤ drawn.length + 1) (hk : ValidScalar s (bytesValue drawn * 256 + v.toNat)) :
    s.rsample = .got (bytesValue drawn * 256 + v.toNat) := by
  rw [rsample_byte he, if_neg hlen.not_gt, if_pos ((validScalar_iff s _).2 hk)]

end

/-- A valid scalar fits a scalar register. -/
theorem ValidScalar.lt {s : State} {k : Nat} (h : ValidScalar s k) : k < 2 ^ 512 := h.2.trans (n_lt s)

/-- With curve_ok a constructive command that asks for a byte requests it and changes nothing else (R154). -/
theorem requests_of_wait {i : Instr} {s : State} {drawn : List Byte}
    (hx : exec i s = .next (commit (constructive s (.wait drawn)) s)) (hok : s.curveOk = true) :
    Requests i drawn s := by
  rw [constructive_ok hok] at hx
  exact hx

/-! ### RSAMPLE, turn by turn (R118) -/

/-- How RSAMPLE goes on from where its draw stands. -/
def rsampleEffect (d : SReg) : Draw → Effect
  | .need drawn => .wait drawn
  | .got k => .ok [.scalar d k] false
  | .failed => .error .randomSource

theorem exec_rsample (s : State) (d : SReg) :
    exec (.rsample d) s = .next (commit (constructive s (rsampleEffect d s.rsample)) s) := by
  simp only [exec, execRsample]
  cases s.rsample <;> rfl

/-- RSAMPLE from where its draw stands. -/
theorem exec_rsample_of {s : State} {draw : Draw} (h : s.rsample = draw) (d : SReg) :
    exec (.rsample d) s = .next (commit (constructive s (rsampleEffect d draw)) s) := h ▸ exec_rsample s d

/-- Settles O49: each progress of the command against what its draw needs, has or lacks. -/
theorem rsampleCommand : Obligations.RsampleCommand := by
  unfold Obligations.RsampleCommand
  refine fun s d => ⟨toNat_wordOf .., fun hok he => ?_, fun drawn hok he => ?_,
    fun drawn v hok he => ⟨fun hlen => ?_, fun hlen hk => ?_, fun hlen hk => ?_⟩, raises_curveConfig (exec_rsample s d)⟩
  · exact requests_of_wait (exec_rsample_of (rsample_ready he) d) hok
  · exact raises_error (exec_rsample_of (rsample_failed he) d) hok
  · exact requests_of_wait (exec_rsample_of (rsample_short he hlen) d) hok
  · exact requests_of_wait (exec_rsample_of (rsample_rejected he hlen hk) d) hok
  · exact completes_scalar (exec_rsample_of (rsample_accepted he hlen hk) d) hok hk.lt

/-! ### A run of RSAMPLE (R117, R119) -/

/-- The port's answers of `bytes`, each with the turn of the engine that takes it. -/
def byteEvents (bytes : List Byte) : List Event := bytes.flatMap fun v => [.rng (.byte v), .engine]

theorem byteEvents_append (xs ys : List Byte) : byteEvents (xs ++ ys) = byteEvents xs ++ byteEvents ys :=
  List.flatMap_append

/-- The command of `s` waiting for the byte after `drawn`, with these events to come. -/
def State.waitingFor (s : State) (drawn : List Byte) (inputs : List Event) : State :=
  { s with engine := .busy (.waiting drawn), inputs := inputs, response := none }

/-- The command of `s` with the answer `v` taken after `drawn`, and these events to come. -/
def State.holding (s : State) (drawn : List Byte) (v : Byte) (inputs : List Event) : State :=
  { s with engine := .busy (.answered drawn (.byte v)), inputs := inputs, response := none }

/-- A whole draw has a last byte, CW being at least 1 (R31). -/
theorem exists_last_byte {s : State} (hok : s.curveOk = true) {draw : List Byte} (hlen : draw.length = s.cw) :
    ∃ init last, draw = init ++ [last] ∧ init.length + 1 = s.cw := by
  obtain ⟨hcw, -⟩ := (curveOk_iff s).1 hok
  rcases List.eq_nil_or_concat draw with rfl | ⟨init, last, rfl⟩
  · simp at hlen
    omega
  · exact ⟨init, last, by simp, by simpa using hlen⟩

section
variable {s : State} {d : SReg} (hok : s.curveOk = true) (hcmd : s.cmd = encode (.rsample d))
include hcmd

/-- A byte and the turn that takes it are two steps. -/
theorem run_byte {drawn : List Byte} {v : Byte} {more : List Event} {t : State}
    (h : exec (.rsample d) (s.holding drawn v more) = .next t) (k : Nat) :
    core.run (k + 2) (s.waitingFor drawn (.rng (.byte v) :: .engine :: more)) = core.run k t := by
  have hanswer : step (s.waitingFor drawn (.rng (.byte v) :: .engine :: more))
      = .next (s.holding drawn v (.engine :: more)) := step_rng rfl
  have hdecode : decode (s.holding drawn v (.engine :: more)).cmd = .ok (.rsample d) :=
    (congrArg decode hcmd).trans (decode_encode rfl)
  have hturn : step (s.holding drawn v (.engine :: more)) = .next t :=
    (step_engine rfl).trans ((engineTurn_legal (s := s.holding drawn v more) rfl (by simp) hdecode).trans h)
  rw [run_succ hanswer, run_succ hturn]

include hok

/-- The bytes of a draw short of CW are collected. -/
theorem run_short (bytes : List Byte) {drawn : List Byte} (hlen : drawn.length + bytes.length < s.cw)
    (more : List Event) (k : Nat) :
    core.run (k + 2 * bytes.length) (s.waitingFor drawn (byteEvents bytes ++ more))
      = core.run k (s.waitingFor (drawn ++ bytes) more) := by
  induction bytes generalizing drawn with
  | nil => simp [byteEvents]
  | cons v vs ih =>
    simp only [List.length_cons] at hlen
    have hlen' : drawn.length + 1 < (s.holding drawn v (byteEvents vs ++ more)).cw := by
      show drawn.length + 1 < s.cw
      omega
    have hdraw := rsample_short (s := s.holding drawn v (byteEvents vs ++ more)) rfl hlen'
    have hreq := requests_of_wait (exec_rsample_of hdraw d) hok
    have hbyte := run_byte hcmd hreq (k + 2 * vs.length)
    have hrest := ih (drawn := drawn ++ [v]) (by simp; omega)
    rw [List.append_assoc] at hrest
    exact hbyte.trans hrest

/-- A whole draw comes down to the turn that takes its last byte. -/
theorem run_draw {init : List Byte} {last : Byte} {more : List Event} {t : State} (hlen : init.length + 1 = s.cw)
    (h : exec (.rsample d) (s.holding init last more) = .next t) (k : Nat) :
    core.run (k + 2 * (init ++ [last]).length) (s.waitingFor [] (byteEvents (init ++ [last]) ++ more))
      = core.run k t := by
  have hshort := run_short hok hcmd init (drawn := []) (by simp; omega) (byteEvents [last] ++ more) (k + 2)
  have hcount : k + 2 * (init ++ [last]).length = k + 2 + 2 * init.length := by simp; omega
  rw [byteEvents_append, List.append_assoc, hcount, hshort]
  exact run_byte hcmd h k

/-- A whole draw that is no valid scalar leaves the command waiting for a fresh one. -/
theorem run_rejected {draw : List Byte} (hlen : draw.length = s.cw) (hk : ¬ ValidScalar s (bytesValue draw))
    (more : List Event) (k : Nat) :
    core.run (k + 2 * draw.length) (s.waitingFor [] (byteEvents draw ++ more)) = core.run k (s.waitingFor [] more) := by
  obtain ⟨init, last, rfl, hinit⟩ := exists_last_byte hok hlen
  rw [bytesValue_append_one] at hk
  have hdraw := rsample_rejected (s := s.holding init last more) rfl hinit.ge hk
  exact run_draw hok hcmd hinit (requests_of_wait (exec_rsample_of hdraw d) hok) k

/-- Any number of them do. -/
theorem run_rejected_draws {rejected : List (List Byte)}
    (hrej : ∀ draw ∈ rejected, draw.length = s.cw ∧ ¬ ValidScalar s (bytesValue draw)) (more : List Event) (k : Nat) :
    core.run (k + 2 * rejected.flatten.length) (s.waitingFor [] (byteEvents rejected.flatten ++ more))
      = core.run k (s.waitingFor [] more) := by
  induction rejected with
  | nil => rfl
  | cons draw draws ih =>
    obtain ⟨hlen, hk⟩ := hrej draw (List.mem_cons_self ..)
    have hfirst := run_rejected hok hcmd hlen hk (byteEvents draws.flatten ++ more) (k + 2 * draws.flatten.length)
    have hcount : k + 2 * (draw :: draws).flatten.length = k + 2 * draws.flatten.length + 2 * draw.length := by
      simp
      omega
    rw [List.flatten_cons, byteEvents_append, List.append_assoc, ← List.flatten_cons, hcount, hfirst]
    exact ih fun draw' hd => hrej draw' (List.mem_cons_of_mem _ hd)

/-- A whole draw that is a valid scalar completes the command with its value. -/
theorem run_accepted {draw : List Byte} (hlen : draw.length = s.cw) (hk : ValidScalar s (bytesValue draw))
    (rest : List Event) :
    ∃ t, core.run (2 * draw.length) (s.waitingFor [] (byteEvents draw ++ rest)) = .next t
      ∧ CompletedOk false { s with inputs := rest, response := none } t ∧ WritesScalar d (bytesValue draw) s t := by
  obtain ⟨init, last, rfl, hinit⟩ := exists_last_byte hok hlen
  rw [bytesValue_append_one] at hk ⊢
  have hdraw := rsample_accepted (s := s.holding init last rest) rfl hinit.ge hk
  obtain ⟨t, ht, hc, hw⟩ := completes_scalar (exec_rsample_of hdraw d) hok hk.lt
  have hrun := run_draw hok hcmd hinit ht 0
  rw [Nat.zero_add] at hrun
  exact ⟨t, hrun, hc, hw⟩

/-- The first turn of a fresh command asks for a byte (R117). -/
theorem run_first_turn (he : s.engine = .busy .ready) {more : List Event} (hin : s.inputs = .engine :: more) (k : Nat) :
    core.run (k + 1) s = core.run k (s.waitingFor [] more) := by
  have hdecode : decode s.cmd = .ok (.rsample d) := (congrArg decode hcmd).trans (decode_encode rfl)
  have hreq : Requests (.rsample d) [] { s with inputs := more, response := none } :=
    requests_of_wait (exec_rsample_of (rsample_ready (s := { s with inputs := more, response := none }) he) d) hok
  refine run_succ ((step_engine hin).trans ?_) k
  exact (engineTurn_legal (s := { s with inputs := more, response := none }) he (by simp) hdecode).trans hreq

end

/-- Settles O50: the first turn, then the rejected draws by induction on their list, then the accepted one. -/
theorem rsampleRunYieldsFirstValidDraw : Obligations.RsampleRunYieldsFirstValidDraw := by
  unfold Obligations.RsampleRunYieldsFirstValidDraw
  intro s d rejected good rest hok he hcmd hrej hlen hk hin
  obtain ⟨t, hrun, hdone⟩ := run_accepted hok hcmd hlen hk rest
  refine ⟨t, ?_, hdone⟩
  have hcount : 2 * (rejected.flatten ++ good).length = 2 * good.length + 2 * rejected.flatten.length := by
    simp only [List.length_append]
    omega
  calc core.run (2 * (rejected.flatten ++ good).length + 1) s
      = core.run (2 * (rejected.flatten ++ good).length)
          (s.waitingFor [] (byteEvents (rejected.flatten ++ good) ++ rest)) := run_first_turn hok hcmd he hin _
    _ = core.run (2 * good.length + 2 * rejected.flatten.length)
          (s.waitingFor [] (byteEvents rejected.flatten ++ (byteEvents good ++ rest))) := by
        rw [hcount, byteEvents_append, List.append_assoc]
    _ = core.run (2 * good.length) (s.waitingFor [] (byteEvents good ++ rest)) :=
        run_rejected_draws hok hcmd hrej _ _
    _ = .next t := hrun

/-! ### SIGN's checks and requests (R123, R137) -/

/-- SIGN with distinct destinations is a constructive command. -/
theorem exec_sign {s : State} {r sd : SReg} (hne : r ≠ sd) (h key : SReg) :
    exec (.sign r sd h key) s
      = .next (commit (constructive s (s.signEffect r sd (s.readS h) (s.readS key))) s) :=
  congrArg (fun e => Host.Outcome.next (commit e s)) (if_neg hne)

/-- SIGN from the effect its evaluation ends with. -/
theorem exec_sign_of {s : State} {r sd h key : SReg} {e : Effect} (hne : r ≠ sd)
    (he : s.signEffect r sd (s.readS h) (s.readS key) = e) :
    exec (.sign r sd h key) s = .next (commit (constructive s e) s) := he ▸ exec_sign hne h key

/-- How SIGN goes on from a turn of its loop (R122): a discarded nonce starts a fresh draw. -/
def nonceEffect (rd sd : SReg) : Except ErrorKind (Option (Nat × Nat)) → Effect
  | .error e => .error e
  | .ok none => .wait []
  | .ok (some (r, sig)) => .ok [.scalar rd r, .scalar sd sig] false

section
variable {s : State} {rd sd : SReg} {h key : Nat}

/-- The key is checked before any byte is asked for (R122). -/
theorem signEffect_of_not_valid (hk : ¬ ValidScalar s key) : s.signEffect rd sd h key = .error .invalidKey := by
  have hkey : s.validScalar key = false := by rwa [← Bool.not_eq_true, validScalar_iff]
  simp [State.signEffect, hkey]

variable (hk : ValidScalar s key)
include hk

theorem signEffect_need {drawn : List Byte} (hr : s.rsample = .need drawn) :
    s.signEffect rd sd h key = .wait drawn := by
  simp [State.signEffect, (validScalar_iff s key).2 hk, hr]

theorem signEffect_failed (hr : s.rsample = .failed) : s.signEffect rd sd h key = .error .randomSource := by
  simp [State.signEffect, (validScalar_iff s key).2 hk, hr]

/-- With a nonce the evaluation ends as its turn of the loop does (R122). -/
theorem signEffect_nonce {k : Nat} (hr : s.rsample = .got k) :
    s.signEffect rd sd h key = nonceEffect rd sd (s.signNonce h key k) := by
  simp only [State.signEffect, (validScalar_iff s key).2 hk, hr, Bool.not_true, Bool.false_eq_true, if_false]
  rcases s.signNonce h key k with _ | _ | _ <;> rfl

end

/-- Settles O52: the checks in their order, then what the draw needs or lacks. -/
theorem signChecksThenDraws : Obligations.SignChecksThenDraws := by
  unfold Obligations.SignChecksThenDraws
  intro s r sd h key
  refine ⟨toNat_wordOf .., fun heq => ?_, fun hne hok => raises_curveConfig (exec_sign hne h key) hok,
    fun hne hok hk => raises_error (exec_sign_of hne (signEffect_of_not_valid hk)) hok,
    fun hne hok hk => ⟨fun he => ?_, fun drawn he => ?_, fun drawn v he => ⟨fun hlen => ?_, fun hlen hkk => ?_⟩⟩⟩
  · exact ⟨_, congrArg (fun e => Host.Outcome.next (commit e s)) (if_pos heq), completeError_spec .illegalCommand s⟩
  · exact requests_of_wait (exec_sign_of hne (signEffect_need hk (rsample_ready he))) hok
  · exact raises_error (exec_sign_of hne (signEffect_failed hk (rsample_failed he))) hok
  · exact requests_of_wait (exec_sign_of hne (signEffect_need hk (rsample_short he hlen))) hok
  · exact requests_of_wait (exec_sign_of hne (signEffect_need hk (rsample_rejected he hlen hkk))) hok

/-! ### A turn of SIGN's loop (R122) -/

/-- The inverse of k times t is the one v below m with `k * v` congruent to t. -/
theorem inverse_mul_eq {k m t v : Nat} (hm : 2 ≤ m) (hg : Nat.gcd (k % m) m = 1) (hv : v < m) (h : k * v % m = t % m) :
    inverse k m * t % m = v := by
  obtain ⟨-, -, hinv⟩ := inverse_spec hm hg
  have hinv : k * inverse k m ≡ 1 [MOD m] := by rw [Nat.ModEq, hinv, Nat.mod_eq_of_lt (by omega)]
  have h : t ≡ k * v [MOD m] := h.symm
  have hres : inverse k m * t ≡ v [MOD m] := calc
    inverse k m * t ≡ inverse k m * (k * v) [MOD m] := h.mul_left _
    _ = k * inverse k m * v := by ring
    _ ≡ 1 * v [MOD m] := hinv.mul_right v
    _ = v := one_mul v
  rwa [Nat.ModEq, Nat.mod_eq_of_lt hv] at hres

section
variable {s : State} {h key k : Nat}

theorem signNonce_of_error {e : ErrorKind} (hp : psmul s.p s.a s.generator k = .error e) :
    s.signNonce h key k = .error .arithmetic := by
  rw [State.signNonce, hp, psmul_error_kind hp]

theorem signNonce_of_inf (hp : psmul s.p s.a s.generator k = .ok .inf) : s.signNonce h key k = .ok none := by
  rw [State.signNonce, hp]

variable {x y : Nat} (hp : psmul s.p s.a s.generator k = .ok (.aff x y))
include hp

theorem signNonce_of_r_zero (hr : x % s.n = 0) : s.signNonce h key k = .ok none := by
  simp [State.signNonce, hp, hr]

variable (hr : x % s.n ≠ 0)
include hr

theorem signNonce_of_not_coprime (hg : Nat.gcd k s.n ≠ 1) : s.signNonce h key k = .error .arithmetic := by
  simp [State.signNonce, hp, hr, invm_error ((gcd_mod_left k s.n).trans_ne hg)]

/-- With an inverse of k the turn comes to the one sv below n with `k * sv` congruent to `h + r * key`. -/
theorem signNonce_of_coprime (hn : 2 ≤ s.n) (hg : Nat.gcd k s.n = 1) {sv : Nat} (hsv : sv < s.n)
    (heq : k * sv % s.n = (h + x % s.n * key) % s.n) :
    s.signNonce h key k = if sv = 0 then .ok none else .ok (some (x % s.n, sv)) := by
  have hg' : Nat.gcd (k % s.n) s.n = 1 := (gcd_mod_left k s.n).trans hg
  have hsig : inverse k s.n * (h + x % s.n * key) % s.n = sv := inverse_mul_eq hn hg' hsv heq
  simp [State.signNonce, hp, hr, invm_ok hg', hsig]

end

/-- Completion with two distinct scalars written. -/
theorem completeOk_two_scalars {r sd : SReg} (hne : r ≠ sd) {rv sv : Nat} (hrv : rv < 2 ^ 512) (hsv : sv < 2 ^ 512)
    (b : Bool) (s : State) {t : State} (ht : t = completeOk [.scalar r rv, .scalar sd sv] b s) :
    t.readS r = rv ∧ t.readS sd = sv ∧ (∀ j, j ≠ r → j ≠ sd → t.sreg.get j = s.sreg.get j) ∧ PointsKept s t
      ∧ t.curve = s.curve ∧ BufferKept s t := by
  subst ht
  refine ⟨?_, readS_writeS_same _ sd hsv, fun j hr hs => ?_, fun _ => rfl, rfl, rfl, fun _ => rfl⟩
  · exact (readS_writeS_other (s.writeS r rv) sv hne).trans (readS_writeS_same s r hrv)
  · simp [applyWrite, hr, hs]

/-- Settles O53: the evaluation ends as its turn of the loop does; the written pair is the one the equation names. -/
theorem signNonceEquation : Obligations.SignNonceEquation := by
  unfold Obligations.SignNonceEquation
  rintro s r sd h key drawn v k hne hok hkey he hlen rfl hk
  have hn : 2 ≤ s.n := modulus_ge_two hok .n
  have hexec {turn : Except ErrorKind (Option (Nat × Nat))}
      (hturn : s.signNonce (s.readS h) (s.readS key) (bytesValue drawn * 256 + v.toNat) = turn) :
      exec (.sign r sd h key) s = .next (commit (constructive s (nonceEffect r sd turn)) s) :=
    exec_sign_of hne (hturn ▸ signEffect_nonce hkey (rsample_accepted he hlen hk))
  refine ⟨fun e hp => raises_error (hexec (signNonce_of_error hp)) hok,
    fun hp => requests_of_wait (hexec (signNonce_of_inf hp)) hok, ?_⟩
  rintro x y rv sv hp rfl
  refine ⟨fun hr => requests_of_wait (hexec (signNonce_of_r_zero hp hr)) hok,
    fun hr hg => raises_error (hexec (signNonce_of_not_coprime hp hr hg)) hok,
    fun hr hg hsv heq => ⟨fun h0 => ?_, fun h0 => ?_⟩⟩
  · exact requests_of_wait (hexec ((signNonce_of_coprime hp hr hn hg hsv heq).trans (if_pos h0))) hok
  · have hx := hexec ((signNonce_of_coprime hp hr hn hg hsv heq).trans (if_neg h0))
    rw [constructive_ok hok] at hx
    have hrv : x % s.n < 2 ^ 512 := (Nat.mod_lt x (by omega)).trans (n_lt s)
    exact ⟨_, hx, completeOk_spec _ false s, completeOk_two_scalars hne hrv (hsv.trans (n_lt s)) false s rfl⟩

end Sys2Proof.Machine
end

section
/-! PROOFS. The round trips of the point codec (R132): PDEC after PENC, and PDECOMP after PCOMP by the square root that
R130 computes for a prime p ≡ 3 (mod 4). -/

namespace Sys2Proof.Machine

/-! ### Bytes read back (R13) -/

/-- BUF holding the bytes of a value gives the value back. -/
theorem bufferValue_of_bytes {s : State} {a len v : Nat} (hv : v < 256 ^ len)
    (hb : ∀ j, j < len → (Memory.read s.buf (a + j)).toNat = beByte len v j) : bufferValue s a len = v := by
  have hbytes : Memory.readBytes s.buf a len = bytesOf len v := by
    refine List.ext_getElem (by simp) fun j hj hj' => BitVec.eq_of_toNat_eq ?_
    rw [getElem_readBytes, getElem_bytesOf]
    exact hb j (by simpa using hj)
  rw [← bytesValue_readBytes, hbytes, bytesValue_bytesOf hv]

/-- With curve_ok a value below p has CW bytes (R31). -/
theorem lt_of_lt_p {s : State} (hok : s.curveOk = true) {v : Nat} (hv : v < s.p) : v < 2 ^ (8 * s.cw) := by
  obtain ⟨-, -, -, hp, -⟩ := (curveOk_iff s).1 hok
  exact hv.trans hp

theorem lt_pow_256 {s : State} (hok : s.curveOk = true) {v : Nat} (hv : v < s.p) : v < 256 ^ s.cw := by
  rw [show (256 : Nat) = 2 ^ 8 from rfl, ← pow_mul]
  exact lt_of_lt_p hok hv

/-- curve_ok reads the curve registers only (R31). -/
theorem curveOk_of_curve_eq {s t : State} (h : t.curve = s.curve) (hok : s.curveOk = true) : t.curveOk = true := by
  rw [curveOk_iff, cw_eq, p_eq, n_eq, h]
  exact (curveOk_iff s).1 hok

/-- Settles O59: BUF holds the two coordinates' bytes, whose values PDEC reads back. -/
theorem decodingAnEncodedPointGivesItBack : Obligations.DecodingAnEncodedPointGivesItBack := by
  unfold Obligations.DecodingAnEncodedPointGivesItBack
  intro s t a d x y hwf hok ha hx hy h
  obtain ⟨-, -, -, hpenc, -⟩ := pencCommand s a
  obtain ⟨t', ht', -, hlen, hbytes, -, -, -, hcurve⟩ := hpenc x y hwf hok ha (lt_of_lt_p hok hx) (lt_of_lt_p hok hy)
  obtain rfl := Host.Outcome.next.inj (h.symm.trans ht')
  obtain ⟨-, -, hpdec, -⟩ := pdecCommand t d
  obtain ⟨u, hu, hdone, hwrites⟩ := hpdec (curveOk_of_curve_eq hcurve hok) (by rw [hcurve]; exact hlen)
  have hxval : bufferValue t 0 s.curve.cw.toNat = x := bufferValue_of_bytes (lt_pow_256 hok hx) fun j hj => by
    rw [Nat.zero_add, hbytes j (by omega)]
    exact if_pos hj
  have hyval : bufferValue t s.curve.cw.toNat s.curve.cw.toNat = y :=
    bufferValue_of_bytes (lt_pow_256 hok hy) fun j hj => by
      rw [hbytes _ (by omega)]
      refine (if_neg (by omega)).trans ?_
      rw [Nat.add_sub_cancel_left]
  rw [hcurve, hxval, hyval] at hwrites
  exact ⟨u, hu, hdone, hwrites⟩

/-! ### The square root of R130 -/

section
variable {p y z : Nat} (hp : p.Prime)
include hp

/-- For a prime p ≡ 3 (mod 4) the candidate root of a square squares to it: its square is `y^(p+1)`. -/
theorem rootCandidate_sq (h3 : p % 4 = 3) :
    rootCandidate p (y ^ 2 % p) * rootCandidate p (y ^ 2 % p) % p = y ^ 2 % p := by
  have := Fact.mk hp
  have hexp : 2 * ((p + 1) / 4) * 2 = p + 1 := by omega
  refine (ZMod.natCast_eq_natCast_iff' _ _ p).1 ?_
  calc ((rootCandidate p (y ^ 2 % p) * rootCandidate p (y ^ 2 % p) : Nat) : ZMod p)
      = (y : ZMod p) ^ (2 * ((p + 1) / 4) * 2) := by simp [rootCandidate, pow_mul, pow_two]
    _ = (y : ZMod p) ^ p * y := by rw [hexp, pow_succ]
    _ = ((y ^ 2 : Nat) : ZMod p) := by rw [ZMod.pow_card, Nat.cast_pow, pow_two]

/-- A square vanishes modulo a prime only for 0. -/
theorem eq_zero_of_sq_mod (hy : y < p) (h : y ^ 2 % p = 0) : y = 0 :=
  Nat.eq_zero_of_dvd_of_lt (hp.dvd_of_dvd_pow (Nat.dvd_of_mod_eq_zero h)) hy

/-- Modulo an odd prime, values below it with the same square and the same parity are equal. -/
theorem eq_of_sq_eq_of_parity (hodd : p % 2 = 1) (hy : y < p) (hz : z < p) (hsq : z ^ 2 % p = y ^ 2 % p)
    (hpar : z % 2 = y % 2) : z = y := by
  have := Fact.mk hp
  have hsq : (z : ZMod p) ^ 2 = (y : ZMod p) ^ 2 := by
    simpa using (ZMod.natCast_eq_natCast_iff' (z ^ 2) (y ^ 2) p).2 hsq
  rcases sq_eq_sq_iff_eq_or_eq_neg.1 hsq with h | h
  · exact eq_of_residue_eq hz hy h
  · have hsum : p ∣ z + y := by
      rw [← ZMod.natCast_eq_zero_iff, Nat.cast_add, h, neg_add_cancel]
    obtain ⟨c, hc⟩ := hsum
    have hc2 : c < 2 := by
      by_contra hge
      have := Nat.mul_le_mul_left p (not_lt.1 hge)
      omega
    interval_cases c <;> omega

end

/-- A valid key is an affine point with coordinates below p on the curve (R112, R113). -/
theorem validKey_aff_iff {s : State} {x y : Nat} :
    ValidKey s (.aff x y) ↔ x < s.p ∧ y < s.p ∧ y ^ 2 % s.p = (x ^ 3 + s.a * x + s.b) % s.p := by
  constructor
  · rintro ⟨_, _, ⟨⟩, hx, hy, _, _, ⟨⟩, hcurve⟩
    exact ⟨hx, hy, hcurve⟩
  · rintro ⟨hx, hy, hcurve⟩
    exact ⟨x, y, rfl, hx, hy, x, y, rfl, hcurve⟩

/-- BUF holding a valid key's tag and X decompresses to the key (R131). -/
theorem decompress_compressed {s : State} {x y : Nat} (hp : s.p.Prime) (h3 : s.p % 4 = 3) (hkey : ValidKey s (.aff x y))
    (hlen : s.buflen.toNat = s.cw + 1) (htag : s.keyTag = 2 + y % 2) (hx : s.keyX = x) :
    s.decompress = .ok (.aff x y) := by
  obtain ⟨hxp, hyp, hcurve⟩ := validKey_aff_iff.1 hkey
  have hrhs : s.keyRhs = y ^ 2 % s.p := by rw [State.keyRhs, hx, hcurve]
  have hroot : s.keyRoot * s.keyRoot % s.p = s.keyRhs := by
    rw [State.keyRoot, hrhs]
    exact rootCandidate_sq hp h3
  have h0 : s.keyRoot ≠ 0 ∨ s.keyTag = 2 := by
    by_cases hz : s.keyRoot = 0
    · rw [hz, Nat.zero_mul, Nat.zero_mod, hrhs] at hroot
      have hy := eq_zero_of_sq_mod hp hyp hroot.symm
      exact .inr (by rw [htag, hy])
    · exact .inl hz
  obtain ⟨yy, hdec, -, hkey', hpar, -⟩ := decompress_ok hlen (by omega) h3 (hx ▸ hxp) hroot h0
  rw [hx] at hdec hkey'
  obtain ⟨-, hyy, hcurve'⟩ := validKey_aff_iff.1 hkey'
  obtain rfl : yy = y := eq_of_sq_eq_of_parity hp (by omega) hyp hyy (hcurve'.trans hcurve.symm) (by omega)
  exact hdec

/-- Settles O60: BUF holds the key's tag and X, and of the two roots the tag chooses the key's own. -/
theorem decompressingACompressedKeyGivesItBack : Obligations.DecompressingACompressedKeyGivesItBack := by
  unfold Obligations.DecompressingACompressedKeyGivesItBack
  intro s t a d hwf hok hp h3 hkey h
  obtain ⟨x, y, ha, hx, hy, -⟩ := id hkey
  rw [ha] at hkey ⊢
  obtain ⟨-, -, hpcomp, -⟩ := pcompCommand s a
  obtain ⟨t', ht', -, hlen, hbytes, -, -, -, hcurve⟩ := hpcomp x y hwf hok ha hkey
  obtain rfl := Host.Outcome.next.inj (h.symm.trans ht')
  have hcw : t.cw = s.cw := by rw [cw_eq, hcurve, cw_eq]
  have hpt : t.p = s.p := by rw [p_eq, hcurve, p_eq]
  have htag : t.keyTag = 2 + y % 2 := hbytes 0 (by omega)
  have hxval : t.keyX = x := by
    rw [State.keyX, hcw]
    refine bufferValue_of_bytes (lt_pow_256 hok hx) fun j hj => ?_
    rw [Nat.add_comm, hbytes _ (Nat.succ_lt_succ hj)]
    exact if_neg (Nat.succ_ne_zero j)
  have hkeyt : ValidKey t (.aff x y) := by
    rw [validKey_aff_iff] at hkey ⊢
    simpa only [State.p, State.a, State.b, hcurve] using hkey
  have hdec := decompress_compressed (hpt ▸ hp) (hpt ▸ h3) hkeyt (hcw ▸ hlen) htag hxval
  exact writing_point_completes (curveOk_of_curve_eq hcurve hok) (exec_pdecomp t d) hdec (ha ▸ fits_readPT s a)

end Sys2Proof.Machine
end
